-- ==== Sys2Proof/Word.lean ====
section
/-! DEFINITION. The widths of the block's values (spec/30_encoding.md R53 to R60, R67; spec/20_memory.md R37)
and the sixteen colours (R55). -/

namespace Sys2Proof

/-- One byte: a character code, a port byte, a scancode (R58, R67). -/
abbrev Byte := BitVec 8

/-- A glyph cell: background 15:12, foreground 11:8, character 7:0 (R53). -/
abbrev GlyphCell := BitVec 16

/-- A colour, 4 bits (R55). -/
abbrev Colour := BitVec 4

/-- An I/O port number, 16 bits (R7, decision D18). -/
abbrev Port := BitVec 16

/-- A physical address or handler entry address, 32 bits (R7, R37). -/
abbrev Address := BitVec 32

/-- An interrupt descriptor, 64 bits (R60). -/
abbrev Descriptor := BitVec 64

/-- A key code: a scancode byte without its release bit, 7 bits (R58). -/
abbrev KeyCode := BitVec 7

/-- An interrupt input of a controller chip (R113). -/
abbrev Line := Fin 8

/-- The sixteen colour names in the order the document lists them; a colour's number is its place (R55, D2). -/
def colourNames : List String :=
  ["black", "blue", "green", "cyan", "red", "magenta", "brown", "light-grey",
   "dark-grey", "light-blue", "light-green", "light-cyan", "light-red", "light-magenta", "light-brown", "white"]

/-- FG_DEFAULT, light-grey (R8). -/
abbrev fgDefault : Colour := 7

/-- BG_DEFAULT, black (R8). -/
abbrev bgDefault : Colour := 0

end Sys2Proof
end

