-- ==== Sys2Proof/Config.lean ====
section
/-! DEFINITION. The implementation parameters the document leaves open (spec/00_scope.md R7), their constraints, the
default column of R7 as a value, and the one value that is left free. The parameters are an ARGUMENT of the model: State
carries a Config that no step writes, so a statement about every state is a statement about every choice of them. -/

namespace Sys2Proof

/-- The named parameters of R7, one field each. Every one is "fixed" in the document and has no value there (D29). -/
structure Config where
  /-- VIDEO_BASE: "fixed physical base address" of video memory. -/
  videoBase : Address
  /-- CRTC_CMD: the cursor command port. -/
  crtcCmd : Port
  /-- CRTC_DATA: the cursor data port. -/
  crtcData : Port
  /-- CURSOR_SEL_HI: the "select high-byte register" command. -/
  cursorSelHi : Byte
  /-- CURSOR_SEL_LO: the "select low-byte register" command. -/
  cursorSelLo : Byte
  /-- PIC_M_CMD, PIC_M_DATA: the master controller's ports. -/
  picMCmd : Port
  picMData : Port
  /-- PIC_S_CMD, PIC_S_DATA: the slave controller's ports. -/
  picSCmd : Port
  picSData : Port
  /-- ICW1: first initialisation byte, the same for both chips. -/
  icw1 : Byte
  /-- ICW2_M, ICW2_S: the vector bases. -/
  icw2M : Byte
  icw2S : Byte
  /-- ICW3_M, ICW3_S: cascade wiring. -/
  icw3M : Byte
  icw3S : Byte
  /-- ICW4: mode. -/
  icw4 : Byte
  /-- MASK_M, MASK_S: the interrupt-mask bytes. -/
  maskM : Byte
  maskS : Byte
  /-- EOI_BYTE: end of interrupt. -/
  eoiByte : Byte
  /-- TIMER_LINE, KBD_LINE, CASCADE_LINE: the three used master lines. -/
  timerLine : Line
  kbdLine : Line
  cascadeLine : Line
  /-- KBD_DATA_PORT: the scancode data port. -/
  kbdDataPort : Port
  /-- IDT_ENTRIES: the length of the descriptor table. -/
  idtEntries : Nat
  /-- KBD_VECTOR: the one live vector. -/
  kbdVector : Byte
  /-- IDT_BASE: base address of the table in memory. -/
  idtBase : Address
  /-- HANDLER_ADDR: the installed handler's entry address. -/
  handlerAddr : Address
  /-- GATE_ATTR: the "fixed present/type attribute word". -/
  gateAttr : BitVec 16
  /-- CODE_SEL: the "fixed code-segment selector". -/
  codeSel : BitVec 16
  /-- SC_LSHIFT, SC_RSHIFT, SC_CTRL, SC_ALT: the modifier keys' codes. -/
  scLshift : KeyCode
  scRshift : KeyCode
  scCtrl : KeyCode
  scAlt : KeyCode
  /-- SCTAB: the "fixed 128-entry lookup table from scancode to an ASCII character" (R29). -/
  scTab : Vector Byte 128
  /-- NEWLINE: the character the Terminal treats as a newline. -/
  newline : Byte
  /-- SPACE: the character of a blank cell. -/
  space : Byte
  /-- ENV_TIMER_ASSERTS: whether the environment ever asserts the timer line (OPEN, D15). -/
  envTimerAsserts : Bool
deriving DecidableEq, Repr

namespace Config

/-- IDT_LIMIT = 8 * IDT_ENTRIES - 1 (R8, R61), as the 16 bits of the table register. -/
def idtLimit (c : Config) : BitVec 16 := BitVec.ofNat 16 (8 * c.idtEntries - 1)

/-- The seven ports of the address map (R45). -/
def ports (c : Config) : List Port :=
  [c.crtcCmd, c.crtcData, c.picMCmd, c.picMData, c.picSCmd, c.picSData, c.kbdDataPort]

/-- R7: every port differs from every other. -/
def portsDistinct (c : Config) : Bool := decide c.ports.Nodup

/-- R7: the two cursor select commands differ. -/
def selectsDistinct (c : Config) : Bool := c.cursorSelHi != c.cursorSelLo

/-- R7: ICW1 differs from EOI_BYTE, so that a command-port write is told apart. -/
def icw1NotEoi (c : Config) : Bool := c.icw1 != c.eoiByte

/-- R7: the master's vectors lie in the table; ICW2_M is a multiple of 8. -/
def masterBaseOk (c : Config) : Bool :=
  decide (c.icw2M.toNat + 7 < c.idtEntries) && decide (c.icw2M.toNat % 8 = 0)

/-- R7: the slave's vectors lie in the table and are disjoint from the master's. -/
def slaveBaseOk (c : Config) : Bool :=
  decide (c.icw2S.toNat + 7 < c.idtEntries) &&
    (decide (c.icw2S.toNat + 7 < c.icw2M.toNat) || decide (c.icw2M.toNat + 7 < c.icw2S.toNat))

/-- R7: the three used lines are pairwise distinct. -/
def linesDistinct (c : Config) : Bool := decide [c.timerLine, c.kbdLine, c.cascadeLine].Nodup

/-- R7, D32: MASK_M opens exactly the timer, keyboard and cascade lines. -/
def maskMOk (c : Config) : Bool :=
  (List.finRange 8).all fun l =>
    c.maskM.getLsbD l.val == !(l == c.timerLine || l == c.kbdLine || l == c.cascadeLine)

/-- R7, D32: MASK_S closes every line. -/
def maskSOk (c : Config) : Bool := c.maskS == 0xFF

/-- R7, D28: KBD_VECTOR = ICW2_M + KBD_LINE, inside a table of at most 256 entries. -/
def kbdVectorOk (c : Config) : Bool :=
  decide (c.kbdVector.toNat = c.icw2M.toNat + c.kbdLine.val) &&
    decide (c.kbdVector.toNat < c.idtEntries) && decide (c.idtEntries ≤ 256)

/-- R7, D20: the present bit of GATE_ATTR is 1. -/
def gatePresent (c : Config) : Bool := c.gateAttr.getLsbD 15

/-- R7: the four modifier codes are pairwise distinct. -/
def modifiersDistinct (c : Config) : Bool := decide [c.scLshift, c.scRshift, c.scCtrl, c.scAlt].Nodup

/-- R41, D17: VIDEO_BASE is even. -/
def videoBaseEven (c : Config) : Bool := decide (c.videoBase.toNat % 2 = 0)

/-- R7: the 4000 bytes from VIDEO_BASE do not overlap the table of IDT_BASE. -/
def windowsDisjoint (c : Config) : Bool :=
  decide (c.videoBase.toNat + 4000 ≤ c.idtBase.toNat) ||
    decide (c.idtBase.toNat + 8 * c.idtEntries ≤ c.videoBase.toNat)

/-- Both windows lie inside the 32-bit physical address space of R37 (DEDUCED, notes/assumptions/3.md). -/
def windowsFit (c : Config) : Bool :=
  decide (c.videoBase.toNat + 4000 ≤ 2 ^ 32) && decide (c.idtBase.toNat + 8 * c.idtEntries ≤ 2 ^ 32)

/-- Every constraint of R7's constraints column, with R41's on VIDEO_BASE. -/
def wf (c : Config) : Bool :=
  c.portsDistinct && c.selectsDistinct && c.icw1NotEoi && c.masterBaseOk && c.slaveBaseOk && c.linesDistinct &&
  c.maskMOk && c.maskSOk && c.kbdVectorOk && c.gatePresent && c.modifiersDistinct && c.videoBaseEven &&
  c.windowsDisjoint && c.windowsFit

/-- The informative default of SCTAB (spec/93_implementation_defined.md GK13), codes 0x00 to 0x3F. -/
def defaultScTabLow : List Byte :=
  [0, 0x1B, 0x31, 0x32, 0x33, 0x34, 0x35, 0x36, 0x37, 0x38, 0x39, 0x30, 0x2D, 0x3D, 0x08, 0x09] ++
  [0x71, 0x77, 0x65, 0x72, 0x74, 0x79, 0x75, 0x69, 0x6F, 0x70, 0x5B, 0x5D, 0x0A, 0, 0x61, 0x73] ++
  [0x64, 0x66, 0x67, 0x68, 0x6A, 0x6B, 0x6C, 0x3B, 0x27, 0x60, 0, 0x5C, 0x7A, 0x78, 0x63, 0x76] ++
  [0x62, 0x6E, 0x6D, 0x2C, 0x2E, 0x2F, 0, 0x2A, 0, 0x20, 0, 0, 0, 0, 0, 0]

/-- GK13 whole: every code from 0x40 on maps to 0. -/
def defaultScTab : Vector Byte 128 :=
  ⟨(defaultScTabLow ++ List.replicate 64 0).toArray, by simp [defaultScTabLow]⟩

/-- R7's "default" column. IDT_BASE, HANDLER_ADDR and ENV_TIMER_ASSERTS have no default there: the three values
here are DESIGN CHOICES (notes/assumptions/2.md); no statement rests on them. -/
def default : Config where
  videoBase := 0xB8000
  crtcCmd := 0x3D4
  crtcData := 0x3D5
  cursorSelHi := 0x0E
  cursorSelLo := 0x0F
  picMCmd := 0x20
  picMData := 0x21
  picSCmd := 0xA0
  picSData := 0xA1
  icw1 := 0x11
  icw2M := 0x20
  icw2S := 0x28
  icw3M := 0x04
  icw3S := 0x02
  icw4 := 0x01
  maskM := 0xF8
  maskS := 0xFF
  eoiByte := 0x20
  timerLine := 0
  kbdLine := 1
  cascadeLine := 2
  kbdDataPort := 0x60
  idtEntries := 256
  kbdVector := 0x21
  idtBase := 0x00001000
  handlerAddr := 0x00101234
  gateAttr := 0x8E00
  codeSel := 0x0008
  scLshift := 0x2A
  scRshift := 0x36
  scCtrl := 0x1D
  scAlt := 0x38
  scTab := defaultScTab
  newline := 0x0A
  space := 0x20
  envTimerAsserts := false

/-- A FREE VALUE: the vector base a controller chip presents when its base register was never written ("unspecified",
R24, R36; U8: any value). It has no body: nothing in Lean gives it a value (notes/assumptions/5.md). -/
opaque unwrittenBase : Byte

end Config

end Sys2Proof
end

