-- ==== Sys2Proof/Syntax.lean ====
section
/-! DEFINITION. The rows of spec/opcode_table.json as ONE inductive: the 24 operations (spec/30_encoding.md R66), the 13
port bytes of the device protocols (R62 to R65), the 2 scancode bytes (R58) and the 4 data formats (R53, R54, R60). -/

namespace Sys2Proof

/-- A key event: an immutable record of six fields (R59). -/
structure KeyEvent where
  ch : Byte
  pressed : Bool
  lshift : Bool
  rshift : Bool
  ctrl : Bool
  alt : Bool
deriving DecidableEq, Repr

/-- The two interrupt-controller chips (R24). -/
inductive Chip where
  | master
  | slave
deriving DecidableEq, Repr

/-- One constructor per row of spec/opcode_table.json. -/
inductive Instr where
  /-- OUTB(port, byte), R75. -/
  | outb (port : Port) (b : Byte)
  /-- INB(port) -> byte, R76. -/
  | inb (port : Port)
  /-- PUTGLYPH.CFB(ch, fg, bg, x, y) -> cell, R77: x is the column, y the row. -/
  | putglyphCfb (ch : Byte) (fg bg : Colour) (x y : Nat)
  /-- PUTGLYPH.CELL(cell, x, y) -> cell, R78. -/
  | putglyphCell (cell : GlyphCell) (x y : Nat)
  /-- SETCURSOR(x, y), R79. -/
  | setcursor (x y : Nat)
  /-- TERM.INIT, R81. -/
  | termInit
  /-- TERM.WRITE(text), R82. -/
  | termWrite (text : List Byte)
  /-- TERM.PUTCHAR(ch), R83. -/
  | termPutchar (ch : Byte)
  /-- TERM.ADDLINE, R84. -/
  | termAddline
  /-- KBD.DECODE(sc, pressed, ls, rs, ctrl, alt) -> event, R86. -/
  | kbdDecode (sc : Byte) (pressed ls rs ctrl alt : Bool)
  /-- Q.INIT, R88. -/
  | qInit
  /-- Q.PUT(event), R89. -/
  | qPut (e : KeyEvent)
  /-- Q.READ -> event, R90. -/
  | qRead
  /-- Q.ISEMPTY -> Boolean, R91. -/
  | qIsempty
  /-- IDT.BUILD(handler address), R94. -/
  | idtBuild (a : Address)
  /-- IDT.LOAD, R95. -/
  | idtLoad
  /-- PIC.INIT, R96. -/
  | picInit
  /-- PIC.SETMASK, R97. -/
  | picSetmask
  /-- PIC.EOI, R98. -/
  | picEoi
  /-- KBD.ISR, the handler body, R99. -/
  | kbdIsr
  /-- INT.ENABLE, R104. -/
  | intEnable
  /-- INT.DISABLE, R105. -/
  | intDisable
  /-- HALT, R106. -/
  | halt
  /-- MAIN.STEP, R108. -/
  | mainStep
  /-- CRTC.SEL_HI: the byte CURSOR_SEL_HI at CRTC_CMD, R62 step 1. -/
  | crtcSelHi
  /-- CRTC.DATA_HI: a byte at CRTC_DATA with the high register selected, R62 step 2. -/
  | crtcDataHi (v : Byte)
  /-- CRTC.SEL_LO: the byte CURSOR_SEL_LO at CRTC_CMD, R62 step 3. -/
  | crtcSelLo
  /-- CRTC.DATA_LO: a byte at CRTC_DATA with the low register selected, R62 step 4. -/
  | crtcDataLo (v : Byte)
  /-- PIC.ICW1: the byte ICW1 at a chip's command port, R63 steps 1 and 2. -/
  | picIcw1 (c : Chip)
  /-- PIC.ICW2_M: the master's vector base, R63 step 3. -/
  | picIcw2M (v : Byte)
  /-- PIC.ICW2_S: the slave's vector base, R63 step 4. -/
  | picIcw2S (v : Byte)
  /-- PIC.ICW3_M: the master's cascade wiring, R63 step 5. -/
  | picIcw3M (v : Byte)
  /-- PIC.ICW3_S: the slave's cascade identity, R63 step 6. -/
  | picIcw3S (v : Byte)
  /-- PIC.ICW4: a chip's mode byte, R63 steps 7 and 8. -/
  | picIcw4 (c : Chip) (v : Byte)
  /-- PIC.MASK_M: the master's mask byte, R64. -/
  | picMaskM (v : Byte)
  /-- PIC.MASK_S: the slave's mask byte, R64. -/
  | picMaskS (v : Byte)
  /-- PIC.EOI_BYTE: the byte EOI_BYTE at a chip's command port, R65. -/
  | picEoiByte (c : Chip)
  /-- SC.PRESS: a scancode byte with bit 7 clear, R58. -/
  | scPress (k : KeyCode)
  /-- SC.RELEASE: a scancode byte with bit 7 set, R58. -/
  | scRelease (k : KeyCode)
  /-- CELL: a glyph cell, R53. -/
  | cell (bg fg : Colour) (ch : Byte)
  /-- ATTR: an attribute byte, R54. -/
  | attr (bg fg : Colour)
  /-- DESC: a live interrupt descriptor, R60. -/
  | desc (offHi attrWord selector offLo : BitVec 16)
  /-- DESC.EMPTY: the descriptor 0, "not live", R60. -/
  | descEmpty
deriving DecidableEq, Repr

/-- Which initialisation byte or mask a chip's data port takes next (R75: STEP 3, 2, 1, 0). -/
inductive PicSlot where
  | icw2
  | icw3
  | icw4
  | mask
deriving DecidableEq, Repr

/-- Where a word of the table stands. The table overlays several formats on the same bits; what a byte MEANS depends on
where it stands: in an operation stream (R66), at a device port (R62 to R65), at the keyboard (R58), or in memory as a
cell, an attribute byte or a descriptor (R53, R54, R60). -/
inductive Space where
  | operation
  | crtcCommand
  | crtcData (high : Bool)
  | picCommand (c : Chip)
  | picData (c : Chip) (slot : PicSlot)
  | scancode
  | cell
  | attr
  | descriptor
deriving DecidableEq, Repr

/-- The space a row belongs to (the "format" column of the table). -/
def Instr.space : Instr → Space
  | .crtcSelHi => .crtcCommand
  | .crtcSelLo => .crtcCommand
  | .crtcDataHi _ => .crtcData true
  | .crtcDataLo _ => .crtcData false
  | .picIcw1 c => .picCommand c
  | .picEoiByte c => .picCommand c
  | .picIcw2M _ => .picData .master .icw2
  | .picIcw2S _ => .picData .slave .icw2
  | .picIcw3M _ => .picData .master .icw3
  | .picIcw3S _ => .picData .slave .icw3
  | .picIcw4 c _ => .picData c .icw4
  | .picMaskM _ => .picData .master .mask
  | .picMaskS _ => .picData .slave .mask
  | .scPress _ => .scancode
  | .scRelease _ => .scancode
  | .cell _ _ _ => .cell
  | .attr _ _ => .attr
  | .desc _ _ _ _ => .descriptor
  | .descEmpty => .descriptor
  | .outb _ _ => .operation
  | .inb _ => .operation
  | .putglyphCfb _ _ _ _ _ => .operation
  | .putglyphCell _ _ _ => .operation
  | .setcursor _ _ => .operation
  | .termInit => .operation
  | .termWrite _ => .operation
  | .termPutchar _ => .operation
  | .termAddline => .operation
  | .kbdDecode _ _ _ _ _ _ => .operation
  | .qInit => .operation
  | .qPut _ => .operation
  | .qRead => .operation
  | .qIsempty => .operation
  | .idtBuild _ => .operation
  | .idtLoad => .operation
  | .picInit => .operation
  | .picSetmask => .operation
  | .picEoi => .operation
  | .kbdIsr => .operation
  | .intEnable => .operation
  | .intDisable => .operation
  | .halt => .operation
  | .mainStep => .operation

/-- The "context" column of R66 for an operation: which agents may perform it, and whether it is internal (never in the
foreground stream). -/
structure Contexts where
  fg : Bool
  isr : Bool
  inStream : Bool
deriving DecidableEq, Repr

/-- FG only, and legal in the foreground stream (R66). -/
def ctxFg : Contexts := ⟨true, false, true⟩

/-- ISR only, so never in the foreground stream (R66). -/
def ctxIsr : Contexts := ⟨false, true, false⟩

/-- A word that is no operation has no context column: a device takes it from whichever agent writes it. -/
def ctxWord : Contexts := ⟨true, true, false⟩

/-- R66's context column. -/
def Instr.contexts : Instr → Contexts
  | .outb _ _ => ⟨true, true, true⟩
  | .termAddline => ⟨true, false, false⟩
  | .inb _ => ctxIsr
  | .kbdDecode _ _ _ _ _ _ => ctxIsr
  | .qPut _ => ctxIsr
  | .picEoi => ctxIsr
  | .kbdIsr => ctxIsr
  | .putglyphCfb _ _ _ _ _ => ctxFg
  | .putglyphCell _ _ _ => ctxFg
  | .setcursor _ _ => ctxFg
  | .termInit => ctxFg
  | .termWrite _ => ctxFg
  | .termPutchar _ => ctxFg
  | .qInit => ctxFg
  | .qRead => ctxFg
  | .qIsempty => ctxFg
  | .idtBuild _ => ctxFg
  | .idtLoad => ctxFg
  | .picInit => ctxFg
  | .picSetmask => ctxFg
  | .intEnable => ctxFg
  | .intDisable => ctxFg
  | .halt => ctxFg
  | .mainStep => ctxFg
  | .crtcSelHi => ctxWord
  | .crtcDataHi _ => ctxWord
  | .crtcSelLo => ctxWord
  | .crtcDataLo _ => ctxWord
  | .picIcw1 _ => ctxWord
  | .picIcw2M _ => ctxWord
  | .picIcw2S _ => ctxWord
  | .picIcw3M _ => ctxWord
  | .picIcw3S _ => ctxWord
  | .picIcw4 _ _ => ctxWord
  | .picMaskM _ => ctxWord
  | .picMaskS _ => ctxWord
  | .picEoiByte _ => ctxWord
  | .scPress _ => ctxWord
  | .scRelease _ => ctxWord
  | .cell _ _ _ => ctxWord
  | .attr _ _ => ctxWord
  | .desc _ _ _ _ => ctxWord
  | .descEmpty => ctxWord

/-! R72: the pseudo-operations, each a fixed expansion. (TERM.CLEARROW is Machine.clearRow; MAIN.LOOP is State.mainLoop.) -/

/-- INT.INSTALL(a). -/
def intInstall (a : Address) : List Instr := [.idtBuild a, .idtLoad, .picInit, .picSetmask]

/-- BOOT(a), in the order of spec/70_reset_and_hazards.md R139. -/
def boot (a : Address) : List Instr := [.qInit, .termInit] ++ intInstall a ++ [.intEnable]

/-- KEYDOWN(k): the scancode byte k. -/
def keydown (k : KeyCode) : Instr := .scPress k

/-- KEYUP(k): the scancode byte k + 0x80. -/
def keyup (k : KeyCode) : Instr := .scRelease k

end Sys2Proof
end

