-- ==== Sys2Proof/WellFormed.lean ====
section
/-! DEFINITION. What a well-formed instruction is beyond its types, and what R67 calls the legal values of a port and of a
position. Widths (R67) are carried by the operand types, no value of any data format is reserved (R68 c), and x, y and texts
have no bound (R67); the one relation left is that a DESC row is a descriptor other than 0, since 0 is the row DESC.EMPTY
(R60, R68 d). -/

namespace Sys2Proof

/-- Well-formedness of an instruction: a live descriptor is not the descriptor 0. -/
def WellFormed (i : Instr) : Bool := i != .desc 0 0 0 0

/-- A port of the address map (R45, R67). The encoding admits every 16-bit port; an access elsewhere is refused by the
operation itself (R75, R76), so this is no part of WellFormed. -/
def legalPort (cfg : Config) (p : Port) : Bool := decide (p ∈ cfg.ports)

/-- What the caller of the Screen driver must guarantee of a position (R67, R141). The operations run on any (D4, D5). -/
def legalPosition (x y : Nat) : Bool := decide (x < 80) && decide (y < 25)

end Sys2Proof
end

