-- ==== Sys2Proof/Decode.lean ====
section
/-! DEFINITION. From bytes to an instruction and back. The operation codes are R66's. The spec gives operands no byte layout
(decision D1), so the layout below is the model's own (notes/assumptions/4.md): a 16- or 32-bit operand is its bytes, low
byte first; a colour pair is one attribute byte (R54); a coordinate is a natural number in base-128 digits, low digit first,
bit 7 of a byte saying that another digit follows; a text is its length, so written, and its characters; five Booleans are
one byte. Device bytes, scancodes and data formats are laid out as R53, R54, R58, R60 and R62 to R65 say. -/

namespace Sys2Proof

/-- Why bytes are no instruction. -/
inductive DecodeError where
  /-- An operation code that is not in the table of R66 (R68 a): raised by decode; the machine refuses it, which is safe. -/
  | unknownOperation (code : Byte)
  /-- The bytes end inside an operand (the model's layout): raised by decode; the machine refuses it, which is safe. -/
  | truncated
  /-- A flag byte with a bit above the five flags set (the model's layout): raised by decode; safe. -/
  | reservedFlagBits
  /-- A coordinate or length written with a leading zero digit (the model's layout): raised by decode; safe. -/
  | overlongNatural
  /-- A byte that no protocol of R62 to R65 has at its port: raised by decodeIn; the machine refuses it, which is safe. -/
  | noProtocolByte
deriving DecidableEq, Repr

/-! ### The operation codes -/

/-- The 24 operations of R66. -/
inductive Opcode where
  | outb | inb | putglyphCfb | putglyphCell | setcursor | termInit | termWrite | termPutchar | termAddline
  | kbdDecode | qInit | qPut | qRead | qIsempty | idtBuild | idtLoad | picInit | picSetmask | picEoi | kbdIsr
  | intEnable | intDisable | halt | mainStep
deriving DecidableEq, Repr

/-- The "code" column of R66. -/
def Opcode.code : Opcode → Byte
  | .outb => 0x00
  | .inb => 0x01
  | .putglyphCfb => 0x10
  | .putglyphCell => 0x11
  | .setcursor => 0x12
  | .termInit => 0x20
  | .termWrite => 0x21
  | .termPutchar => 0x22
  | .termAddline => 0x23
  | .kbdDecode => 0x30
  | .qInit => 0x40
  | .qPut => 0x41
  | .qRead => 0x42
  | .qIsempty => 0x43
  | .idtBuild => 0x50
  | .idtLoad => 0x51
  | .picInit => 0x52
  | .picSetmask => 0x53
  | .picEoi => 0x54
  | .kbdIsr => 0x55
  | .intEnable => 0x60
  | .intDisable => 0x61
  | .halt => 0x62
  | .mainStep => 0x63

/-- The rows of R66, in its order. -/
def Opcode.all : List Opcode :=
  [.outb, .inb, .putglyphCfb, .putglyphCell, .setcursor, .termInit, .termWrite, .termPutchar, .termAddline,
   .kbdDecode, .qInit, .qPut] ++
  [.qRead, .qIsempty, .idtBuild, .idtLoad, .picInit, .picSetmask, .picEoi, .kbdIsr,
   .intEnable, .intDisable, .halt, .mainStep]

/-- The operation a code stands for, if any. -/
def opcodeOf (b : Byte) : Option Opcode := Opcode.all.find? fun o => o.code == b

/-! ### Readers of operand bytes -/

/-- What a reader answers: a value and the bytes after it, or why there is none. -/
abbrev Read (α : Type) := Except DecodeError (α × List Byte)

/-- One byte. -/
def takeByte : List Byte → Read Byte
  | [] => .error .truncated
  | b :: rest => .ok (b, rest)

/-- Sixteen bits, low byte first. -/
def takeWord16 (bs : List Byte) : Read (BitVec 16) :=
  match bs with
  | lo :: hi :: rest => .ok (hi ++ lo, rest)
  | _ => .error .truncated

/-- Thirty-two bits, low byte first. -/
def takeWord32 (bs : List Byte) : Read (BitVec 32) :=
  match bs with
  | b0 :: b1 :: b2 :: b3 :: rest => .ok (b3 ++ b2 ++ b1 ++ b0, rest)
  | _ => .error .truncated

/-- A natural number in base-128 digits, low digit first; bit 7 says that another digit follows. -/
def takeNat : List Byte → Read Nat
  | [] => .error .truncated
  | b :: rest =>
    if b.toNat < 128 then .ok (b.toNat, rest)
    else
      match takeNat rest with
      | .error e => .error e
      | .ok (n, rest') => if n = 0 then .error .overlongNatural else .ok (b.toNat - 128 + 128 * n, rest')

/-- A given number of bytes. -/
def takeBytes : Nat → List Byte → Read (List Byte)
  | 0, bs => .ok ([], bs)
  | _ + 1, [] => .error .truncated
  | n + 1, b :: rest =>
    match takeBytes n rest with
    | .error e => .error e
    | .ok (t, rest') => .ok (b :: t, rest')

/-- A text: its length and its characters. -/
def takeText (bs : List Byte) : Read (List Byte) :=
  match takeNat bs with
  | .error e => .error e
  | .ok (n, rest) => takeBytes n rest

/-- The five Booleans pressed, ls, rs, ctrl, alt in bits 0 to 4 of a byte. -/
structure FiveFlags where
  pressed : Bool
  ls : Bool
  rs : Bool
  ctrl : Bool
  alt : Bool
deriving DecidableEq, Repr

def takeFlags : List Byte → Read FiveFlags
  | [] => .error .truncated
  | b :: rest =>
    if b.toNat < 32 then
      .ok (⟨b.getLsbD 0, b.getLsbD 1, b.getLsbD 2, b.getLsbD 3, b.getLsbD 4⟩, rest)
    else .error .reservedFlagBits

/-- Hand a reader's value and rest to what follows. -/
def Read.next {α β : Type} (r : Read α) (f : α → List Byte → Read β) : Read β :=
  match r with
  | .error e => .error e
  | .ok (a, rest) => f a rest

/-- The operands of an operation (R66, R67), in the order of its contract. -/
def readOperands : Opcode → List Byte → Read Instr
  | .outb, bs => (takeWord16 bs).next fun port bs => (takeByte bs).next fun b bs => .ok (.outb port b, bs)
  | .inb, bs => (takeWord16 bs).next fun port bs => .ok (.inb port, bs)
  | .putglyphCfb, bs =>
    (takeByte bs).next fun ch bs => (takeByte bs).next fun a bs =>
      (takeNat bs).next fun x bs => (takeNat bs).next fun y bs =>
        .ok (.putglyphCfb ch (a.extractLsb' 0 4) (a.extractLsb' 4 4) x y, bs)
  | .putglyphCell, bs =>
    (takeWord16 bs).next fun cell bs => (takeNat bs).next fun x bs => (takeNat bs).next fun y bs =>
      .ok (.putglyphCell cell x y, bs)
  | .setcursor, bs => (takeNat bs).next fun x bs => (takeNat bs).next fun y bs => .ok (.setcursor x y, bs)
  | .termInit, bs => .ok (.termInit, bs)
  | .termWrite, bs => (takeText bs).next fun t bs => .ok (.termWrite t, bs)
  | .termPutchar, bs => (takeByte bs).next fun ch bs => .ok (.termPutchar ch, bs)
  | .termAddline, bs => .ok (.termAddline, bs)
  | .kbdDecode, bs =>
    (takeByte bs).next fun sc bs => (takeFlags bs).next fun f bs =>
      .ok (.kbdDecode sc f.pressed f.ls f.rs f.ctrl f.alt, bs)
  | .qInit, bs => .ok (.qInit, bs)
  | .qPut, bs =>
    (takeByte bs).next fun ch bs => (takeFlags bs).next fun f bs =>
      .ok (.qPut ⟨ch, f.pressed, f.ls, f.rs, f.ctrl, f.alt⟩, bs)
  | .qRead, bs => .ok (.qRead, bs)
  | .qIsempty, bs => .ok (.qIsempty, bs)
  | .idtBuild, bs => (takeWord32 bs).next fun a bs => .ok (.idtBuild a, bs)
  | .idtLoad, bs => .ok (.idtLoad, bs)
  | .picInit, bs => .ok (.picInit, bs)
  | .picSetmask, bs => .ok (.picSetmask, bs)
  | .picEoi, bs => .ok (.picEoi, bs)
  | .kbdIsr, bs => .ok (.kbdIsr, bs)
  | .intEnable, bs => .ok (.intEnable, bs)
  | .intDisable, bs => .ok (.intDisable, bs)
  | .halt, bs => .ok (.halt, bs)
  | .mainStep, bs => .ok (.mainStep, bs)

/-- The decoder of the operation stream (R66, R68 a): total on any bytes. -/
def decode : List Byte → Read Instr
  | [] => .error .truncated
  | code :: rest =>
    match opcodeOf code with
    | none => .error (.unknownOperation code)
    | some op => readOperands op rest

/-! ### Words that stand outside the operation stream -/

/-- A byte at a controller chip's data port in the given place of its sequence (R63, R64). -/
def decodePicData (c : Chip) (slot : PicSlot) (b : Byte) : Instr :=
  match c, slot with
  | .master, .icw2 => .picIcw2M b
  | .slave, .icw2 => .picIcw2S b
  | .master, .icw3 => .picIcw3M b
  | .slave, .icw3 => .picIcw3S b
  | .master, .icw4 => .picIcw4 .master b
  | .slave, .icw4 => .picIcw4 .slave b
  | .master, .mask => .picMaskM b
  | .slave, .mask => .picMaskS b

/-- A scancode byte: bit 7 says released, bits 6:0 are the key's code (R58). Every byte is legal. -/
def decodeScancode (b : Byte) : Instr :=
  if b.getLsbD 7 then .scRelease (b.extractLsb' 0 7) else .scPress (b.extractLsb' 0 7)

/-- A descriptor: 0 is "not live", anything else is read by its four fields (R60). -/
def decodeDescriptor (d : Descriptor) : Instr :=
  if d = 0 then .descEmpty
  else .desc (d.extractLsb' 48 16) (d.extractLsb' 32 16) (d.extractLsb' 16 16) (d.extractLsb' 0 16)

/-- The decoder of every space: R66 in the stream, R62 to R65 at the ports, R58 at the keyboard, R53, R54 and R60 in
memory (multi-byte values low byte first, R40). -/
def decodeIn (cfg : Config) (sp : Space) (bs : List Byte) : Read Instr :=
  match sp with
  | .operation => decode bs
  | .crtcCommand =>
    (takeByte bs).next fun b bs =>
      if b = cfg.cursorSelHi then .ok (.crtcSelHi, bs)
      else if b = cfg.cursorSelLo then .ok (.crtcSelLo, bs)
      else .error .noProtocolByte
  | .crtcData high =>
    (takeByte bs).next fun b bs => .ok (if high then .crtcDataHi b else .crtcDataLo b, bs)
  | .picCommand c =>
    (takeByte bs).next fun b bs =>
      if b = cfg.icw1 then .ok (.picIcw1 c, bs)
      else if b = cfg.eoiByte then .ok (.picEoiByte c, bs)
      else .error .noProtocolByte
  | .picData c slot => (takeByte bs).next fun b bs => .ok (decodePicData c slot b, bs)
  | .scancode => (takeByte bs).next fun b bs => .ok (decodeScancode b, bs)
  | .cell =>
    (takeWord16 bs).next fun w bs =>
      .ok (.cell (w.extractLsb' 12 4) (w.extractLsb' 8 4) (w.extractLsb' 0 8), bs)
  | .attr => (takeByte bs).next fun b bs => .ok (.attr (b.extractLsb' 4 4) (b.extractLsb' 0 4), bs)
  | .descriptor =>
    (takeWord32 bs).next fun lo bs => (takeWord32 bs).next fun hi bs =>
      .ok (decodeDescriptor (hi ++ lo), bs)

/-! ### The encoder -/

/-- The low and the high byte of 16 bits. -/
def putWord16 (w : BitVec 16) : List Byte := [w.extractLsb' 0 8, w.extractLsb' 8 8]

/-- The bytes of 32 bits, low byte first. -/
def putWord32 (w : BitVec 32) : List Byte :=
  [w.extractLsb' 0 8, w.extractLsb' 8 8, w.extractLsb' 16 8, w.extractLsb' 24 8]

/-- Base-128 digits, low digit first, with at most the given number of digits. -/
def putNatDigits : Nat → Nat → List Byte
  | 0, _ => []
  | fuel + 1, n =>
    if n < 128 then [BitVec.ofNat 8 n]
    else BitVec.ofNat 8 (128 + n % 128) :: putNatDigits fuel (n / 128)

/-- A natural number as takeNat reads it. -/
def putNat (n : Nat) : List Byte := putNatDigits (n + 1) n

/-- A text as takeText reads it. -/
def putText (t : List Byte) : List Byte := putNat t.length ++ t

/-- Five Booleans as takeFlags reads them. -/
def putFlags (f : FiveFlags) : List Byte :=
  [BitVec.ofNat 8 (f.pressed.toNat + 2 * f.ls.toNat + 4 * f.rs.toNat + 8 * f.ctrl.toNat + 16 * f.alt.toNat)]

/-- The bytes of an instruction in its space, from the same tables: R66's codes, R53 to R65's formats. -/
def encode (cfg : Config) : Instr → List Byte
  | .outb port b => Opcode.outb.code :: (putWord16 port ++ [b])
  | .inb port => Opcode.inb.code :: putWord16 port
  | .putglyphCfb ch fg bg x y => Opcode.putglyphCfb.code :: ch :: (bg ++ fg) :: (putNat x ++ putNat y)
  | .putglyphCell c x y => Opcode.putglyphCell.code :: (putWord16 c ++ (putNat x ++ putNat y))
  | .setcursor x y => Opcode.setcursor.code :: (putNat x ++ putNat y)
  | .termInit => [Opcode.termInit.code]
  | .termWrite t => Opcode.termWrite.code :: putText t
  | .termPutchar ch => [Opcode.termPutchar.code, ch]
  | .termAddline => [Opcode.termAddline.code]
  | .kbdDecode sc p ls rs c a => Opcode.kbdDecode.code :: sc :: putFlags ⟨p, ls, rs, c, a⟩
  | .qInit => [Opcode.qInit.code]
  | .qPut e => Opcode.qPut.code :: e.ch :: putFlags ⟨e.pressed, e.lshift, e.rshift, e.ctrl, e.alt⟩
  | .qRead => [Opcode.qRead.code]
  | .qIsempty => [Opcode.qIsempty.code]
  | .idtBuild a => Opcode.idtBuild.code :: putWord32 a
  | .idtLoad => [Opcode.idtLoad.code]
  | .picInit => [Opcode.picInit.code]
  | .picSetmask => [Opcode.picSetmask.code]
  | .picEoi => [Opcode.picEoi.code]
  | .kbdIsr => [Opcode.kbdIsr.code]
  | .intEnable => [Opcode.intEnable.code]
  | .intDisable => [Opcode.intDisable.code]
  | .halt => [Opcode.halt.code]
  | .mainStep => [Opcode.mainStep.code]
  | .crtcSelHi => [cfg.cursorSelHi]
  | .crtcDataHi v => [v]
  | .crtcSelLo => [cfg.cursorSelLo]
  | .crtcDataLo v => [v]
  | .picIcw1 _ => [cfg.icw1]
  | .picIcw2M v => [v]
  | .picIcw2S v => [v]
  | .picIcw3M v => [v]
  | .picIcw3S v => [v]
  | .picIcw4 _ v => [v]
  | .picMaskM v => [v]
  | .picMaskS v => [v]
  | .picEoiByte _ => [cfg.eoiByte]
  | .scPress k => [(0 : BitVec 1) ++ k]
  | .scRelease k => [(1 : BitVec 1) ++ k]
  | .cell bg fg ch => putWord16 (bg ++ fg ++ ch)
  | .attr bg fg => [bg ++ fg]
  | .desc h a s l => putWord32 (s ++ l) ++ putWord32 (h ++ a)
  | .descEmpty => putWord32 0 ++ putWord32 0

/-! ### Words of the opcode table, numbered as spec/opcode_table.json numbers them -/

/-- The bytes of a table word, bits 7:0 first. -/
def tableBytes : Nat → Nat → List Byte
  | 0, _ => []
  | n + 1, w => BitVec.ofNat 8 w :: tableBytes n (w / 256)

/-- More zero bytes than any operation's operands take when every operand byte is zero. -/
def zeroOperands : List Byte := List.replicate 8 0

/-- The space a table word stands in: 16 bits are a glyph cell, 64 a descriptor; 8 bits are an operation code where R66 has
that code and a scancode byte otherwise (the table overlays both on one byte; notes/assumptions/6.md). -/
def tableSpace (nbits w : Nat) : Space :=
  if nbits = 16 then .cell
  else if nbits = 64 then .descriptor
  else if (opcodeOf (BitVec.ofNat 8 w)).isSome then .operation
  else .scancode

/-- The bytes of the instruction a table word begins, operand bytes zero: exactly those the decoder takes. -/
def tableInstrBytes (nbits w : Nat) : List Byte :=
  let bs := tableBytes (nbits / 8) w ++ zeroOperands
  match decodeIn Config.default (tableSpace nbits w) bs with
  | .error _ => bs
  | .ok (_, rest) => bs.take (bs.length - rest.length)

/-- The instruction the decoder reads from a table word (operand bytes above it zero). -/
def decodeTableWord (nbits w : Nat) : Option Instr :=
  match decodeIn Config.default (tableSpace nbits w) (tableBytes (nbits / 8) w ++ zeroOperands) with
  | .error _ => none
  | .ok (i, _) => some i

end Sys2Proof
end

