-- ==== Sys2Proof/Machine/State.lean ====
section
/-! DEFINITION. The state of the console block (spec/10_state.md R13 to R36), the faults and refusals of
spec/60_exceptions.md R111 and R112, and the state after reset (R36). State is plain data. "No value" (R36: a model must not
pick one) is the spec's own state of an element and is written none. -/

namespace Sys2Proof.Machine

/-- The two contexts of CTX (R26). -/
inductive Ctx where
  | fg
  | isr
deriving DecidableEq, Repr

/-- The cursor registers of the display controller (R16); none: never written. -/
structure Crtc where
  /-- CRTC_INDEX, the last byte written to CRTC_CMD. -/
  index : Option Byte
  /-- CURSOR_HI, bits 15:8 of the cursor's cell offset. -/
  cursorHi : Option Byte
  /-- CURSOR_LO, bits 7:0 of the cursor's cell offset. -/
  cursorLo : Option Byte
deriving DecidableEq, Repr

/-- The Terminal, which does not exist before its construction (R17, R18). -/
structure Terminal where
  /-- ROW, 0..24. -/
  row : Fin 25
  /-- COL: 0..79 between operations, 80 only transiently inside TERM.PUTCHAR (R17; that it is so: Safety.lean, CursorInGrid). -/
  col : Nat
  /-- FGC. -/
  fgc : Colour
  /-- BGC. -/
  bgc : Colour
  /-- SHADOW: element r*80 + c is SHADOW[r][c]. -/
  shadow : Vector GlyphCell 2000
deriving DecidableEq, Repr

/-- The modifier state (R19). -/
structure Mods where
  lshift : Bool
  rshift : Bool
  ctrl : Bool
  alt : Bool
deriving DecidableEq, Repr

/-- The processor's table register once loaded (R23). -/
structure TableRegister where
  /-- IDTR.BASE. -/
  base : Address
  /-- IDTR.LIMIT. -/
  limit : BitVec 16
deriving DecidableEq, Repr

/-- One interrupt-controller chip (R24). -/
structure Pic where
  /-- CONFIGURED: the four-byte initialisation sequence has completed. -/
  configured : Bool
  /-- STEP: how many initialisation bytes after ICW1 the chip still expects. -/
  step : Fin 4
  /-- BASE: the vector of line 0; none: never written. -/
  base : Option Byte
  /-- ICW3 as stored. -/
  icw3 : Option Byte
  /-- ICW4 as stored. -/
  icw4 : Option Byte
  /-- IMR: bit l = 1 masks line l; none: no value (after reset and after ICW1, R75). -/
  imr : Option Byte
  /-- IRR: bit l = 1, line l is pending. -/
  irr : BitVec 8
  /-- INSVC: bit l = 1, line l is in service. -/
  insvc : BitVec 8
deriving DecidableEq, Repr

/-- The keyboard latch: KBD.DATA and KBD.FULL of R25 together. -/
inductive KbdLatch where
  /-- KBD.DATA has no value, KBD.FULL is false: nothing ever arrived. -/
  | never
  /-- KBD.FULL is false; KBD.DATA still holds the byte last read. -/
  | read (b : Byte)
  /-- KBD.FULL is true. -/
  | full (b : Byte)
deriving DecidableEq, Repr

/-- The direction of a port access. -/
inductive IoDir where
  | w
  | r
deriving DecidableEq, Repr

/-- One entry of IOTRACE (R28). -/
structure IoEntry where
  dir : IoDir
  port : Port
  byte : Byte
deriving DecidableEq, Repr

/-- What the operation last completed returned (R13: results are return values; the field is the model's own). -/
inductive Result where
  | none
  | byte (b : Byte)
  | cell (c : GlyphCell)
  | event (e : KeyEvent)
  | bool (b : Bool)
  | descriptor (d : Descriptor)
deriving DecidableEq, Repr

/-- An action of the environment (R114, R115). -/
inductive EnvAct where
  /-- KEY: the keyboard presents the next byte of State.keys. -/
  | key
  /-- TICK: the timer asserts its line. -/
  | tick
deriving DecidableEq, Repr

/-- What the schedule says happens next (R47, R48, R121). -/
inductive Act where
  /-- The foreground takes its next atomic step. -/
  | go
  /-- The environment acts. -/
  | env (e : EnvAct)
  /-- An interrupt is delivered, if one can be; the environment's actions that fall inside the handler, after its port
  read, come with it. -/
  | deliver (within : List EnvAct)
deriving DecidableEq, Repr

/-- A word that stands outside the operation stream, with where it stands: an internal operation to be performed by
`call`, a byte at a device port, a scancode, a value in memory. -/
structure WorkItem where
  space : Space
  bytes : List Byte
deriving DecidableEq, Repr

/-- The faults of R111, with the value each records. -/
inductive FaultCode where
  | outOfWindow (off : Nat)
  | unwrittenSlot (i : Nat)
  | kbdLatchEmpty
  | vectorNotPresent (v : Nat)
  | vectorOutOfTable (v : Nat)
deriving DecidableEq, Repr

/-- The refusals of R112, and two of the model's own for bytes that are no instruction. -/
inductive Reason where
  | unknownOperation (code : Byte)
  | wrongContext
  | portProtocol
  | terminalNotConstructed
  | queueReinit
  | setupWithInterruptsOn
  | enableBeforeSetup
  | foreignDescriptor
  | malformedWord (e : DecodeError)
deriving DecidableEq, Repr

/-- The state of the machine: every element of R13 to R36, the inputs of R5 as plain data (cfg, stream, mainLoop, work,
sched, keys), and the model's own result. -/
structure State where
  /-- The parameters of R7, an input no step writes. -/
  cfg : Config
  /-- Physical memory (R37): the video window (VRAM, R15) and the table image (IDT, R22), as the bytes that differ from what
  an unlisted address reads as. -/
  mem : List Host.Cell
  /-- CRTC_INDEX, CURSOR_HI, CURSOR_LO (R16). -/
  crtc : Crtc
  /-- ROW, COL, FGC, BGC, SHADOW; none before TERM.INIT (R17, R18). -/
  term : Option Terminal
  /-- MOD (R19). -/
  mods : Mods
  /-- RING (R20); none: the slot holds no value. -/
  ring : Vector (Option KeyEvent) 1024
  /-- RD (R21). -/
  rd : Fin 1024
  /-- WR (R21). -/
  wr : Fin 1024
  /-- Whether Q.INIT has run (R88: a second call is refused). -/
  queueBuilt : Bool
  /-- IDTR (R23); none: IDTR.LOADED is false. -/
  idtr : Option TableRegister
  /-- PIC[M] (R24). -/
  picM : Pic
  /-- PIC[S] (R24). -/
  picS : Pic
  /-- KBD (R25). -/
  kbd : KbdLatch
  /-- IF (R26). -/
  intFlag : Bool
  /-- HALTED (R26). -/
  halted : Bool
  /-- CTX (R26). -/
  ctx : Ctx
  /-- FAULT (R27). -/
  fault : Option FaultCode
  /-- REFUSED (R27), with the reason of R112. -/
  refusal : Option Reason
  /-- IOTRACE (R28), oldest first. -/
  iotrace : List IoEntry
  /-- FGPOS (R14): how many operations of the stream have completed. -/
  fgpos : Nat
  /-- The operation stream from FGPOS on, as bytes (R14, R66): an input. -/
  stream : List Byte
  /-- Whether MAIN.STEP is repeated for ever after the stream (MAIN.LOOP, R14, R109): an input. -/
  mainLoop : Bool
  /-- Words to be performed before the stream goes on: an input, empty at reset. -/
  work : List WorkItem
  /-- Which agent acts at the coming step boundaries (R48, R121): an input, empty at reset. -/
  sched : List Act
  /-- The scancode bytes the environment will present, oldest first (R114): an input. -/
  keys : List Byte
  /-- What the operation last completed returned: the model's own. -/
  result : Result
deriving DecidableEq, Repr

/-- A fault: the agent that raised it stops. Each carries the state it left, with FAULT set (R27, R111). All are safe: the
hardware goes on where the model stops. -/
inductive Fault where
  /-- R111 code 1, raised by PUTGLYPH.CELL when y*80 + x is 2000 or more (R78). Safe. -/
  | outOfWindow (off : Nat) (left : State)
  /-- R111 code 2, raised by Q.READ when the slot holds no value (R90). Safe. -/
  | unwrittenSlot (i : Nat) (left : State)
  /-- R111 code 3, raised by INB when no byte is latched (R76). Safe. -/
  | kbdLatchEmpty (left : State)
  /-- R111 code 4, raised by delivery through a descriptor 0 (R123). Safe. -/
  | vectorNotPresent (v : Nat) (left : State)
  /-- R111 code 5, raised by delivery beyond the table (R123). Safe. -/
  | vectorOutOfTable (v : Nat) (left : State)
  /-- R107, raised by the step of a foreground that is halted with interrupts masked: stuck for good, never final. FAULT
  stays none, since R111 does not list it. Safe. -/
  | stuckHalt (left : State)
deriving DecidableEq, Repr

/-- A refusal: the spec gives the request no meaning. Each carries the state it left, with REFUSED set (R27, R112). All are
safe. -/
inductive Refusal where
  /-- An instruction whose meaning the model does not have; raised by exec's refused arms. Safe. -/
  | notModelled (mnemonic : String)
  /-- R112, raised by the stream's decoding: a code outside R66. Safe. -/
  | unknownOperation (code : Byte) (left : State)
  /-- R112, raised by the stream's decoding: an operation its agent may not perform. Safe. -/
  | wrongContext (left : State)
  /-- R112, raised by OUTB, INB and the device bytes outside the documented sequences (R75, R76). Safe. -/
  | portProtocol (left : State)
  /-- R112, raised by the Terminal's operations before TERM.INIT (R80). Safe. -/
  | terminalNotConstructed (left : State)
  /-- R112, raised by a second Q.INIT (R88). Safe. -/
  | queueReinit (left : State)
  /-- R112, raised by IDT.BUILD, IDT.LOAD and PIC.INIT with IF true (R94 to R96). Safe. -/
  | setupWithInterruptsOn (left : State)
  /-- R112, raised by INT.ENABLE before set-up (R104). Safe. -/
  | enableBeforeSetup (left : State)
  /-- R112, raised by delivery through a descriptor that is not the handler's (R123). Safe. -/
  | foreignDescriptor (left : State)
  /-- Bytes that are no instruction for a reason other than their code (the model's own). Safe. -/
  | malformedWord (e : DecodeError) (left : State)
deriving DecidableEq, Repr

/-- The state a fault left. -/
def Fault.left : Fault → State
  | .outOfWindow _ s => s
  | .unwrittenSlot _ s => s
  | .kbdLatchEmpty s => s
  | .vectorNotPresent _ s => s
  | .vectorOutOfTable _ s => s
  | .stuckHalt s => s

/-- The fault of a fault code. -/
def FaultCode.fault : FaultCode → State → Fault
  | .outOfWindow off, s => .outOfWindow off s
  | .unwrittenSlot i, s => .unwrittenSlot i s
  | .kbdLatchEmpty, s => .kbdLatchEmpty s
  | .vectorNotPresent v, s => .vectorNotPresent v s
  | .vectorOutOfTable v, s => .vectorOutOfTable v s

/-- The refusal of a reason. -/
def Reason.refusal : Reason → State → Refusal
  | .unknownOperation code, s => .unknownOperation code s
  | .wrongContext, s => .wrongContext s
  | .portProtocol, s => .portProtocol s
  | .terminalNotConstructed, s => .terminalNotConstructed s
  | .queueReinit, s => .queueReinit s
  | .setupWithInterruptsOn, s => .setupWithInterruptsOn s
  | .enableBeforeSetup, s => .enableBeforeSetup s
  | .foreignDescriptor, s => .foreignDescriptor s
  | .malformedWord e, s => .malformedWord e s

/-- A chip after reset (R24, R36). -/
def Pic.reset : Pic where
  configured := false
  step := 0
  base := none
  icw3 := none
  icw4 := none
  imr := none
  irr := 0
  insvc := 0

/-- The state after reset (R36). The parameters stand at R7's defaults (notes/assumptions/2.md). -/
def State.reset : State where
  cfg := Config.default
  mem := []
  crtc := ⟨none, none, none⟩
  term := none
  mods := ⟨false, false, false, false⟩
  ring := Vector.replicate 1024 none
  rd := 0
  wr := 0
  queueBuilt := false
  idtr := none
  picM := Pic.reset
  picS := Pic.reset
  kbd := .never
  intFlag := false
  halted := false
  ctx := .fg
  fault := none
  refusal := none
  iotrace := []
  fgpos := 0
  stream := []
  mainLoop := false
  work := []
  sched := []
  keys := []
  result := .none

/-! ### Updates of one field each (their lemmas: Laws/State.lean) -/

namespace State

def setMem (s : State) (v : List Host.Cell) : State := { s with mem := v }
def setCrtc (s : State) (v : Crtc) : State := { s with crtc := v }
def setTerm (s : State) (v : Option Terminal) : State := { s with term := v }
def setMods (s : State) (v : Mods) : State := { s with mods := v }
def setRing (s : State) (v : Vector (Option KeyEvent) 1024) : State := { s with ring := v }
def setRd (s : State) (v : Fin 1024) : State := { s with rd := v }
def setWr (s : State) (v : Fin 1024) : State := { s with wr := v }
def setQueueBuilt (s : State) (v : Bool) : State := { s with queueBuilt := v }
def setIdtr (s : State) (v : Option TableRegister) : State := { s with idtr := v }
def setPicM (s : State) (v : Pic) : State := { s with picM := v }
def setPicS (s : State) (v : Pic) : State := { s with picS := v }
def setKbd (s : State) (v : KbdLatch) : State := { s with kbd := v }
def setIntFlag (s : State) (v : Bool) : State := { s with intFlag := v }
def setHalted (s : State) (v : Bool) : State := { s with halted := v }
def setCtx (s : State) (v : Ctx) : State := { s with ctx := v }
def setFault (s : State) (v : Option FaultCode) : State := { s with fault := v }
def setRefusal (s : State) (v : Option Reason) : State := { s with refusal := v }
def setIotrace (s : State) (v : List IoEntry) : State := { s with iotrace := v }
def setFgpos (s : State) (v : Nat) : State := { s with fgpos := v }
def setStream (s : State) (v : List Byte) : State := { s with stream := v }
def setMainLoop (s : State) (v : Bool) : State := { s with mainLoop := v }
def setWork (s : State) (v : List WorkItem) : State := { s with work := v }
def setSched (s : State) (v : List Act) : State := { s with sched := v }
def setKeys (s : State) (v : List Byte) : State := { s with keys := v }
def setResult (s : State) (v : Result) : State := { s with result := v }

end State

end Sys2Proof.Machine
end

