-- ==== Sys2Proof/Machine/Operands.lean ====
section
/-! DEFINITION. The operand forms of spec/30_encoding.md R53 to R61 and R67: packing and slicing of cells, offsets,
descriptors and scancode bytes. -/

namespace Sys2Proof.Machine

/-- mkcell(ch, fg, bg) = bg ++ fg ++ ch (R56). -/
def mkcell (ch : Byte) (fg bg : Colour) : GlyphCell := bg ++ fg ++ ch

/-- BLANK, the cell of (SPACE, FG_DEFAULT, BG_DEFAULT) (R8). -/
def blank (cfg : Config) : GlyphCell := mkcell cfg.space fgDefault bgDefault

/-- The attribute byte bg ++ fg (R54). -/
def mkattr (fg bg : Colour) : Byte := bg ++ fg

/-- off = y*80 + x over the naturals, no wrap (R57, R73). -/
def cellOffset (x y : Nat) : Nat := y * 80 + x

/-- The 16 bits of an offset that the cursor protocol sends (R79, D5). -/
def cursorOffset (x y : Nat) : BitVec 16 := BitVec.ofNat 16 (cellOffset x y)

/-- off[15:8] (R57). -/
def highByte (w : BitVec 16) : Byte := w.extractLsb' 8 8

/-- off[7:0] (R57). -/
def lowByte (w : BitVec 16) : Byte := w.extractLsb' 0 8

/-- The descriptor of four 16-bit fields (R60). -/
def descriptorOf (offHi attrWord selector offLo : BitVec 16) : Descriptor :=
  offHi ++ attrWord ++ selector ++ offLo

/-- mkdesc(a) = a[31:16] ++ GATE_ATTR ++ CODE_SEL ++ a[15:0] (R60). -/
def mkdesc (cfg : Config) (a : Address) : Descriptor :=
  descriptorOf (a.extractLsb' 16 16) cfg.gateAttr cfg.codeSel (a.extractLsb' 0 16)

/-- Bits 6:0 of a scancode byte (R58). -/
def keyCode (b : Byte) : KeyCode := b.extractLsb' 0 7

/-- Bit 7 of a scancode byte clear: the key is pressed (R58, R99). -/
def isPressed (b : Byte) : Bool := !b.getLsbD 7

/-- The byte of a key code with the release bit given (R58). -/
def scancodeByte (released : Bool) (k : KeyCode) : Byte := BitVec.ofBool released ++ k

/-- SCTAB[k], a total function on 0..127 (R7, R29). -/
def scanTable (cfg : Config) (k : KeyCode) : Byte := cfg.scTab[k.toNat]'k.isLt

end Sys2Proof.Machine
end

