-- ==== Sys2Proof/Machine/Flags.lean ====
section
/-! DEFINITION. Every flag computation of the spec: the modifier flags (R74, R100), the bits of a controller chip's
registers (R24, R75), which line can be delivered (R117, R118, R120, R121), and when interrupts may be enabled (R104). -/

namespace Sys2Proof.Machine

/-! ### Modifier flags -/

/-- The class of a key code (R74). -/
inductive ModClass where
  | lshift
  | rshift
  | ctrl
  | alt
  | none
deriving DecidableEq, Repr

/-- modclass(k) (R74). -/
def modclass (cfg : Config) (k : KeyCode) : ModClass :=
  if k = cfg.scLshift then .lshift
  else if k = cfg.scRshift then .rshift
  else if k = cfg.scCtrl then .ctrl
  else if k = cfg.scAlt then .alt
  else .none

/-- modupdate(MOD, b) (R100). -/
def modupdate (cfg : Config) (m : Mods) (b : Byte) : Mods :=
  match modclass cfg (keyCode b) with
  | .lshift => { m with lshift := isPressed b }
  | .rshift => { m with rshift := isPressed b }
  | .ctrl => { m with ctrl := isPressed b }
  | .alt => { m with alt := isPressed b }
  | .none => m

/-! ### Bits of a chip's registers -/

/-- The register with bit l set. -/
def setBit (x : BitVec 8) (l : Line) : BitVec 8 := x ||| (1#8 <<< l.val)

/-- The register with bit l cleared. -/
def clearBit (x : BitVec 8) (l : Line) : BitVec 8 := x &&& ~~~(1#8 <<< l.val)

/-- The eight lines, lowest first. -/
def lines : List Line := [0, 1, 2, 3, 4, 5, 6, 7]

/-- The lowest-numbered set bit (R75: the one an EOI clears). -/
def lowestBit (x : BitVec 8) : Option Line := lines.find? fun l => x.getLsbD l.val

/-- What an EOI leaves of INSVC: the lowest set bit cleared, nothing changed when none is set (R75). -/
def acknowledge (insvc : BitVec 8) : BitVec 8 :=
  match lowestBit insvc with
  | some l => clearBit insvc l
  | none => insvc

/-! ### Delivery -/

/-- No line j ≤ l of the chip is in service (R118, R121). -/
def unblocked (p : Pic) (l : Line) : Bool := lines.all fun j => decide (l < j) || !p.insvc.getLsbD j.val

/-- IMR[l] = 0; false while IMR holds no value (R117). -/
def unmasked (p : Pic) (l : Line) : Bool :=
  match p.imr with
  | some m => !m.getLsbD l.val
  | none => false

/-- Line l is pending, unmasked and not blocked (R116 to R118). -/
def requests (p : Pic) (l : Line) : Bool := p.irr.getLsbD l.val && unmasked p l && unblocked p l

/-- The line that can be delivered now, the lowest-numbered that requests, if any (R120, R121). -/
def deliverable (s : State) : Option Line :=
  if s.intFlag && decide (s.ctx = .fg) && s.fault.isNone then lines.find? (requests s.picM) else none

/-! ### Enabling -/

/-- R104's condition: the table is loaded and both controllers are configured and masked. -/
def setupDone (s : State) : Bool :=
  s.idtr.isSome && s.picM.configured && s.picS.configured && s.picM.imr.isSome && s.picS.imr.isSome

end Sys2Proof.Machine
end

