-- ==== Sys2Proof/Machine/Ops.lean ====
section
/-! DEFINITION. The operations every meaning is written over: outcomes, physical memory, the devices' reactions to port
bytes, the ring, the environment's actions, the handler, taking an interrupt and returning from it, and the step boundary at
which interrupts fall. -/

namespace Sys2Proof.Machine

/-! ### Outcomes -/

/-- What a piece of an operation answers. -/
abbrev Out (α : Type) := Host.Outcome α Fault Refusal

/-- Go on with what a piece answered; a fault or a refusal stops the agent (R111, R112). -/
def andThen {α β : Type} (o : Out α) (f : α → Out β) : Out β :=
  match o with
  | .next a => f a
  | .fault r => .fault r
  | .refused r => .refused r

/-- The code of a fault (R111). -/
def faultNumber : FaultCode → Nat
  | .outOfWindow _ => 1
  | .unwrittenSlot _ => 2
  | .kbdLatchEmpty => 3
  | .vectorNotPresent _ => 4
  | .vectorOutOfTable _ => 5

/-- raise Fault: FAULT is set and the agent stops (R11, R111). -/
def raise {α : Type} (c : FaultCode) (s : State) : Out α := .fault (c.fault (s.setFault (some c)))

/-- refuse Reason: REFUSED is set (R11, R112). -/
def refuse {α : Type} (r : Reason) (s : State) : Out α := .refused (r.refusal (s.setRefusal (some r)))

/-- The operation completes and returns r. -/
def finish (r : Result) (o : Out State) : Out State := andThen o fun s => .next (s.setResult r)

/-! ### Physical memory -/

namespace Memory

/-- What an address that is not listed reads as: 0 in the table's window ("zero-initialized", R22), no value anywhere else
(R15, R36). -/
def unlisted (cfg : Config) (a : Nat) : Option Byte :=
  if cfg.idtBase.toNat ≤ a ∧ a < cfg.idtBase.toNat + 8 * cfg.idtEntries then some 0 else none

/-- The byte listed at an address, if one is. -/
def find (a : Nat) : List Host.Cell → Option Byte
  | [] => none
  | (k, v) :: rest => if k = a then some v else find a rest

/-- MemRead(a, 1): the listed byte, or what an unlisted address reads as. -/
def read (cfg : Config) (m : List Host.Cell) (a : Nat) : Option Byte :=
  match find a m with
  | some v => some v
  | none => unlisted cfg a

/-- List a byte at an address, addresses rising. -/
def insert (a : Nat) (b : Byte) : List Host.Cell → List Host.Cell
  | [] => [(a, b)]
  | (k, v) :: rest =>
    if a < k then (a, b) :: (k, v) :: rest
    else if a = k then (a, b) :: rest
    else (k, v) :: insert a b rest

/-- List nothing at an address. -/
def erase (a : Nat) : List Host.Cell → List Host.Cell
  | [] => []
  | (k, v) :: rest => if k = a then rest else (k, v) :: erase a rest

/-- MemWrite(a, 1, b), keeping the canonical form. -/
def write (cfg : Config) (a : Nat) (b : Byte) (m : List Host.Cell) : List Host.Cell :=
  if unlisted cfg a = some b then erase a m else insert a b m

/-- MemWrite of several bytes, the first at the lowest address (R40: little-endian values give their low byte first). -/
def writeBytes (cfg : Config) : Nat → List Byte → List Host.Cell → List Host.Cell
  | _, [], m => m
  | a, b :: bs, m => writeBytes cfg (a + 1) bs (write cfg a b m)

/-- Every listed address is above the given one, rising, and no entry equals what its address reads as unlisted. -/
def wfAbove (cfg : Config) : Option Nat → List Host.Cell → Bool
  | _, [] => true
  | lo, (k, v) :: rest =>
    (match lo with
      | some l => decide (l < k)
      | none => true) &&
    decide (unlisted cfg k ≠ some v) && wfAbove cfg (some k) rest

/-- The canonical form. -/
def wf (cfg : Config) (m : List Host.Cell) : Bool := wfAbove cfg none m

end Memory

/-- Address of the low byte of cell off (R39). -/
def cellAddress (cfg : Config) (off : Nat) : Nat := cfg.videoBase.toNat + 2 * off

/-- VRAM[off] <- cell = MemWrite(VIDEO_BASE + 2*off, 2, cell) (R11, R39, R40). -/
def storeCell (off : Nat) (cell : GlyphCell) (s : State) : State :=
  s.setMem (Memory.writeBytes s.cfg (cellAddress s.cfg off) (putWord16 cell) s.mem)

/-- VRAM[off]; none where nothing has been written (R15, R36). -/
def vram (s : State) (off : Nat) : Option GlyphCell :=
  match Memory.read s.cfg s.mem (cellAddress s.cfg off), Memory.read s.cfg s.mem (cellAddress s.cfg off + 1) with
  | some lo, some hi => some (hi ++ lo)
  | _, _ => none

/-- Address of descriptor v of the table (R45). -/
def descAddress (cfg : Config) (v : Nat) : Nat := cfg.idtBase.toNat + 8 * v

/-- The bytes of a descriptor: two 32-bit words, the low word first, each low byte first (R42, D36). -/
def descBytes (d : Descriptor) : List Byte := putWord32 (d.extractLsb' 0 32) ++ putWord32 (d.extractLsb' 32 32)

/-- IDT[v], read as the eight bytes at IDT_BASE + 8*v (R45, R160); none outside memory that holds a value. -/
def idtEntry (s : State) (v : Nat) : Option Descriptor :=
  let r := fun i => Memory.read s.cfg s.mem (descAddress s.cfg v + i)
  match r 0, r 1, r 2, r 3, r 4, r 5, r 6, r 7 with
  | some b0, some b1, some b2, some b3, some b4, some b5, some b6, some b7 =>
    some (b7 ++ b6 ++ b5 ++ b4 ++ b3 ++ b2 ++ b1 ++ b0)
  | _, _, _, _, _, _, _, _ => none

/-! ### Ports and devices -/

/-- IOTRACE <- IOTRACE ++ [e] (R28). -/
def logIo (e : IoEntry) (s : State) : State := s.setIotrace (s.iotrace ++ [e])

/-- PIC[c]. -/
def pic (s : State) : Chip → Pic
  | .master => s.picM
  | .slave => s.picS

/-- PIC[c] <- p. -/
def setPic (c : Chip) (p : Pic) (s : State) : State :=
  match c with
  | .master => s.setPicM p
  | .slave => s.setPicS p

/-- A select byte at CRTC_CMD: CRTC_INDEX <- b (R75). -/
def crtcSelect (b : Byte) (s : State) : State := s.setCrtc { s.crtc with index := some b }

/-- A byte for CURSOR_HI (R75). -/
def crtcHigh (b : Byte) (s : State) : State := s.setCrtc { s.crtc with cursorHi := some b }

/-- A byte for CURSOR_LO (R75). -/
def crtcLow (b : Byte) (s : State) : State := s.setCrtc { s.crtc with cursorLo := some b }

/-- CRTC_CMD's reaction to a byte (R75). -/
def crtcCommandByte (b : Byte) (s : State) : Out State :=
  if b = s.cfg.cursorSelHi ∨ b = s.cfg.cursorSelLo then .next (crtcSelect b s) else refuse .portProtocol s

/-- CRTC_DATA's reaction to a byte (R75); "holds" is false while CRTC_INDEX was never written. -/
def crtcDataByte (b : Byte) (s : State) : Out State :=
  if s.crtc.index = some s.cfg.cursorSelHi then .next (crtcHigh b s)
  else if s.crtc.index = some s.cfg.cursorSelLo then .next (crtcLow b s)
  else refuse .portProtocol s

/-- A chip's reaction to ICW1 (R75): refused with interrupts on. -/
def picStart (c : Chip) (s : State) : Out State :=
  if s.intFlag then refuse .portProtocol s
  else .next (setPic c { pic s c with step := 3, configured := false, insvc := 0, imr := none } s)

/-- A chip's reaction to EOI_BYTE (R75). -/
def picAcknowledge (c : Chip) (s : State) : Out State :=
  if (pic s c).configured then .next (setPic c { pic s c with insvc := acknowledge (pic s c).insvc } s)
  else refuse .portProtocol s

/-- A chip takes ICW2 (R75, STEP 3). -/
def picBase (c : Chip) (b : Byte) (s : State) : State := setPic c { pic s c with base := some b, step := 2 } s

/-- A chip takes ICW3 (R75, STEP 2). -/
def picWiring (c : Chip) (b : Byte) (s : State) : State := setPic c { pic s c with icw3 := some b, step := 1 } s

/-- A chip takes ICW4 and is configured (R75, STEP 1). -/
def picMode (c : Chip) (b : Byte) (s : State) : State :=
  setPic c { pic s c with icw4 := some b, step := 0, configured := true } s

/-- A configured chip takes a mask byte (R75, STEP 0). -/
def picMask (c : Chip) (b : Byte) (s : State) : Out State :=
  if (pic s c).configured then .next (setPic c { pic s c with imr := some b } s) else refuse .portProtocol s

/-- PIC_c_CMD's reaction to a byte (R75). -/
def picCommandByte (c : Chip) (b : Byte) (s : State) : Out State :=
  if b = s.cfg.icw1 then picStart c s
  else if b = s.cfg.eoiByte then picAcknowledge c s
  else refuse .portProtocol s

/-- PIC_c_DATA's reaction to a byte (R75). -/
def picDataByte (c : Chip) (b : Byte) (s : State) : Out State :=
  if (pic s c).step = 3 then .next (picBase c b s)
  else if (pic s c).step = 2 then .next (picWiring c b s)
  else if (pic s c).step = 1 then .next (picMode c b s)
  else picMask c b s

/-- The device behind a port takes a byte (R75). -/
def deviceByte (port : Port) (b : Byte) (s : State) : Out State :=
  if port = s.cfg.crtcCmd then crtcCommandByte b s
  else if port = s.cfg.crtcData then crtcDataByte b s
  else if port = s.cfg.picMCmd then picCommandByte .master b s
  else if port = s.cfg.picSCmd then picCommandByte .slave b s
  else if port = s.cfg.picMData then picDataByte .master b s
  else if port = s.cfg.picSData then picDataByte .slave b s
  else refuse .portProtocol s

/-- PortWrite(port, b): IOTRACE first, then the device (R75). -/
def portWrite (port : Port) (b : Byte) (s : State) : Out State := deviceByte port b (logIo ⟨.w, port, b⟩ s)

/-- PortRead(port) (R76): the only readable port is the keyboard's, and the read empties the latch. -/
def portRead (port : Port) (s : State) : Out (Byte × State) :=
  if port = s.cfg.kbdDataPort then
    match s.kbd with
    | .full b => .next (b, logIo ⟨.r, port, b⟩ (s.setKbd (.read b)))
    | .read _ => raise .kbdLatchEmpty s
    | .never => raise .kbdLatchEmpty s
  else refuse .portProtocol s

/-! ### The environment -/

/-- KBD.FULL (R25). -/
def kbdFull (s : State) : Bool :=
  match s.kbd with
  | .full _ => true
  | .read _ => false
  | .never => false

/-- PIC[M].IRR[l] <- 1 (R114 to R116). -/
def assertLine (l : Line) (s : State) : State := s.setPicM { s.picM with irr := setBit s.picM.irr l }

/-- KEY(b) on an empty latch (R114). -/
def latchKey (b : Byte) (s : State) : State := assertLine s.cfg.kbdLine (s.setKbd (.full b))

/-- KEY for the next byte the environment has: enabled when KBD.FULL is false, otherwise the byte waits (R114). -/
def presentKey (s : State) : State :=
  match s.keys with
  | [] => s
  | b :: rest => if kbdFull s then s else latchKey b (s.setKeys rest)

/-- A byte arrives at the keyboard: it waits behind those that wait already, and is latched if it can be (R114). -/
def keyArrives (b : Byte) (s : State) : State := presentKey (s.setKeys (s.keys ++ [b]))

/-- TICK, enabled only when ENV_TIMER_ASSERTS is true (R115). -/
def timerTick (s : State) : State := if s.cfg.envTimerAsserts then assertLine s.cfg.timerLine s else s

/-- One action of the environment; an action that is not enabled leaves the state as it is. -/
def envAct (e : EnvAct) (s : State) : State :=
  match e with
  | .key => presentKey s
  | .tick => timerTick s

/-- Several actions in turn. -/
def envActs : List EnvAct → State → State
  | [], s => s
  | e :: es, s => envActs es (envAct e s)

/-! ### The keyboard decoder, the ring and the handler -/

/-- KBD.DECODE (R86): bits 6:0 index SCTAB; the flags are copied. -/
def decodeKey (cfg : Config) (sc : Byte) (pressed ls rs ctrl alt : Bool) : KeyEvent :=
  ⟨scanTable cfg (keyCode sc), pressed, ls, rs, ctrl, alt⟩

/-- An index of the ring advanced by one, modulo 1024 (R73). -/
def advance (i : Fin 1024) : Fin 1024 := i + 1

/-- Q.PUT step 1: RING[WR] <- e (R89). -/
def ringStore (e : KeyEvent) (s : State) : State := s.setRing (s.ring.set s.wr.val (some e) s.wr.isLt)

/-- Q.PUT step 2: WR <- (WR + 1) mod 1024, published after the store (R49, R89). -/
def ringPublish (s : State) : State := s.setWr (advance s.wr)

/-- Q.PUT(e): no fullness test (R89, R92). -/
def ringPut (e : KeyEvent) (s : State) : State := ringPublish (ringStore e s)

/-- The end-of-interrupt byte to both chips, the master first (R65, R98). -/
def acknowledgeBoth (s : State) : Out State :=
  andThen (portWrite s.cfg.picMCmd s.cfg.eoiByte s) fun s => portWrite s.cfg.picSCmd s.cfg.eoiByte s

/-- The handler's work between its port read and its acknowledgment (R99 steps 2 to 4). -/
def handleByte (b : Byte) (s : State) : State :=
  let m := modupdate s.cfg s.mods b
  ringPut (decodeKey s.cfg (scancodeByte false (keyCode b)) (isPressed b) m.lshift m.rshift m.ctrl m.alt) (s.setMods m)

/-- KBD.ISR, the handler body (R99); the environment may act once the port read has emptied the latch (R126). -/
def handler (within : List EnvAct) (s : State) : Out State :=
  andThen (portRead s.cfg.kbdDataPort s) fun p => acknowledgeBoth (handleByte p.1 (envActs within p.2))

/-! ### Taking an interrupt and returning from it -/

/-- The vector of master line l: PIC[M].BASE + l (R119, R122). A base that was never written is a free value. -/
def vectorOf (s : State) (l : Line) : Nat := (s.picM.base.getD Config.unwrittenBase).toNat + l.val

/-- R122's first line: the request is taken, the line is in service. -/
def takeRequest (l : Line) (s : State) : State :=
  s.setPicM { s.picM with irr := clearBit s.picM.irr l, insvc := setBit s.picM.insvc l }

/-- 8*v + 7 lies in the loaded table (R123), and v in the table's IDT_ENTRIES entries (U12). -/
def vectorInTable (s : State) (v : Nat) : Bool :=
  match s.idtr with
  | some t => decide (8 * v + 7 ≤ t.limit.toNat) && decide (v < s.cfg.idtEntries)
  | none => false

/-- CTX <- ISR, IF <- false, HALTED <- false (R122): nothing of the foreground is saved, since nothing of it is disturbed. -/
def enterIsr (s : State) : State := ((s.setCtx .isr).setIntFlag false).setHalted false

/-- leave ISR: CTX <- FG, IF <- true (R125). -/
def leaveIsr (s : State) : State := (s.setCtx .fg).setIntFlag true

/-- The vector lookup (R123), its checks in the order written, then the handler, run to completion, and the return. -/
def throughVector (v : Nat) (within : List EnvAct) (s : State) : Out State :=
  if vectorInTable s v then
    match idtEntry s v with
    | none => raise (.vectorOutOfTable v) s
    | some d =>
      if d = 0 then raise (.vectorNotPresent v) s
      else if d ≠ mkdesc s.cfg s.cfg.handlerAddr then refuse .foreignDescriptor s
      else andThen (handler within (enterIsr s)) fun s => .next (leaveIsr s)
  else raise (.vectorOutOfTable v) s

/-- TAKING AN INTERRUPT: enter ISR for line l, as one step (R122). -/
def takeInterrupt (l : Line) (within : List EnvAct) (s : State) : Out State :=
  throughVector (vectorOf s l) within (takeRequest l s)

/-- deliver: the interrupt that can be delivered is taken; when none can be, nothing happens (R121). -/
def deliver (within : List EnvAct) (s : State) : Out State :=
  match deliverable s with
  | some l => takeInterrupt l within s
  | none => .next s

/-! ### Step boundaries -/

/-- What the schedule does before the next atomic step of the foreground: everything up to its next go. -/
def runActs : List Act → State → Out State
  | [], s => .next (s.setSched [])
  | .go :: rest, s => .next (s.setSched rest)
  | .env e :: rest, s => runActs rest (envAct e s)
  | .deliver within :: rest, s => andThen (deliver within (s.setSched rest)) (runActs rest)

/-- The boundary between two atomic steps of a foreground operation, where delivery and the environment's actions may fall
(R44, R48, R121). A schedule that is over lets nothing fall there. -/
def boundary (s : State) : Out State := runActs s.sched s

/-- One atomic step, the boundary after it, and then the rest of the operation. -/
def thenStep (o : Out State) (f : State → Out State) : Out State := andThen o fun s => andThen (boundary s) f

end Sys2Proof.Machine
end

