-- ==== Sys2Proof/Machine/DataFormat.lean ====
section
/-! DEFINITION. The four data formats (spec/30_encoding.md R53, R54, R60). A format is no operation: the spec gives it a
value, field by field, and no effect on any state. Performing such a word returns the value it denotes and changes nothing
else (notes/assumptions/7.md). -/

namespace Sys2Proof.Machine

/-- CELL: bg ++ fg ++ ch (R53, R56). -/
def execCell (bg fg : Colour) (ch : Byte) (s : State) : Out State := finish (.cell (mkcell ch fg bg)) (.next s)

/-- ATTR: bg ++ fg (R54). -/
def execAttr (bg fg : Colour) (s : State) : Out State := finish (.byte (mkattr fg bg)) (.next s)

/-- DESC: offset_hi ++ attr ++ selector ++ offset_lo (R60). -/
def execDesc (offHi attrWord selector offLo : BitVec 16) (s : State) : Out State :=
  finish (.descriptor (descriptorOf offHi attrWord selector offLo)) (.next s)

/-- DESC.EMPTY: 0, not live (R60). -/
def execDescEmpty (s : State) : Out State := finish (.descriptor 0) (.next s)

end Sys2Proof.Machine
end

