-- ==== Sys2Proof/Machine/DeviceBytes.lean ====
section
/-! DEFINITION. The thirteen port bytes of the device protocols (spec/30_encoding.md R62 to R65): the reaction of the device
at whose port the byte arrives (spec/40_port_io.md R75). OUTB is the write that brings a byte there and logs it; a byte that
does not stand where its row says is another row's byte, or refused PortProtocol. -/

namespace Sys2Proof.Machine

/-- CRTC.SEL_HI (R62 step 1): CRTC_INDEX <- CURSOR_SEL_HI. -/
def execCrtcSelHi (s : State) : Out State := finish .none (.next (crtcSelect s.cfg.cursorSelHi s))

/-- CRTC.DATA_HI (R62 step 2): CURSOR_HI <- v while CRTC_INDEX holds CURSOR_SEL_HI. -/
def execCrtcDataHi (v : Byte) (s : State) : Out State :=
  if s.crtc.index = some s.cfg.cursorSelHi then finish .none (.next (crtcHigh v s)) else refuse .portProtocol s

/-- CRTC.SEL_LO (R62 step 3): CRTC_INDEX <- CURSOR_SEL_LO. -/
def execCrtcSelLo (s : State) : Out State := finish .none (.next (crtcSelect s.cfg.cursorSelLo s))

/-- CRTC.DATA_LO (R62 step 4): CURSOR_LO <- v while CRTC_INDEX holds CURSOR_SEL_LO. -/
def execCrtcDataLo (v : Byte) (s : State) : Out State :=
  if s.crtc.index = some s.cfg.cursorSelLo then finish .none (.next (crtcLow v s)) else refuse .portProtocol s

/-- PIC.ICW1 (R63 steps 1 and 2). -/
def execPicIcw1 (c : Chip) (s : State) : Out State := finish .none (picStart c s)

/-- PIC.ICW2_M (R63 step 3). -/
def execPicIcw2M (v : Byte) (s : State) : Out State :=
  if s.picM.step = 3 then finish .none (.next (picBase .master v s)) else refuse .portProtocol s

/-- PIC.ICW2_S (R63 step 4). -/
def execPicIcw2S (v : Byte) (s : State) : Out State :=
  if s.picS.step = 3 then finish .none (.next (picBase .slave v s)) else refuse .portProtocol s

/-- PIC.ICW3_M (R63 step 5). -/
def execPicIcw3M (v : Byte) (s : State) : Out State :=
  if s.picM.step = 2 then finish .none (.next (picWiring .master v s)) else refuse .portProtocol s

/-- PIC.ICW3_S (R63 step 6). -/
def execPicIcw3S (v : Byte) (s : State) : Out State :=
  if s.picS.step = 2 then finish .none (.next (picWiring .slave v s)) else refuse .portProtocol s

/-- PIC.ICW4 (R63 steps 7 and 8). -/
def execPicIcw4 (c : Chip) (v : Byte) (s : State) : Out State :=
  if (pic s c).step = 1 then finish .none (.next (picMode c v s)) else refuse .portProtocol s

/-- PIC.MASK_M (R64). -/
def execPicMaskM (v : Byte) (s : State) : Out State :=
  if s.picM.step = 0 then finish .none (picMask .master v s) else refuse .portProtocol s

/-- PIC.MASK_S (R64). -/
def execPicMaskS (v : Byte) (s : State) : Out State :=
  if s.picS.step = 0 then finish .none (picMask .slave v s) else refuse .portProtocol s

/-- PIC.EOI_BYTE (R65). -/
def execPicEoiByte (c : Chip) (s : State) : Out State := finish .none (picAcknowledge c s)

end Sys2Proof.Machine
end

