-- ==== Sys2Proof/Machine/Queue.lean ====
section
/-! DEFINITION. The input queue: Q.INIT, Q.PUT, Q.READ and Q.ISEMPTY (spec/44_input_queue.md). -/

namespace Sys2Proof.Machine

/-- RD <- 0, the first write of Q.INIT; from here on Q.INIT has run (R88, notes/assumptions/23.md). -/
def beginQueue (s : State) : State := (s.setQueueBuilt true).setRd 0

/-- RING[i] <- no value. -/
def clearSlot (i : Fin 1024) (s : State) : State := s.setRing (s.ring.set i.val none i.isLt)

/-- n slots from slot i on, ascending, each write a step of its own (R44). -/
def clearSlots : Nat → Nat → State → Out State
  | _, 0, s => .next s
  | i, n + 1, s => thenStep (.next (clearSlot (Fin.ofNat 1024 i) s)) (clearSlots (i + 1) n)

/-- Q.INIT's writes of RD, WR and the 1024 slots (R88), with a step boundary after each (R44, R48). -/
def initQueue (s : State) : Out State :=
  thenStep (.next (beginQueue s)) fun s => thenStep (.next (s.setWr 0)) (clearSlots 0 1024)

/-- RING[RD]. -/
def readSlot (s : State) : Option KeyEvent := s.ring[s.rd.val]'s.rd.isLt

/-- Q.READ (R90): the slot is read in one step, RD advances in the next; no emptiness test. -/
def queueRead (s : State) : Out (KeyEvent × State) :=
  match readSlot s with
  | none => raise (.unwrittenSlot s.rd.val) s
  | some e => andThen (boundary s) fun u => .next (e, u.setRd (advance u.rd))

/-- Q.ISEMPTY (R91): RD is read in one step, WR in the next. -/
def queueIsEmpty (s : State) : Out (Bool × State) :=
  andThen (boundary s) fun u => .next (decide (s.rd = u.wr), u)

/-- Q.INIT (R88): refused on a second call only. With IF true an interrupt can fall between its writes, and the event it
queues can be lost (notes/assumptions/11.md): that Q.INIT must run before INT.ENABLE is the stream's duty (R88, R139). -/
def execQInit (s : State) : Out State :=
  if s.queueBuilt then refuse .queueReinit s else finish .none (initQueue s)

/-- Q.PUT(e) (R89). -/
def execQPut (e : KeyEvent) (s : State) : Out State := finish .none (.next (ringPut e s))

/-- Q.READ -> e (R90). -/
def execQRead (s : State) : Out State := andThen (queueRead s) fun p => finish (.event p.1) (.next p.2)

/-- Q.ISEMPTY -> Boolean (R91). -/
def execQIsempty (s : State) : Out State := andThen (queueIsEmpty s) fun p => finish (.bool p.1) (.next p.2)

end Sys2Proof.Machine
end

