-- ==== Sys2Proof/Machine/Screen.lean ====
section
/-! DEFINITION. The Screen driver: PUTGLYPH.CFB, PUTGLYPH.CELL and SETCURSOR (spec/41_screen.md). x is the column, y the row. -/

namespace Sys2Proof.Machine

/-- The store of PUTGLYPH.CELL (R78): in-window offsets store even when x is 80 or more; offsets of 2000 and more fault. -/
def putCell (cell : GlyphCell) (x y : Nat) (s : State) : Out State :=
  if cellOffset x y < 2000 then .next (storeCell (cellOffset x y) cell s)
  else raise (.outOfWindow (cellOffset x y)) s

/-- The four port writes of SETCURSOR (R62, R79), each a step of its own (R44). -/
def setCursor (x y : Nat) (s : State) : Out State :=
  thenStep (portWrite s.cfg.crtcCmd s.cfg.cursorSelHi s) fun s =>
    thenStep (portWrite s.cfg.crtcData (highByte (cursorOffset x y)) s) fun s =>
      thenStep (portWrite s.cfg.crtcCmd s.cfg.cursorSelLo s) fun s =>
        portWrite s.cfg.crtcData (lowByte (cursorOffset x y)) s

/-- PUTGLYPH.CFB(ch, fg, bg, x, y) -> cell (R77). -/
def execPutglyphCfb (ch : Byte) (fg bg : Colour) (x y : Nat) (s : State) : Out State :=
  finish (.cell (mkcell ch fg bg)) (putCell (mkcell ch fg bg) x y s)

/-- PUTGLYPH.CELL(cell, x, y) -> cell (R78). -/
def execPutglyphCell (cell : GlyphCell) (x y : Nat) (s : State) : Out State :=
  finish (.cell cell) (putCell cell x y s)

/-- SETCURSOR(x, y) (R79). -/
def execSetcursor (x y : Nat) (s : State) : Out State := finish .none (setCursor x y s)

end Sys2Proof.Machine
end

