-- ==== Sys2Proof/Machine/Terminal.lean ====
section
/-! DEFINITION. The Terminal: TERM.INIT, TERM.WRITE, TERM.PUTCHAR and TERM.ADDLINE (spec/42_terminal.md). Positions go to the
Screen driver column first (R80 b). -/

namespace Sys2Proof.Machine

/-- The place of SHADOW[r][c] in the grid (R15, R18). -/
def shadowIndex (r c : Nat) : Fin 2000 := Fin.ofNat 2000 (r * 80 + c)

/-- SHADOW[r][c]. -/
def shadowAt (t : Terminal) (r c : Nat) : GlyphCell := t.shadow[(shadowIndex r c).val]'(shadowIndex r c).isLt

/-- SHADOW[r][c] <- cell. -/
def withShadow (t : Terminal) (r c : Nat) (cell : GlyphCell) : Terminal :=
  { t with shadow := t.shadow.set (shadowIndex r c).val cell (shadowIndex r c).isLt }

/-- Go on with the Terminal, or refuse when it does not exist (R80 e). -/
def withTerminal (s : State) (f : Terminal → Out State) : Out State :=
  match s.term with
  | some t => f t
  | none => refuse .terminalNotConstructed s

/-- SHADOW[r][c] <- call PUTGLYPH.CELL(cell, c, r). -/
def showCell (r c : Nat) (cell : GlyphCell) (s : State) : Out State :=
  withTerminal s fun t => andThen (putCell cell c r s) fun u => .next (u.setTerm (some (withShadow t r c cell)))

/-- One cell of TERM.CLEARROW: PUTGLYPH.CFB(SPACE, FGC, BGC, c, r) (R72). -/
def clearCell (r c : Nat) (s : State) : Out State :=
  withTerminal s fun t => showCell r c (mkcell s.cfg.space t.fgc t.bgc) s

/-- n cells of row r from column c on, ascending. -/
def clearCells (r : Nat) : Nat → Nat → State → Out State
  | _, 0, s => .next s
  | c, n + 1, s => thenStep (clearCell r c s) (clearCells r (c + 1) n)

/-- TERM.CLEARROW(r) (R72). -/
def clearRow (r : Nat) (s : State) : Out State := clearCells r 0 80 s

/-- n rows from row r on, ascending. -/
def clearRows : Nat → Nat → State → Out State
  | _, 0, s => .next s
  | r, n + 1, s => andThen (clearRow r s) (clearRows (r + 1) n)

/-- One cell of the scroll: SHADOW[r-1][c] <- call PUTGLYPH.CELL(SHADOW[r][c], c, r-1) (R84). -/
def scrollCell (r c : Nat) (s : State) : Out State :=
  withTerminal s fun t => showCell (r - 1) c (shadowAt t r c) s

/-- n cells of row r from column c on, ascending. -/
def scrollCells (r : Nat) : Nat → Nat → State → Out State
  | _, 0, s => .next s
  | c, n + 1, s => thenStep (scrollCell r c s) (scrollCells r (c + 1) n)

/-- n rows from row r on, ascending: the only order that shifts rather than smears (R84 a). -/
def scrollRows : Nat → Nat → State → Out State
  | _, 0, s => .next s
  | r, n + 1, s => andThen (scrollCells r 0 80 s) (scrollRows (r + 1) n)

/-- COL <- 0. -/
def carriageReturn (s : State) : State := s.setTerm (s.term.map fun t => { t with col := 0 })

/-- Both loops of the scroll (R84). -/
def scroll (s : State) : Out State := andThen (scrollRows 1 24 s) (clearRow 24)

/-- TERM.ADDLINE (R84). -/
def addLine (s : State) : Out State :=
  withTerminal s fun t =>
    if t.row ≠ 24 then .next (carriageReturn (s.setTerm (some { t with row := t.row + 1 })))
    else andThen (scroll s) fun u => .next (carriageReturn u)

/-- COL <- COL + 1; if COL > 79 then TERM.ADDLINE (R83): COL is 80 while that runs (R17). -/
def advanceColumn (s : State) : Out State :=
  withTerminal s fun t =>
    let u := s.setTerm (some { t with col := t.col + 1 })
    if 79 < t.col + 1 then addLine u else .next u

/-- SETCURSOR(COL, ROW) (R83). -/
def syncCursor (s : State) : Out State := withTerminal s fun t => setCursor t.col t.row.val s

/-- TERM.PUTCHAR(ch) (R83): the cursor is synchronised in both branches (C3). -/
def putChar (ch : Byte) (s : State) : Out State :=
  withTerminal s fun t =>
    if ch = s.cfg.newline then andThen (addLine s) syncCursor
    else
      thenStep (showCell t.row.val t.col (mkcell ch t.fgc t.bgc) s) fun s =>
        andThen (advanceColumn s) syncCursor

/-- TERM.WRITE's loop (R82): every character in order, a 0 included (D6). -/
def writeText : List Byte → State → Out State
  | [], s => .next s
  | ch :: rest, s => thenStep (putChar ch s) (writeText rest)

/-- The Terminal TERM.INIT fills: FGC = 7, BGC = 0; a Terminal that does not exist yet starts on a grid that is overwritten
whole before anything reads it (R81). -/
def freshTerminal (s : State) : Terminal :=
  match s.term with
  | some t => { t with fgc := fgDefault, bgc := bgDefault }
  | none => ⟨0, 0, fgDefault, bgDefault, Vector.replicate 2000 (blank s.cfg)⟩

/-- ROW <- 0; COL <- 0. -/
def homeCursor (s : State) : State := s.setTerm (s.term.map fun t => { t with row := 0, col := 0 })

/-- TERM.INIT (R81): the hardware cursor is not programmed (D7). -/
def construct (s : State) : Out State :=
  andThen (clearRows 0 25 (s.setTerm (some (freshTerminal s)))) fun u => .next (homeCursor u)

/-- TERM.INIT (R81). -/
def execTermInit (s : State) : Out State := finish .none (construct s)

/-- TERM.WRITE(text) (R82). -/
def execTermWrite (text : List Byte) (s : State) : Out State :=
  finish .none (withTerminal s fun _ => writeText text s)

/-- TERM.PUTCHAR(ch) (R83). -/
def execTermPutchar (ch : Byte) (s : State) : Out State := finish .none (putChar ch s)

/-- TERM.ADDLINE (R84). -/
def execTermAddline (s : State) : Out State := finish .none (addLine s)

end Sys2Proof.Machine
end

