-- ==== Sys2Proof/Machine/Foreground.lean ====
section
/-! DEFINITION. The foreground operations: INT.ENABLE, INT.DISABLE, HALT and MAIN.STEP (spec/46_foreground.md). -/

namespace Sys2Proof.Machine

/-- HALTED <- true (R106). What a halted foreground does is Fetch.lean's. -/
def haltForeground (s : State) : State := s.setHalted true

/-- What MAIN.STEP does with an event it has read (R108): pressed and ch ≠ 0 is forwarded, everything else dropped. -/
def forwardEvent (e : KeyEvent) (s : State) : Out State :=
  if e.pressed && e.ch != 0 then putChar e.ch s else .next s

/-- MAIN.STEP (R108). The emptiness test and the halt are two steps with a boundary between them: the lost wakeup of R146 is
not repaired. -/
def mainTurn (s : State) : Out State :=
  andThen (queueIsEmpty s) fun p =>
    andThen (boundary p.2) fun u =>
      if p.1 then .next (haltForeground u)
      else andThen (queueRead u) fun q => andThen (boundary q.2) (forwardEvent q.1)

/-- INT.ENABLE (R104). -/
def execIntEnable (s : State) : Out State :=
  if setupDone s then finish .none (.next (s.setIntFlag true)) else refuse .enableBeforeSetup s

/-- INT.DISABLE (R105). -/
def execIntDisable (s : State) : Out State := finish .none (.next (s.setIntFlag false))

/-- HALT (R106). -/
def execHalt (s : State) : Out State := finish .none (.next (haltForeground s))

/-- MAIN.STEP (R108). -/
def execMainStep (s : State) : Out State := finish .none (mainTurn s)

end Sys2Proof.Machine
end

