-- ==== Sys2Proof/Machine/Interrupt.lean ====
section
/-! DEFINITION. The interrupt subsystem's set-up and acknowledgment: IDT.BUILD, IDT.LOAD, PIC.INIT, PIC.SETMASK and PIC.EOI
(spec/45_interrupt_subsystem.md R94 to R98). -/

namespace Sys2Proof.Machine

/-- Every entry of the table 0 (R94). -/
def zeroTable (s : State) : State :=
  s.setMem (Memory.writeBytes s.cfg (descAddress s.cfg 0) (List.replicate (8 * s.cfg.idtEntries) 0) s.mem)

/-- IDT[v] <- d (R94). -/
def storeDescriptor (v : Nat) (d : Descriptor) (s : State) : State :=
  s.setMem (Memory.writeBytes s.cfg (descAddress s.cfg v) (descBytes d) s.mem)

/-- The table with the handler at its one live entry (R94). -/
def buildTable (a : Address) (s : State) : State :=
  storeDescriptor s.cfg.kbdVector.toNat (mkdesc s.cfg a) (zeroTable s)

/-- The table register loaded (R95). -/
def loadTable (s : State) : State := s.setIdtr (some ⟨s.cfg.idtBase, s.cfg.idtLimit⟩)

/-- The eight bytes of the initialisation sequence, in order, each a step of its own (R63, R96). -/
def initBytes (cfg : Config) : List (Port × Byte) :=
  [(cfg.picMCmd, cfg.icw1), (cfg.picSCmd, cfg.icw1), (cfg.picMData, cfg.icw2M), (cfg.picSData, cfg.icw2S),
   (cfg.picMData, cfg.icw3M), (cfg.picSData, cfg.icw3S), (cfg.picMData, cfg.icw4), (cfg.picSData, cfg.icw4)]

/-- The two mask bytes (R64, R97). -/
def maskBytes (cfg : Config) : List (Port × Byte) := [(cfg.picMData, cfg.maskM), (cfg.picSData, cfg.maskS)]

/-- A sequence of port writes, with a step boundary after each. -/
def portWrites : List (Port × Byte) → State → Out State
  | [], s => .next s
  | (p, b) :: rest, s => thenStep (portWrite p b s) (portWrites rest)

/-- IDT.BUILD(a) (R94). -/
def execIdtBuild (a : Address) (s : State) : Out State :=
  if s.intFlag then refuse .setupWithInterruptsOn s else finish .none (.next (buildTable a s))

/-- IDT.LOAD (R95). -/
def execIdtLoad (s : State) : Out State :=
  if s.intFlag then refuse .setupWithInterruptsOn s else finish .none (.next (loadTable s))

/-- PIC.INIT (R96). -/
def execPicInit (s : State) : Out State :=
  if s.intFlag then refuse .setupWithInterruptsOn s else finish .none (portWrites (initBytes s.cfg) s)

/-- PIC.SETMASK (R97): not refused with interrupts on. -/
def execPicSetmask (s : State) : Out State := finish .none (portWrites (maskBytes s.cfg) s)

/-- PIC.EOI (R98). -/
def execPicEoi (s : State) : Out State := finish .none (acknowledgeBoth s)

end Sys2Proof.Machine
end

