-- ==== Sys2Proof/Machine/Keyboard.lean ====
section
/-! DEFINITION. The keyboard: KBD.DECODE (spec/43_keyboard_decoder.md), the handler body KBD.ISR
(spec/45_interrupt_subsystem.md R99), and the two scancode bytes SC.PRESS and SC.RELEASE, whose effect is the environment's
KEY (spec/30_encoding.md R58, R72, spec/60_exceptions.md R114). -/

namespace Sys2Proof.Machine

/-- KBD.DECODE(sc, pressed, ls, rs, ctrl, alt) -> event (R86): no state is read or written. -/
def execKbdDecode (sc : Byte) (pressed ls rs ctrl alt : Bool) (s : State) : Out State :=
  finish (.event (decodeKey s.cfg sc pressed ls rs ctrl alt)) (.next s)

/-- KBD.ISR (R99). -/
def execKbdIsr (s : State) : Out State := finish .none (handler [] s)

/-- SC.PRESS: KEY(k), the key goes down (R58, R114). -/
def execScPress (k : KeyCode) (s : State) : Out State := finish .none (.next (keyArrives (scancodeByte false k) s))

/-- SC.RELEASE: KEY(k + 0x80), the key goes up (R58, R114). -/
def execScRelease (k : KeyCode) (s : State) : Out State := finish .none (.next (keyArrives (scancodeByte true k) s))

end Sys2Proof.Machine
end

