-- ==== Sys2Proof/Machine/PortIo.lean ====
section
/-! DEFINITION. The port I/O primitive: OUTB and INB (spec/40_port_io.md). -/

namespace Sys2Proof.Machine

/-- OUTB(port, b) (R75). -/
def execOutb (port : Port) (b : Byte) (s : State) : Out State := finish .none (portWrite port b s)

/-- INB(port) -> b (R76). -/
def execInb (port : Port) (s : State) : Out State :=
  andThen (portRead port s) fun p => finish (.byte p.1) (.next p.2)

end Sys2Proof.Machine
end

