-- ==== Sys2Proof/Machine/Dispatch.lean ====
section
/-! DEFINITION. One arm per row of spec/opcode_table.json. -/

namespace Sys2Proof.Machine

def exec (i : Instr) (s : State) : Host.Outcome State Fault Refusal :=
  match i with
  | .outb port b => Sys2Proof.Machine.execOutb port b s
  | .inb port => Sys2Proof.Machine.execInb port s
  | .putglyphCfb ch fg bg x y => Sys2Proof.Machine.execPutglyphCfb ch fg bg x y s
  | .putglyphCell cell x y => Sys2Proof.Machine.execPutglyphCell cell x y s
  | .setcursor x y => Sys2Proof.Machine.execSetcursor x y s
  | .termInit => Sys2Proof.Machine.execTermInit s
  | .termWrite text => Sys2Proof.Machine.execTermWrite text s
  | .termPutchar ch => Sys2Proof.Machine.execTermPutchar ch s
  | .termAddline => Sys2Proof.Machine.execTermAddline s
  | .kbdDecode sc pressed ls rs ctrl alt => Sys2Proof.Machine.execKbdDecode sc pressed ls rs ctrl alt s
  | .qInit => Sys2Proof.Machine.execQInit s
  | .qPut e => Sys2Proof.Machine.execQPut e s
  | .qRead => Sys2Proof.Machine.execQRead s
  | .qIsempty => Sys2Proof.Machine.execQIsempty s
  | .idtBuild a => Sys2Proof.Machine.execIdtBuild a s
  | .idtLoad => Sys2Proof.Machine.execIdtLoad s
  | .picInit => Sys2Proof.Machine.execPicInit s
  | .picSetmask => Sys2Proof.Machine.execPicSetmask s
  | .picEoi => Sys2Proof.Machine.execPicEoi s
  | .kbdIsr => Sys2Proof.Machine.execKbdIsr s
  | .intEnable => Sys2Proof.Machine.execIntEnable s
  | .intDisable => Sys2Proof.Machine.execIntDisable s
  | .halt => Sys2Proof.Machine.execHalt s
  | .mainStep => Sys2Proof.Machine.execMainStep s
  | .crtcSelHi => Sys2Proof.Machine.execCrtcSelHi s
  | .crtcDataHi v => Sys2Proof.Machine.execCrtcDataHi v s
  | .crtcSelLo => Sys2Proof.Machine.execCrtcSelLo s
  | .crtcDataLo v => Sys2Proof.Machine.execCrtcDataLo v s
  | .picIcw1 c => Sys2Proof.Machine.execPicIcw1 c s
  | .picIcw2M v => Sys2Proof.Machine.execPicIcw2M v s
  | .picIcw2S v => Sys2Proof.Machine.execPicIcw2S v s
  | .picIcw3M v => Sys2Proof.Machine.execPicIcw3M v s
  | .picIcw3S v => Sys2Proof.Machine.execPicIcw3S v s
  | .picIcw4 c v => Sys2Proof.Machine.execPicIcw4 c v s
  | .picMaskM v => Sys2Proof.Machine.execPicMaskM v s
  | .picMaskS v => Sys2Proof.Machine.execPicMaskS v s
  | .picEoiByte c => Sys2Proof.Machine.execPicEoiByte c s
  | .scPress k => Sys2Proof.Machine.execScPress k s
  | .scRelease k => Sys2Proof.Machine.execScRelease k s
  | .cell bg fg ch => Sys2Proof.Machine.execCell bg fg ch s
  | .attr bg fg => Sys2Proof.Machine.execAttr bg fg s
  | .desc offHi attrWord selector offLo => Sys2Proof.Machine.execDesc offHi attrWord selector offLo s
  | .descEmpty => Sys2Proof.Machine.execDescEmpty s

end Sys2Proof.Machine
end

