-- ==== Sys2Proof/Machine/Fetch.lean ====
section
/-! DEFINITION. What the next step of the machine is: who acts (spec/20_memory.md R47, R48, spec/60_exceptions.md R121) and,
when the foreground does, which operation its stream gives (spec/10_state.md R14, spec/30_encoding.md R66, R68). -/

namespace Sys2Proof.Machine

/-- What a step does. -/
inductive Turn where
  /-- The foreground performs the next operation of its stream, leaving the given bytes. -/
  | stream (i : Instr) (rest : List Byte) (s : State)
  /-- A word from outside the stream is performed. -/
  | inner (i : Instr) (s : State)
  /-- The step performs no instruction. -/
  | settled (o : Out State)

/-- The refusal of bytes that are no instruction: an unknown code is R112's UnknownOperation, the rest the model's own. -/
def decodeReason : DecodeError → Reason
  | .unknownOperation code => .unknownOperation code
  | .truncated => .malformedWord .truncated
  | .reservedFlagBits => .malformedWord .reservedFlagBits
  | .overlongNatural => .malformedWord .overlongNatural
  | .noProtocolByte => .portProtocol

/-- Whether the context that is executing may perform a word (R66). -/
def mayPerform (c : Ctx) (i : Instr) : Bool :=
  match c with
  | .fg => i.contexts.fg
  | .isr => i.contexts.isr

/-- The first word of an item of State.work; bytes after it stay as the item's next words. -/
def workTurn (w : WorkItem) (rest : List WorkItem) (s : State) : Turn :=
  match decodeIn s.cfg w.space w.bytes with
  | .error e => .settled (refuse (decodeReason e) s)
  | .ok (i, more) =>
    if mayPerform s.ctx i then .inner i (s.setWork (if more.isEmpty then rest else ⟨w.space, more⟩ :: rest))
    else .settled (refuse .wrongContext s)

/-- The foreground's step. Halted: it has none; with interrupts masked it is stuck for good (R106, R107). Otherwise the next
operation of the stream (R14); an operation whose context lacks FG, and an internal one, is refused (R68 b); after the
stream comes MAIN.STEP for ever, or nothing (R14, R109). -/
def foregroundTurn (s : State) : Turn :=
  if s.halted then
    if s.intFlag then .settled (.next s) else .settled (.fault (.stuckHalt s))
  else
    match s.stream with
    | [] => if s.mainLoop then .stream .mainStep [] s else .settled (.next s)
    | b :: bs =>
      match decode (b :: bs) with
      | .error e => .settled (refuse (decodeReason e) s)
      | .ok (i, rest) => if i.contexts.inStream then .stream i rest s else .settled (refuse .wrongContext s)

/-- The step of an agent that a fault has stopped: it has none (R111). -/
def stoppedTurn (c : FaultCode) (s : State) : Turn := .settled (.fault (c.fault s))

/-- What happens once the schedule is over: a byte that waits is presented as soon as it can be, a request that can be
delivered is delivered (R121: weak fairness), otherwise it is the foreground's turn. -/
def unscheduledTurn (foreground : State → Turn) (s : State) : Turn :=
  if !s.keys.isEmpty && !kbdFull s then .settled (.next (presentKey s))
  else
    match deliverable s with
    | some l => .settled (takeInterrupt l [] s)
    | none => foreground s

/-- Between two operations of the foreground the schedule says who acts. -/
def scheduledTurn (foreground : State → Turn) (s : State) : Turn :=
  match s.sched with
  | [] => unscheduledTurn foreground s
  | .go :: rest => foreground (s.setSched rest)
  | .env e :: rest => .settled (.next (envAct e (s.setSched rest)))
  | .deliver within :: rest => .settled (deliver within (s.setSched rest))

/-- The next step. FAULT and REFUSED are sticky (R27). A fault stops the agent that raised it, which is the one CTX names, and
the environment goes on (R111, R120, R127; notes/assumptions/15.md); a refused request has no meaning, and so no step after
it. Work handed in comes first; a handler with nothing left to do returns (R125). -/
def turn (s : State) : Turn :=
  match s.fault with
  | some c => scheduledTurn (stoppedTurn c) s
  | none =>
    match s.refusal with
    | some r => .settled (.refused (r.refusal s))
    | none =>
      match s.work with
      | w :: rest => workTurn w rest s
      | [] =>
        match s.ctx with
        | .isr => .settled (.next (leaveIsr s))
        | .fg => scheduledTurn foregroundTurn s

/-- The operation is done: the stream goes on behind it and FGPOS advances by one (R14). -/
def retire (rest : List Byte) (s : State) : State := (s.setStream rest).setFgpos (s.fgpos + 1)

/-- The state in which the foreground is about to take the first operation of its stream. -/
def readyForeground (s : State) : State :=
  ((((((s.setFault none).setRefusal none).setWork []).setCtx .fg).setHalted false).setSched (.go :: s.sched))

/-- The state in which a word from outside the stream is about to be performed by the given context. -/
def readyWork (c : Ctx) (w : WorkItem) (s : State) : State :=
  (((s.setFault none).setRefusal none).setCtx c).setWork (w :: s.work)

/-- The context that may perform a word: FG where it may, ISR otherwise (R66). -/
def performer (i : Instr) : Ctx := if i.contexts.fg then .fg else .isr

/-- The bytes of an instruction placed where the next step takes it: at the head of the stream for a stream operation, in
State.work for any other word. -/
def placeWord (i : Instr) (bytes : List Byte) (s : State) : State :=
  if i.contexts.inStream then (readyForeground s).setStream (bytes ++ s.stream)
  else readyWork (performer i) ⟨i.space, bytes⟩ s

end Sys2Proof.Machine
end

