-- ==== Sys2Proof/Machine/Step.lean ====
section
/-! DEFINITION. One step of the machine. -/

namespace Sys2Proof.Machine

/-- One step: the operation or word whose turn it is, or an action that is none (Fetch.lean). -/
def step (s : State) : Host.Outcome State Fault Refusal :=
  match turn s with
  | .stream i rest t => andThen (exec i t) fun u => .next (retire rest u)
  | .inner i t => exec i t
  | .settled o => o

/-- The state with a table word placed where step takes its next instruction from. -/
def State.withFetchWord (s : State) (nbits w : Nat) : State :=
  match decodeTableWord nbits w with
  | some i => placeWord i (tableInstrBytes nbits w) s
  | none => (readyForeground s).setStream (tableInstrBytes nbits w ++ s.stream)

end Sys2Proof.Machine
end

