-- ==== Sys2Proof/Safety.lean ====
section
/-! DEFINITION. What claims are stated in terms of: the end of a run (spec/46_foreground.md R107, R109), the invariants of
spec/10_state.md R35, the machine's own invariant, the console after its boot (spec/70_reset_and_hazards.md R139), and the
plain reference of the Terminal's grid that TERM.PUTCHAR and TERM.ADDLINE are compared with. -/

namespace Sys2Proof.Machine

/-! ### Ends of a run -/

/-- PIC[M].IRR has no unmasked bit set (R109). -/
def noUnmaskedRequest (p : Pic) : Prop := ∀ l : Line, p.irr.getLsbD l.val = true → unmasked p l = false

/-- The run is complete (R109). Every action of the environment has happened: none is scheduled and no byte waits. -/
structure Complete (s : State) : Prop where
  envDone : s.sched = [] ∧ s.keys = [] ∧ s.work = []
  foreground : s.ctx = .fg
  halted : s.halted = true
  /-- R107: halted with interrupts masked is never a completed run. -/
  canWake : s.intFlag = true
  queueEmpty : s.rd = s.wr
  latchEmpty : kbdFull s = false
  noRequest : noUnmaskedRequest s.picM
  noneInService : s.picM.insvc = 0
  noFault : s.fault = none
  notRefused : s.refusal = none

/-- The lost-wakeup hang (R109, R146): halted on a queue that is not empty, and no action of the environment is left. -/
def LostWakeup (s : State) : Prop :=
  s.halted = true ∧ s.rd ≠ s.wr ∧ s.sched = [] ∧ s.keys = [] ∧ kbdFull s = false

/-! ### The Terminal and the screen -/

/-- R35 (a): the shadow grid and video memory agree cell for cell. -/
def Mirrored (s : State) : Prop :=
  ∀ t, s.term = some t → ∀ off : Fin 2000, vram s off.val = some (t.shadow[off.val]'off.isLt)

/-- R35 (b), R17: between operations the column is 0..79. -/
def CursorInGrid (s : State) : Prop := ∀ t, s.term = some t → t.col < 80

/-- R35 (c): CURSOR_LOC is the Terminal's position. -/
def CursorSynced (s : State) : Prop :=
  ∀ t, s.term = some t →
    s.crtc.cursorHi = some (highByte (cursorOffset t.col t.row.val)) ∧
    s.crtc.cursorLo = some (lowByte (cursorOffset t.col t.row.val))

/-- The grid after a scroll (S2, R85 b): every row shows what the row below it showed, the last row is blank. -/
def scrolledGrid (bl : GlyphCell) (g : Vector GlyphCell 2000) : Vector GlyphCell 2000 :=
  Vector.ofFn fun i => if h : i.val + 80 < 2000 then g[i.val + 80] else bl

/-- Reference: what TERM.ADDLINE makes of the Terminal (R84). -/
def lineAdded (bl : GlyphCell) (t : Terminal) : Terminal :=
  if h : t.row.val + 1 < 25 then { t with row := ⟨t.row.val + 1, h⟩, col := 0 }
  else { t with shadow := scrolledGrid bl t.shadow, col := 0 }

/-- Reference: what TERM.PUTCHAR makes of the Terminal (R83). -/
def charPut (cfg : Config) (ch : Byte) (t : Terminal) : Terminal :=
  if ch = cfg.newline then lineAdded (mkcell cfg.space t.fgc t.bgc) t
  else
    let off := t.row.val * 80 + t.col
    let u := { t with shadow := t.shadow.setIfInBounds off (mkcell ch t.fgc t.bgc) }
    if t.col + 1 < 80 then { u with col := t.col + 1 } else lineAdded (mkcell cfg.space t.fgc t.bgc) u

/-- The four IOTRACE entries of a cursor update, CUR(h, l) of spec/95_test_vectors.md. -/
def cursorTrace (cfg : Config) (x y : Nat) : List IoEntry :=
  [⟨.w, cfg.crtcCmd, cfg.cursorSelHi⟩, ⟨.w, cfg.crtcData, highByte (cursorOffset x y)⟩,
   ⟨.w, cfg.crtcCmd, cfg.cursorSelLo⟩, ⟨.w, cfg.crtcData, lowByte (cursorOffset x y)⟩]

/-- The cursor registers after SETCURSOR(x, y). -/
def cursorAt (cfg : Config) (x y : Nat) : Crtc :=
  ⟨some cfg.cursorSelLo, some (highByte (cursorOffset x y)), some (lowByte (cursorOffset x y))⟩

/-- a is an address of the video window (R39). -/
def inWindow (cfg : Config) (a : Nat) : Prop := cfg.videoBase.toNat ≤ a ∧ a < cfg.videoBase.toNat + 4000

/-- a is an address of the table image (R45). -/
def inTable (cfg : Config) (a : Nat) : Prop :=
  cfg.idtBase.toNat ≤ a ∧ a < cfg.idtBase.toNat + 8 * cfg.idtEntries

/-- The byte of physical memory at an address; none: no value. -/
def byteAt (s : State) (a : Nat) : Option Byte := Memory.read s.cfg s.mem a

/-- No interrupt and no action of the environment is scheduled inside the operation: its own effect alone. -/
def Undisturbed (s : State) : Prop := s.sched = []

/-! ### The queue -/

/-- A run of Q.PUT operations. -/
def putAll : List KeyEvent → State → Out State
  | [], s => .next s
  | e :: es, s => andThen (exec (.qPut e) s) (putAll es)

/-- A run of Q.READ operations, with what each returned. -/
def readAll : Nat → State → Out (List Result × State)
  | 0, s => .next ([], s)
  | n + 1, s => andThen (exec .qRead s) fun u => andThen (readAll n u) fun p => .next (u.result :: p.1, p.2)

/-- The event a slot holds after the puts es from an empty ring: the latest whose number is the slot's, modulo 1024 (R92, R93). -/
def latest (es : List KeyEvent) (i : Nat) : Option KeyEvent :=
  if i < es.length then es[i + 1024 * ((es.length - 1 - i) / 1024)]? else none

/-- Since the ring was empty the events es have been put, in this order, and c have been read (R92: P and C). -/
structure QueueHistory (es : List KeyEvent) (c : Nat) (s : State) : Prop where
  wr : s.wr.val = es.length % 1024
  rd : s.rd.val = c % 1024
  slots : ∀ i : Fin 1024, s.ring[i.val]'i.isLt = latest es i.val

/-- The ring between atomic steps: slots are written in order from 0, so either every slot holds an event (WR has been round),
or exactly the slots below WR do and RD has not passed WR (R20, R89, R90). -/
def QueueSound (s : State) : Prop :=
  (∀ i : Fin 1024, (s.ring[i.val]'i.isLt).isSome = true) ∨
    (s.rd ≤ s.wr ∧ ∀ i : Fin 1024, (s.ring[i.val]'i.isLt).isSome = decide (i < s.wr))

/-- How many events the queue reports (R92). -/
def reported (s : State) : Nat := (s.wr - s.rd).val

/-! ### What belongs to the foreground -/

/-- Everything a delivered interrupt and the environment leave alone (R34, R48): all but MOD, RING, WR, the controllers, KBD,
IF, HALTED, CTX, IOTRACE, and the inputs they use up. -/
structure ForegroundKept (s t : State) : Prop where
  cfg : t.cfg = s.cfg
  mem : t.mem = s.mem
  crtc : t.crtc = s.crtc
  term : t.term = s.term
  rd : t.rd = s.rd
  queueBuilt : t.queueBuilt = s.queueBuilt
  idtr : t.idtr = s.idtr
  fault : t.fault = s.fault
  refusal : t.refusal = s.refusal
  fgpos : t.fgpos = s.fgpos
  stream : t.stream = s.stream
  mainLoop : t.mainLoop = s.mainLoop
  work : t.work = s.work
  result : t.result = s.result

/-- It is the foreground's turn, and t is s with that turn used up: scheduled, or with nothing else to happen first. -/
structure ForegroundTurn (s t : State) : Prop where
  running : s.fault = none ∧ s.refusal = none
  noWork : s.work = []
  context : s.ctx = .fg
  awake : s.halted = false
  next : (∃ acts, s.sched = .go :: acts ∧ t = { s with sched := acts }) ∨
    (s.sched = [] ∧ (s.keys = [] ∨ kbdFull s = true) ∧ deliverable s = none ∧ t = s)

/-- A run of operations, one after the other. -/
def execAll : List Instr → State → Out State
  | [], s => .next s
  | i :: is, s => andThen (exec i s) (execAll is)

/-- The command port and the data port of a chip (R132). -/
def picCommandPort (cfg : Config) : Chip → Port
  | .master => cfg.picMCmd
  | .slave => cfg.picSCmd

def picDataPort (cfg : Config) : Chip → Port
  | .master => cfg.picMData
  | .slave => cfg.picSData

/-- The place a byte at a chip's data port has in the chip's sequence (R75). -/
def picSlot (p : Pic) : PicSlot :=
  if p.step = 3 then .icw2 else if p.step = 2 then .icw3 else if p.step = 1 then .icw4 else .mask

/-- Where a byte written to a port stands, as the device behind the port takes it (R75); none where no device takes one. -/
def portSpace (s : State) (p : Port) : Option Space :=
  if p = s.cfg.crtcCmd then some .crtcCommand
  else if p = s.cfg.crtcData then
    if s.crtc.index = some s.cfg.cursorSelHi then some (.crtcData true)
    else if s.crtc.index = some s.cfg.cursorSelLo then some (.crtcData false)
    else none
  else if p = s.cfg.picMCmd then some (.picCommand .master)
  else if p = s.cfg.picSCmd then some (.picCommand .slave)
  else if p = s.cfg.picMData then some (.picData .master (picSlot s.picM))
  else if p = s.cfg.picSData then some (.picData .slave (picSlot s.picS))
  else none

/-! ### The machine's invariant -/

/-- A controller chip between atomic steps: a configured chip is in no sequence and has every initialisation byte; a chip in
its sequence has those it has taken; a mask belongs to a configured chip. -/
structure PicSound (p : Pic) : Prop where
  configured : p.configured = true → p.step = 0 ∧ p.base.isSome ∧ p.icw3.isSome ∧ p.icw4.isSome
  afterBase : p.step = 2 ∨ p.step = 1 → p.base.isSome
  afterWiring : p.step = 1 → p.icw3.isSome
  masked : p.imr.isSome → p.configured = true

/-- The part of the invariant that holds inside operations too, at every boundary of theirs. -/
structure Sound (s : State) : Prop where
  /-- The parameters meet R7's constraints. -/
  config : s.cfg.wf = true
  /-- Memory is in its canonical form. -/
  memory : Memory.wf s.cfg s.mem = true
  /-- The foreground is the context and no internal word is pending. -/
  foreground : s.ctx = .fg
  noWork : s.work = []
  running : s.fault = none ∧ s.refusal = none
  master : PicSound s.picM
  slave : PicSound s.picS
  /-- Interrupts are enabled only after set-up (R104, R153). -/
  enabled : s.intFlag = true → setupDone s = true
  /-- No line is in service (R118, R126), and nothing asserts a slave line (R119). -/
  service : s.picM.insvc = 0 ∧ s.picS.insvc = 0 ∧ s.picS.irr = 0
  /-- The table register holds what IDT.LOAD gives it (R95). -/
  table : ∀ t, s.idtr = some t → t = ⟨s.cfg.idtBase, s.cfg.idtLimit⟩
  /-- The Terminal's colours are fixed for the session (R35 d). -/
  colours : ∀ t, s.term = some t → t.fgc = fgDefault ∧ t.bgc = bgDefault

/-- The invariant every step keeps. -/
structure Inv (s : State) : Prop extends Sound s where
  /-- R35 (b): the column is 0..79 between operations. -/
  cursor : CursorInGrid s

/-- A console with the timer silent that has booted and runs (R139, R147), inside operations too: sound, its ring filled in
order, interrupts on, the handler installed, the masks and bases of R63 and R64, no line but the keyboard's pending, and the
foreground loop as the rest of the stream. -/
structure Running (s : State) : Prop extends Sound s where
  /-- The ring is filled as Q.PUT and Q.READ leave it (R20, R89, R90). -/
  queue : QueueSound s
  interruptsOn : s.intFlag = true
  built : s.term.isSome
  timerSilent : s.cfg.envTimerAsserts = false
  loaded : s.idtr = some ⟨s.cfg.idtBase, s.cfg.idtLimit⟩
  live : idtEntry s s.cfg.kbdVector.toNat = some (mkdesc s.cfg s.cfg.handlerAddr)
  routed : s.picM.base = some s.cfg.icw2M ∧ s.picM.imr = some s.cfg.maskM
  onlyKeyboard : ∀ l : Line, s.picM.irr.getLsbD l.val = true → l = s.cfg.kbdLine
  /-- The keyboard line is pending only while a byte is latched (R76, R114). -/
  latch : s.picM.irr.getLsbD s.cfg.kbdLine.val = true → kbdFull s = true
  looping : s.stream = [] ∧ s.mainLoop = true

/-- The console after its boot (R139), between operations. -/
structure Booted (s : State) : Prop extends Running s where
  /-- R35 (b). -/
  cursor : CursorInGrid s

end Sys2Proof.Machine
end

