-- ==== Sys2Proof/Certificates/Slice0/Obligations.lean ====
section
/-! DEFINITION. The statements. A statement gives a next state whole, as the state before with the named fields replaced, so
that every field it does not name is unchanged; memory is described byte by byte. Undisturbed (Safety.lean) says that the
schedule lets nothing fall into the operation; the statements that do not assume it hold for every schedule. -/

open Sys2Proof Sys2Proof.Machine

/-! ### Encodings -/

/-- R53 to R66: no operand of any row is dropped by its bytes. The operand layout of the operations is the model's
(notes/assumptions/4.md). -/
def Obligations.DecodeEncodeAgree : Prop :=
  ∀ (cfg : Config) (i : Instr) (rest : List Byte), cfg.wf = true → WellFormed i = true →
    decodeIn cfg i.space (encode cfg i ++ rest) = .ok (i, rest)

/-- The decoder reads nothing but encodings: what it answers is well formed, stands in the space it was read in, and its
encoding is the very bytes that were read (operand layout: notes/assumptions/4.md). -/
def Obligations.DecodedBytesAreTheEncoding : Prop :=
  ∀ (cfg : Config) (sp : Space) (bs : List Byte) (i : Instr) (rest : List Byte),
    decodeIn cfg sp bs = .ok (i, rest) → i.space = sp ∧ WellFormed i = true ∧ bs = encode cfg i ++ rest

/-- Sanity, at the default parameters (R7): fourteen words written out from R53, R54, R58, R60, R62 to R66, multi-byte ones low
byte first (R40), decode to what they stand for, and a code outside R66 is refused (R68 a). -/
def Obligations.SpecWordsDecode : Prop :=
  decode [0x20] = .ok (.termInit, []) ∧ decode [0x63, 0x62] = .ok (.mainStep, [0x62]) ∧
  decode [0x22, 0x41] = .ok (.termPutchar 0x41, []) ∧ decode [0x02] = .error (.unknownOperation 0x02) ∧
  decodeIn Config.default .scancode [0x9E] = .ok (.scRelease 0x1E, []) ∧
  decodeIn Config.default .scancode [0x1E] = .ok (.scPress 0x1E, []) ∧
  decodeIn Config.default .cell [0x58, 0x1F] = .ok (.cell 1 15 0x58, []) ∧
  decodeIn Config.default .attr [0x07] = .ok (.attr 0 7, []) ∧
  decodeIn Config.default .descriptor [0x34, 0x12, 0x08, 0x00, 0x00, 0x8E, 0x10, 0x00] =
    .ok (.desc 0x0010 0x8E00 0x0008 0x1234, []) ∧
  decodeIn Config.default .descriptor [0, 0, 0, 0, 0, 0, 0, 0] = .ok (.descEmpty, []) ∧
  decodeIn Config.default .crtcCommand [0x0E] = .ok (.crtcSelHi, []) ∧
  decodeIn Config.default .crtcCommand [0x0F] = .ok (.crtcSelLo, []) ∧
  decodeIn Config.default (.picCommand .master) [0x11] = .ok (.picIcw1 .master, []) ∧
  decodeIn Config.default (.picCommand .slave) [0x20] = .ok (.picEoiByte .slave, []) ∧
  decodeIn Config.default (.picData .master .mask) [0xF8] = .ok (.picMaskM 0xF8, [])

/-- R54: the attribute byte is the background above the foreground and the high byte of the cell; its top bit is the
background's, and nothing else. -/
def Obligations.AttributeByteFormat : Prop :=
  ∀ (bg fg : Colour) (ch : Byte),
    mkattr fg bg = bg ++ fg ∧ (mkattr fg bg).extractLsb' 4 4 = bg ∧ (mkattr fg bg).extractLsb' 0 4 = fg ∧
    (mkcell ch fg bg).extractLsb' 8 8 = mkattr fg bg ∧ (mkattr fg bg).getLsbD 7 = bg.getLsbD 3

/-- R53, R56, R60: the fields of a cell and of a descriptor, and the rows CELL, ATTR, DESC and DESC.EMPTY, which return the
value they denote and change nothing else (the rows' effect is the model's: notes/assumptions/7.md). -/
def Obligations.DataFormatsPack : Prop :=
  ∀ (bg fg : Colour) (ch : Byte) (h a sel l : BitVec 16) (s : State),
    (mkcell ch fg bg).toNat = ch.toNat + 256 * fg.toNat + 4096 * bg.toNat ∧
    (mkcell ch fg bg).extractLsb' 12 4 = bg ∧ (mkcell ch fg bg).extractLsb' 8 4 = fg ∧
    (mkcell ch fg bg).extractLsb' 0 8 = ch ∧
    (descriptorOf h a sel l).extractLsb' 48 16 = h ∧ (descriptorOf h a sel l).extractLsb' 32 16 = a ∧
    (descriptorOf h a sel l).extractLsb' 16 16 = sel ∧ (descriptorOf h a sel l).extractLsb' 0 16 = l ∧
    (descriptorOf h a sel l).getLsbD 47 = a.getLsbD 15 ∧
    exec (.cell bg fg ch) s = .next { s with result := .cell (mkcell ch fg bg) } ∧
    exec (.attr bg fg) s = .next { s with result := .byte (mkattr fg bg) } ∧
    exec (.desc h a sel l) s = .next { s with result := .descriptor (descriptorOf h a sel l) } ∧
    exec .descEmpty s = .next { s with result := .descriptor 0 }

/-- R58: every byte is a scancode, bit 7 tells release from press, bits 6:0 are the code, which indexes SCTAB, and a key-up
byte is the key-down byte plus 0x80. -/
def Obligations.ScancodeByteFormat : Prop :=
  (∀ b : Byte, decodeScancode b =
    if b.getLsbD 7 then .scRelease (b.extractLsb' 0 7) else .scPress (b.extractLsb' 0 7)) ∧
  (∀ (cfg : Config) (b : Byte), isPressed b = !b.getLsbD 7 ∧ keyCode b = b.extractLsb' 0 7 ∧
    scanTable cfg (keyCode b) = cfg.scTab[b.toNat % 128]'(Nat.mod_lt _ (by decide))) ∧
  ∀ k : KeyCode, scancodeByte true k = scancodeByte false k + 0x80 ∧ (scancodeByte false k).toNat = k.toNat ∧
    keyCode (scancodeByte true k) = k ∧ keyCode (scancodeByte false k) = k

/-- R57: the linear offset, its two bytes, its bound inside the grid and its inverse. -/
def Obligations.OffsetAndItsBytes : Prop :=
  ∀ x y : Nat, cellOffset x y = y * 80 + x ∧
    (highByte (cursorOffset x y)).toNat = cellOffset x y / 256 % 256 ∧
    (lowByte (cursorOffset x y)).toNat = cellOffset x y % 256 ∧
    (x < 80 → y < 25 → cellOffset x y ≤ 1999 ∧ (highByte (cursorOffset x y)).toNat ≤ 7 ∧
      cellOffset x y / 80 = y ∧ cellOffset x y % 80 = x)

/-! ### Port I/O and the device bytes -/

/-- R75 at CRTC_CMD and CRTC_DATA: the write is logged, the register that is selected takes the byte, anything else is
refused. -/
def Obligations.OutbDrivesCursorPorts : Prop :=
  ∀ (s : State) (b : Byte), s.cfg.wf = true →
    (b = s.cfg.cursorSelHi ∨ b = s.cfg.cursorSelLo → exec (.outb s.cfg.crtcCmd b) s =
      .next { s with crtc := { s.crtc with index := some b }, iotrace := s.iotrace ++ [⟨.w, s.cfg.crtcCmd, b⟩],
                     result := .none }) ∧
    (b ≠ s.cfg.cursorSelHi → b ≠ s.cfg.cursorSelLo → exec (.outb s.cfg.crtcCmd b) s =
      .refused (.portProtocol { s with iotrace := s.iotrace ++ [⟨.w, s.cfg.crtcCmd, b⟩],
                                       refusal := some .portProtocol })) ∧
    (s.crtc.index = some s.cfg.cursorSelHi → exec (.outb s.cfg.crtcData b) s =
      .next { s with crtc := { s.crtc with cursorHi := some b }, iotrace := s.iotrace ++ [⟨.w, s.cfg.crtcData, b⟩],
                     result := .none }) ∧
    (s.crtc.index = some s.cfg.cursorSelLo → exec (.outb s.cfg.crtcData b) s =
      .next { s with crtc := { s.crtc with cursorLo := some b }, iotrace := s.iotrace ++ [⟨.w, s.cfg.crtcData, b⟩],
                     result := .none }) ∧
    (s.crtc.index ≠ some s.cfg.cursorSelHi → s.crtc.index ≠ some s.cfg.cursorSelLo →
      exec (.outb s.cfg.crtcData b) s =
        .refused (.portProtocol { s with iotrace := s.iotrace ++ [⟨.w, s.cfg.crtcData, b⟩],
                                         refusal := some .portProtocol }))

/-- R75 at a controller's command port: ICW1 starts the sequence unless interrupts are on, EOI_BYTE to a configured chip
clears its lowest line in service, any other byte is refused. -/
def Obligations.OutbDrivesControllerCommand : Prop :=
  ∀ (s : State) (c : Chip) (b : Byte), s.cfg.wf = true →
    let logged : State := { s with iotrace := s.iotrace ++ [⟨.w, picCommandPort s.cfg c, b⟩] }
    let refused : Out State := .refused (.portProtocol { logged with refusal := some .portProtocol })
    (b = s.cfg.icw1 → s.intFlag = false → exec (.outb (picCommandPort s.cfg c) b) s =
      .next (setPic c { pic s c with step := 3, configured := false, insvc := 0, imr := none }
        { logged with result := .none })) ∧
    (b = s.cfg.icw1 → s.intFlag = true → exec (.outb (picCommandPort s.cfg c) b) s = refused) ∧
    (b = s.cfg.eoiByte → (pic s c).configured = true → exec (.outb (picCommandPort s.cfg c) b) s =
      .next (setPic c { pic s c with insvc := acknowledge (pic s c).insvc } { logged with result := .none })) ∧
    (b = s.cfg.eoiByte → (pic s c).configured = false → exec (.outb (picCommandPort s.cfg c) b) s = refused) ∧
    (b ≠ s.cfg.icw1 → b ≠ s.cfg.eoiByte → exec (.outb (picCommandPort s.cfg c) b) s = refused)

/-- R75 at a controller's data port: ICW2, ICW3 and ICW4 in turn after ICW1, then the mask of a configured chip. -/
def Obligations.OutbDrivesControllerData : Prop :=
  ∀ (s : State) (c : Chip) (b : Byte), s.cfg.wf = true →
    let logged : State := { s with iotrace := s.iotrace ++ [⟨.w, picDataPort s.cfg c, b⟩] }
    ((pic s c).step = 3 → exec (.outb (picDataPort s.cfg c) b) s =
      .next (setPic c { pic s c with base := some b, step := 2 } { logged with result := .none })) ∧
    ((pic s c).step = 2 → exec (.outb (picDataPort s.cfg c) b) s =
      .next (setPic c { pic s c with icw3 := some b, step := 1 } { logged with result := .none })) ∧
    ((pic s c).step = 1 → exec (.outb (picDataPort s.cfg c) b) s =
      .next (setPic c { pic s c with icw4 := some b, step := 0, configured := true } { logged with result := .none })) ∧
    ((pic s c).step = 0 → (pic s c).configured = true → exec (.outb (picDataPort s.cfg c) b) s =
      .next (setPic c { pic s c with imr := some b } { logged with result := .none })) ∧
    ((pic s c).step = 0 → (pic s c).configured = false → exec (.outb (picDataPort s.cfg c) b) s =
      .refused (.portProtocol { logged with refusal := some .portProtocol }))

/-- R75, R45: a write to a port no device of the block takes bytes at is refused; the keyboard's port is one. -/
def Obligations.OutbElsewhereRefused : Prop :=
  ∀ (s : State) (p : Port) (b : Byte), s.cfg.wf = true →
    (legalPort s.cfg p = false ∨ p = s.cfg.kbdDataPort) → exec (.outb p b) s =
      .refused (.portProtocol { s with iotrace := s.iotrace ++ [⟨.w, p, b⟩], refusal := some .portProtocol })

/-- R62 to R65, R75: OUTB logs the write and then is the row its byte stands for at that port; where no row of the table
stands there it is refused. That the rows mean their devices' reactions is the model's (notes/assumptions/6.md). -/
def Obligations.OutbRunsTheDeviceRow : Prop :=
  ∀ (s : State) (p : Port) (b : Byte),
    let logged : State := { s with iotrace := s.iotrace ++ [⟨.w, p, b⟩] }
    (∀ sp i, portSpace s p = some sp → decodeIn s.cfg sp [b] = .ok (i, []) → exec (.outb p b) s = exec i logged) ∧
    ((∀ sp i, portSpace s p = some sp → decodeIn s.cfg sp [b] ≠ .ok (i, [])) →
      exec (.outb p b) s = .refused (.portProtocol { logged with refusal := some .portProtocol }))

/-- R62 to R65, R75: what each of the thirteen port bytes makes of its device, where it stands in its protocol (the rows'
meaning: notes/assumptions/6.md). -/
def Obligations.DeviceRowsReact : Prop :=
  ∀ (s : State) (c : Chip) (v : Byte),
    exec .crtcSelHi s = .next { s with crtc := { s.crtc with index := some s.cfg.cursorSelHi }, result := .none } ∧
    exec .crtcSelLo s = .next { s with crtc := { s.crtc with index := some s.cfg.cursorSelLo }, result := .none } ∧
    (s.crtc.index = some s.cfg.cursorSelHi →
      exec (.crtcDataHi v) s = .next { s with crtc := { s.crtc with cursorHi := some v }, result := .none }) ∧
    (s.crtc.index = some s.cfg.cursorSelLo →
      exec (.crtcDataLo v) s = .next { s with crtc := { s.crtc with cursorLo := some v }, result := .none }) ∧
    (s.intFlag = false → exec (.picIcw1 c) s =
      .next (setPic c { pic s c with step := 3, configured := false, insvc := 0, imr := none }
        { s with result := .none })) ∧
    (s.picM.step = 3 →
      exec (.picIcw2M v) s = .next { s with picM := { s.picM with base := some v, step := 2 }, result := .none }) ∧
    (s.picS.step = 3 →
      exec (.picIcw2S v) s = .next { s with picS := { s.picS with base := some v, step := 2 }, result := .none }) ∧
    (s.picM.step = 2 →
      exec (.picIcw3M v) s = .next { s with picM := { s.picM with icw3 := some v, step := 1 }, result := .none }) ∧
    (s.picS.step = 2 →
      exec (.picIcw3S v) s = .next { s with picS := { s.picS with icw3 := some v, step := 1 }, result := .none }) ∧
    ((pic s c).step = 1 → exec (.picIcw4 c v) s =
      .next (setPic c { pic s c with icw4 := some v, step := 0, configured := true } { s with result := .none })) ∧
    (s.picM.step = 0 → s.picM.configured = true →
      exec (.picMaskM v) s = .next { s with picM := { s.picM with imr := some v }, result := .none }) ∧
    (s.picS.step = 0 → s.picS.configured = true →
      exec (.picMaskS v) s = .next { s with picS := { s.picS with imr := some v }, result := .none }) ∧
    ((pic s c).configured = true → exec (.picEoiByte c) s =
      .next (setPic c { pic s c with insvc := acknowledge (pic s c).insvc } { s with result := .none }))

/-- R75, R68 (e): a port byte outside its place in the protocol is refused (the rows' meaning: notes/assumptions/6.md). -/
def Obligations.MisplacedDeviceRowsRefused : Prop :=
  ∀ (s : State) (c : Chip) (v : Byte),
    let refused : Out State := .refused (.portProtocol { s with refusal := some .portProtocol })
    (s.crtc.index ≠ some s.cfg.cursorSelHi → exec (.crtcDataHi v) s = refused) ∧
    (s.crtc.index ≠ some s.cfg.cursorSelLo → exec (.crtcDataLo v) s = refused) ∧
    (s.intFlag = true → exec (.picIcw1 c) s = refused) ∧
    (s.picM.step ≠ 3 → exec (.picIcw2M v) s = refused) ∧ (s.picS.step ≠ 3 → exec (.picIcw2S v) s = refused) ∧
    (s.picM.step ≠ 2 → exec (.picIcw3M v) s = refused) ∧ (s.picS.step ≠ 2 → exec (.picIcw3S v) s = refused) ∧
    ((pic s c).step ≠ 1 → exec (.picIcw4 c v) s = refused) ∧
    (s.picM.step ≠ 0 ∨ s.picM.configured = false → exec (.picMaskM v) s = refused) ∧
    (s.picS.step ≠ 0 ∨ s.picS.configured = false → exec (.picMaskS v) s = refused) ∧
    ((pic s c).configured = false → exec (.picEoiByte c) s = refused)

/-- R75: what an end-of-interrupt byte does to the lines in service. -/
def Obligations.EoiClearsTheLowestLine : Prop :=
  acknowledge 0 = 0 ∧
  ∀ (x : BitVec 8) (l : Line), x.getLsbD l.val = true → (∀ j : Line, j < l → x.getLsbD j.val = false) →
    ∀ k : Line, (acknowledge x).getLsbD k.val = (x.getLsbD k.val && decide (k ≠ l))

/-- R76: the keyboard's port gives the latched byte and empties the latch; an empty latch faults; any other port is
refused. -/
def Obligations.InbTakesTheLatchedByte : Prop :=
  ∀ (s : State) (p : Port) (b : Byte),
    (s.kbd = .full b → exec (.inb s.cfg.kbdDataPort) s =
      .next { s with kbd := .read b, iotrace := s.iotrace ++ [⟨.r, s.cfg.kbdDataPort, b⟩], result := .byte b }) ∧
    (kbdFull s = false →
      exec (.inb s.cfg.kbdDataPort) s = .fault (.kbdLatchEmpty { s with fault := some .kbdLatchEmpty })) ∧
    (p ≠ s.cfg.kbdDataPort →
      exec (.inb p) s = .refused (.portProtocol { s with refusal := some .portProtocol }))

/-! ### The Screen driver -/

/-- R77, R78, R39, R40: an offset below 2000 stores, its character at the lower address, and returns the cell; no other byte
of memory and nothing else changes. -/
def Obligations.PutglyphStoresOneCell : Prop :=
  ∀ (s : State) (ch : Byte) (fg bg : Colour) (cell : GlyphCell) (x y : Nat),
    Memory.wf s.cfg s.mem = true → y * 80 + x < 2000 →
    (∃ t, exec (.putglyphCell cell x y) s = .next t ∧ t = { s with mem := t.mem, result := .cell cell } ∧
      vram t (y * 80 + x) = some cell ∧
      byteAt t (s.cfg.videoBase.toNat + 2 * (y * 80 + x)) = some (cell.extractLsb' 0 8) ∧
      byteAt t (s.cfg.videoBase.toNat + 2 * (y * 80 + x) + 1) = some (cell.extractLsb' 8 8) ∧
      ∀ a, a ≠ s.cfg.videoBase.toNat + 2 * (y * 80 + x) → a ≠ s.cfg.videoBase.toNat + 2 * (y * 80 + x) + 1 →
        byteAt t a = byteAt s a) ∧
    exec (.putglyphCfb ch fg bg x y) s = exec (.putglyphCell (mkcell ch fg bg) x y) s

/-- R78, R111: an offset of 2000 or more faults and stores nothing; a position with y of 25 or more always does. -/
def Obligations.PutglyphOutsideFaults : Prop :=
  ∀ (s : State) (ch : Byte) (fg bg : Colour) (cell : GlyphCell) (x y : Nat), (2000 ≤ y * 80 + x ∨ 25 ≤ y) →
    exec (.putglyphCell cell x y) s =
      .fault (.outOfWindow (y * 80 + x) { s with fault := some (.outOfWindow (y * 80 + x)) }) ∧
    exec (.putglyphCfb ch fg bg x y) s =
      .fault (.outOfWindow (y * 80 + x) { s with fault := some (.outOfWindow (y * 80 + x)) })

/-- R79, R62: SETCURSOR sends the low 16 bits of the offset in four port writes, whatever the position. -/
def Obligations.SetcursorSendsTheOffset : Prop :=
  ∀ (s : State) (x y : Nat), s.cfg.wf = true → Undisturbed s →
    exec (.setcursor x y) s =
      .next { s with
        crtc := ⟨some s.cfg.cursorSelLo, some (highByte (cursorOffset x y)), some (lowByte (cursorOffset x y))⟩
        iotrace := s.iotrace ++
          [⟨.w, s.cfg.crtcCmd, s.cfg.cursorSelHi⟩, ⟨.w, s.cfg.crtcData, highByte (cursorOffset x y)⟩,
           ⟨.w, s.cfg.crtcCmd, s.cfg.cursorSelLo⟩, ⟨.w, s.cfg.crtcData, lowByte (cursorOffset x y)⟩]
        result := .none }

/-! ### The Terminal -/

/-- R81: TERM.INIT blanks both grids, puts the cursor at (0,0), sets the colours, and writes no port. -/
def Obligations.TermInitBlanksTheScreen : Prop :=
  ∀ s : State, s.cfg.wf = true → Memory.wf s.cfg s.mem = true → Undisturbed s →
    ∃ t, exec .termInit s = .next t ∧
      t = { s with
        mem := t.mem
        term := some ⟨0, 0, 7, 0, Vector.replicate 2000 (mkcell s.cfg.space 7 0)⟩
        result := .none } ∧
      (∀ off < 2000, vram t off = some (mkcell s.cfg.space 7 0)) ∧
      ∀ a, ¬ inWindow s.cfg a → byteAt t a = byteAt s a

/-- R83: TERM.PUTCHAR, from a column inside the grid (R17, R35 b), makes of the Terminal what the reference charPut says,
synchronises the cursor in every branch, and keeps grid and screen the same. What it stores: nothing for NEWLINE above the
last row; one cell, and no other byte, for a character that scrolls nothing; every cell of the window where it scrolls; no
byte outside the window ever. -/
def Obligations.TermPutcharWrites : Prop :=
  ∀ (s : State) (t : Terminal) (ch : Byte), s.cfg.wf = true → Undisturbed s → s.term = some t → t.col < 80 →
    ∃ u, exec (.termPutchar ch) s = .next u ∧
      u = { s with
        mem := u.mem
        term := some (charPut s.cfg ch t)
        crtc := cursorAt s.cfg (charPut s.cfg ch t).col (charPut s.cfg ch t).row.val
        iotrace := s.iotrace ++ cursorTrace s.cfg (charPut s.cfg ch t).col (charPut s.cfg ch t).row.val
        result := .none } ∧
      (ch = s.cfg.newline → t.row ≠ 24 → u.mem = s.mem) ∧
      (ch ≠ s.cfg.newline → t.row ≠ 24 ∨ t.col + 1 < 80 →
        (Memory.wf s.cfg s.mem = true → vram u (t.row.val * 80 + t.col) = some (mkcell ch t.fgc t.bgc)) ∧
        ∀ a, a ≠ cellAddress s.cfg (t.row.val * 80 + t.col) → a ≠ cellAddress s.cfg (t.row.val * 80 + t.col) + 1 →
          byteAt u a = byteAt s a) ∧
      (t.row = 24 → ch = s.cfg.newline ∨ t.col + 1 = 80 → Memory.wf s.cfg s.mem = true → Mirrored u) ∧
      (Memory.wf s.cfg s.mem = true → Mirrored s → Mirrored u) ∧
      ∀ a, ¬ inWindow s.cfg a → byteAt u a = byteAt s a

/-- R84: TERM.ADDLINE above the last row only moves; on the last row every row takes the one below it, the last row is
blank, and the screen shows the new grid whatever it showed before (R148). The cursor registers are left alone. -/
def Obligations.TermAddlineMovesOrScrolls : Prop :=
  ∀ (s : State) (t : Terminal), s.cfg.wf = true → Undisturbed s → s.term = some t →
    (∀ h : t.row.val + 1 < 25, exec .termAddline s =
      .next { s with term := some { t with row := ⟨t.row.val + 1, h⟩, col := 0 }, result := .none }) ∧
    (t.row = 24 → ∃ u g, exec .termAddline s = .next u ∧
      u = { s with mem := u.mem, term := some { t with shadow := g, col := 0 }, result := .none } ∧
      (∀ (r : Nat) (hr : r < 24) (c : Nat) (hc : c < 80),
        g[r * 80 + c]'(by omega) = t.shadow[(r + 1) * 80 + c]'(by omega)) ∧
      (∀ (c : Nat) (hc : c < 80), g[24 * 80 + c]'(by omega) = mkcell s.cfg.space t.fgc t.bgc) ∧
      (Memory.wf s.cfg s.mem = true → Mirrored u) ∧
      ∀ a, ¬ inWindow s.cfg a → byteAt u a = byteAt s a)

/-- R82, R85 (e): TERM.WRITE, from a column inside the grid (R17, R35 b), is TERM.PUTCHAR of its first character and then
TERM.WRITE of the others; the empty text does nothing. So the Terminal is the fold of charPut, with four port writes for each
character. -/
def Obligations.TermWriteIsCharByChar : Prop :=
  ∀ (s : State) (t : Terminal) (text : List Byte), s.cfg.wf = true → Undisturbed s → s.term = some t → t.col < 80 →
    (∀ ch rest, text = ch :: rest →
      exec (.termWrite text) s = andThen (exec (.termPutchar ch) s) (exec (.termWrite rest))) ∧
    ∃ u, exec (.termWrite text) s = .next u ∧
      u = { s with mem := u.mem, crtc := u.crtc, iotrace := u.iotrace,
                   term := some (text.foldl (fun t ch => charPut s.cfg ch t) t), result := .none } ∧
      (∃ l, u.iotrace = s.iotrace ++ l ∧ l.length = 4 * text.length) ∧
      (text = [] → u = { s with result := .none }) ∧
      (text ≠ [] → CursorSynced u) ∧
      (Memory.wf s.cfg s.mem = true → Mirrored s → Mirrored u) ∧
      ∀ a, ¬ inWindow s.cfg a → byteAt u a = byteAt s a

/-- R85 (a), (d): 80 characters from column 0 above the last row end at column 0 of the next row; n characters from the top
left put the cursor n cells further, up to the scroll at 2000. -/
def Obligations.CharactersWrapByColumn : Prop :=
  ∀ (cfg : Config) (t : Terminal) (text : List Byte), (∀ ch ∈ text, ch ≠ cfg.newline) →
    (t.col = 0 → text.length = 80 → ∀ h : t.row.val + 1 < 25,
      (text.foldl (fun t ch => charPut cfg ch t) t).col = 0 ∧
      (text.foldl (fun t ch => charPut cfg ch t) t).row = ⟨t.row.val + 1, h⟩) ∧
    (t.row = 0 → t.col = 0 →
      (text.length < 2000 → (text.foldl (fun t ch => charPut cfg ch t) t).row.val * 80 +
        (text.foldl (fun t ch => charPut cfg ch t) t).col = text.length) ∧
      (text.length = 2000 → (text.foldl (fun t ch => charPut cfg ch t) t).row = 24 ∧
        (text.foldl (fun t ch => charPut cfg ch t) t).col = 0))

/-- R80 (e): before TERM.INIT the other three are refused, TERM.WRITE of the empty text too. -/
def Obligations.TerminalMustBeConstructed : Prop :=
  ∀ (s : State) (ch : Byte) (text : List Byte), s.term = none →
    let refused : Out State := .refused (.terminalNotConstructed { s with refusal := some .terminalNotConstructed })
    exec (.termPutchar ch) s = refused ∧ exec (.termWrite text) s = refused ∧ exec .termAddline s = refused

/-- R35 (a), R85 (c), for every schedule: whatever interrupts fall into them, the Terminal's operations and MAIN.STEP that
complete, from a column inside the grid, keep grid and screen the same, and TERM.INIT makes them so. -/
def Obligations.ScreenMirrorsTheGrid : Prop :=
  ∀ (s u : State) (i : Instr), s.cfg.wf = true → Memory.wf s.cfg s.mem = true → CursorInGrid s →
    exec i s = .next u →
    (i = .termInit → Mirrored u) ∧
    ((∃ ch, i = .termPutchar ch) ∨ (∃ text, i = .termWrite text) ∨ i = .termAddline ∨ i = .mainStep →
      Mirrored s → Mirrored u)

/-- R48: what the seven display operations do, from a column inside the grid, to memory, the cursor registers, the Terminal
and everything else of the foreground's does not depend on what the schedule lets fall into them. -/
def Obligations.DisplayIgnoresTheSchedule : Prop :=
  ∀ (s t u : State) (i : Instr), s.cfg.wf = true → CursorInGrid s →
    ((∃ ch fg bg x y, i = .putglyphCfb ch fg bg x y) ∨ (∃ cell x y, i = .putglyphCell cell x y) ∨
      (∃ x y, i = .setcursor x y) ∨ i = .termInit ∨ (∃ text, i = .termWrite text) ∨ (∃ ch, i = .termPutchar ch) ∨
      i = .termAddline) →
    exec i s = .next t → exec i { s with sched := [] } = .next u → ForegroundKept u t

/-! ### The keyboard -/

/-- R86, R87: KBD.DECODE looks bits 6:0 up and copies the five flags; no state changes but what it returns. -/
def Obligations.KbdDecodeLooksUp : Prop :=
  ∀ (s : State) (sc : Byte) (pressed ls rs ctrl alt : Bool),
    exec (.kbdDecode sc pressed ls rs ctrl alt) s =
      .next { s with result := .event ⟨s.cfg.scTab[sc.toNat % 128]'(by omega), pressed, ls, rs, ctrl, alt⟩ }

/-- R74, R100: the class of a key code, and the modifier update, which changes at most one flag. -/
def Obligations.ModifierUpdate : Prop :=
  ∀ (cfg : Config) (m : Mods) (b : Byte), cfg.modifiersDistinct = true →
    (∀ k : KeyCode, (modclass cfg k = .lshift ↔ k = cfg.scLshift) ∧ (modclass cfg k = .rshift ↔ k = cfg.scRshift) ∧
      (modclass cfg k = .ctrl ↔ k = cfg.scCtrl) ∧ (modclass cfg k = .alt ↔ k = cfg.scAlt) ∧
      (modclass cfg k = .none ↔ k ≠ cfg.scLshift ∧ k ≠ cfg.scRshift ∧ k ≠ cfg.scCtrl ∧ k ≠ cfg.scAlt)) ∧
    (b.extractLsb' 0 7 = cfg.scLshift → modupdate cfg m b = { m with lshift := !b.getLsbD 7 }) ∧
    (b.extractLsb' 0 7 = cfg.scRshift → modupdate cfg m b = { m with rshift := !b.getLsbD 7 }) ∧
    (b.extractLsb' 0 7 = cfg.scCtrl → modupdate cfg m b = { m with ctrl := !b.getLsbD 7 }) ∧
    (b.extractLsb' 0 7 = cfg.scAlt → modupdate cfg m b = { m with alt := !b.getLsbD 7 }) ∧
    (b.extractLsb' 0 7 ≠ cfg.scLshift → b.extractLsb' 0 7 ≠ cfg.scRshift → b.extractLsb' 0 7 ≠ cfg.scCtrl →
      b.extractLsb' 0 7 ≠ cfg.scAlt → modupdate cfg m b = m)

/-- R101 (a), (b): between left shift's key-down byte and its key-up byte, whatever bytes of other keys come, the flag is
true; after the key-up byte it is false and the other three flags are as the other bytes alone leave them. -/
def Obligations.LeftShiftDownThenUp : Prop :=
  ∀ (cfg : Config) (m : Mods) (bs : List Byte), cfg.modifiersDistinct = true →
    (∀ b ∈ bs, b.extractLsb' 0 7 ≠ cfg.scLshift) →
    let run (m : Mods) (l : List Byte) : Mods := l.foldl (modupdate cfg) m
    (run m (scancodeByte false cfg.scLshift :: bs)).lshift = true ∧
    run m (scancodeByte false cfg.scLshift :: bs ++ [scancodeByte true cfg.scLshift]) =
      { run m bs with lshift := false }

/-- R99: the handler body with a byte latched: the byte read, the modifiers updated, the event with the flags as updated
queued, both chips acknowledged, three entries logged; with no byte latched it faults (R76). -/
def Obligations.KbdIsrServesOneByte : Prop :=
  ∀ (s : State) (b : Byte), s.cfg.wf = true →
    (s.kbd = .full b → s.picM.configured = true → s.picS.configured = true →
      let m := modupdate s.cfg s.mods b
      let e : KeyEvent := ⟨scanTable s.cfg (b.extractLsb' 0 7), !b.getLsbD 7, m.lshift, m.rshift, m.ctrl, m.alt⟩
      exec .kbdIsr s =
        .next { s with
          kbd := .read b
          mods := m
          ring := s.ring.set s.wr.val (some e) s.wr.isLt
          wr := s.wr + 1
          picM := { s.picM with insvc := acknowledge s.picM.insvc }
          picS := { s.picS with insvc := acknowledge s.picS.insvc }
          iotrace := s.iotrace ++ [⟨.r, s.cfg.kbdDataPort, b⟩, ⟨.w, s.cfg.picMCmd, s.cfg.eoiByte⟩,
            ⟨.w, s.cfg.picSCmd, s.cfg.eoiByte⟩]
          result := .none }) ∧
    (kbdFull s = false → exec .kbdIsr s = .fault (.kbdLatchEmpty { s with fault := some .kbdLatchEmpty }))

/-- R114, R58: a scancode byte arrives. With nothing waiting and the latch empty it is latched and the keyboard line is
asserted; with the latch full it waits behind those that wait (the model's: notes/assumptions/6.md, 18.md). -/
def Obligations.ScancodesArriveOrWait : Prop :=
  ∀ (s : State) (k : KeyCode) (rel : Bool),
    let i : Instr := if rel then .scRelease k else .scPress k
    let b := scancodeByte rel k
    (s.keys = [] → kbdFull s = false → exec i s =
      .next { s with
        kbd := .full b
        picM := { s.picM with irr := s.picM.irr ||| 1#8 <<< s.cfg.kbdLine.val }
        result := .none }) ∧
    (kbdFull s = true → exec i s = .next { s with keys := s.keys ++ [b], result := .none }) ∧
    (∀ b' rest, s.keys = b' :: rest → kbdFull s = false → exec i s =
      .next { s with
        kbd := .full b'
        keys := rest ++ [b]
        picM := { s.picM with irr := s.picM.irr ||| 1#8 <<< s.cfg.kbdLine.val }
        result := .none })

/-! ### The queue -/

/-- R88: Q.INIT empties the ring, once. Whatever falls between its writes (R44, R48), of the foreground's own state it writes
RD alone, and with interrupts masked it completes on an empty ring. That interrupts fall between its writes and that it has
run from its first write on is the model's (notes/assumptions/11.md, 23.md). -/
def Obligations.QInitEmptiesOnce : Prop :=
  ∀ s : State,
    (s.queueBuilt = false → Undisturbed s → exec .qInit s =
      .next { s with rd := 0, wr := 0, ring := Vector.replicate 1024 none, queueBuilt := true, result := .none }) ∧
    (s.queueBuilt = false → s.intFlag = false → ∃ t, exec .qInit s = .next t ∧ t.rd = 0 ∧ t.wr = 0 ∧
      ∀ i : Fin 1024, t.ring[i.val]'i.isLt = none) ∧
    (s.cfg.wf = true → ∀ t, exec .qInit s = .next t →
      ForegroundKept { s with rd := 0, queueBuilt := true, result := .none } t) ∧
    (s.queueBuilt = true → exec .qInit s = .refused (.queueReinit { s with refusal := some .queueReinit }))

/-- R89, R73: Q.PUT stores at WR and advances WR modulo 1024, with no fullness test. -/
def Obligations.QPutStoresAndAdvances : Prop :=
  ∀ (s : State) (e : KeyEvent), ∃ t, exec (.qPut e) s = .next t ∧
    t = { s with ring := t.ring, wr := t.wr, result := .none } ∧ t.wr.val = (s.wr.val + 1) % 1024 ∧
    ∀ i : Fin 1024, t.ring[i.val]'i.isLt = if i = s.wr then some e else s.ring[i.val]'i.isLt

/-- R90, R91: Q.READ takes the slot at RD and advances RD modulo 1024, with no emptiness test, and faults on a slot that holds
no value; Q.ISEMPTY compares the indices. -/
def Obligations.QReadAndIsempty : Prop :=
  ∀ (s : State) (e : KeyEvent), Undisturbed s →
    (s.ring[s.rd.val]'s.rd.isLt = some e →
      exec .qRead s = .next { s with rd := s.rd + 1, result := .event e }) ∧
    (s.ring[s.rd.val]'s.rd.isLt = none →
      exec .qRead s = .fault (.unwrittenSlot s.rd.val { s with fault := some (.unwrittenSlot s.rd.val) })) ∧
    exec .qIsempty s = .next { s with result := .bool (decide (s.rd = s.wr)) }

/-- R92, R93: Q.INIT starts with no event put and none read; with the events es put and c of them read since the ring was
empty, the queue reports P - C modulo 1024; a put adds an event; a read of an unread event returns event number C, or the latest that overwrote it. -/
def Obligations.QueueKeepsItsHistory : Prop :=
  ∀ (es : List KeyEvent) (c : Nat) (s : State), QueueHistory es c s → Undisturbed s →
    (s.queueBuilt = false → ∃ t, exec .qInit s = .next t ∧ QueueHistory [] 0 t) ∧
    (c ≤ es.length → reported s = (es.length - c) % 1024) ∧
    (∀ e, ∃ t, exec (.qPut e) s = .next t ∧ QueueHistory (es ++ [e]) c t) ∧
    (c < es.length → ∃ t e, exec .qRead s = .next t ∧ t.result = .event e ∧ QueueHistory es (c + 1) t ∧
      (es.length ≤ c + 1024 → es[c]? = some e) ∧
      ∃ j, es[c + 1024 * j]? = some e ∧ c + 1024 * j < es.length ∧ es.length ≤ c + 1024 * (j + 1))

/-- R93, the document's FIFO property: N events put into an empty queue, N at most 1024, are returned by N reads in the order
they were put, and the queue is empty again. -/
def Obligations.QueueIsFifo : Prop :=
  ∀ (s : State) (es : List KeyEvent), Undisturbed s → s.rd = s.wr → es.length ≤ 1024 →
    ∃ t u, putAll es s = .next t ∧ readAll es.length t = .next (es.map Result.event, u) ∧ u.rd = u.wr

/-! ### Setting up the interrupt subsystem -/

/-- R94, R42, R45: IDT.BUILD makes one entry live and every other 0, as bytes, low byte first; no byte outside the table and
nothing else changes. -/
def Obligations.IdtBuildMakesOneEntryLive : Prop :=
  ∀ (s : State) (a : Address), s.cfg.wf = true → Memory.wf s.cfg s.mem = true → s.intFlag = false →
    ∃ t, exec (.idtBuild a) s = .next t ∧ t = { s with mem := t.mem, result := .none } ∧
      idtEntry t s.cfg.kbdVector.toNat = some (mkdesc s.cfg a) ∧
      (∀ i < 8, byteAt t (s.cfg.idtBase.toNat + 8 * s.cfg.kbdVector.toNat + i) =
        some ((mkdesc s.cfg a).extractLsb' (8 * i) 8)) ∧
      (∀ v < s.cfg.idtEntries, v ≠ s.cfg.kbdVector.toNat → idtEntry t v = some 0) ∧
      ∀ x, ¬ inTable s.cfg x → byteAt t x = byteAt s x

/-- R95, R61, R104 to R106: IDT.LOAD, INT.ENABLE, INT.DISABLE and HALT, each with the one register it writes. -/
def Obligations.ProcessorOperations : Prop :=
  ∀ s : State,
    (s.cfg.wf = true → s.intFlag = false → ∃ limit, limit.toNat = 8 * s.cfg.idtEntries - 1 ∧
      exec .idtLoad s = .next { s with idtr := some ⟨s.cfg.idtBase, limit⟩, result := .none }) ∧
    (s.idtr ≠ none → s.picM.configured = true → s.picS.configured = true → s.picM.imr ≠ none → s.picS.imr ≠ none →
      exec .intEnable s = .next { s with intFlag := true, result := .none }) ∧
    exec .intDisable s = .next { s with intFlag := false, result := .none } ∧
    exec .halt s = .next { s with halted := true, result := .none }

/-- R96, R63: PIC.INIT's eight port writes, and the state it leaves of both chips. -/
def Obligations.PicInitConfiguresBothChips : Prop :=
  ∀ s : State, s.cfg.wf = true → s.intFlag = false → Undisturbed s →
    exec .picInit s =
      .next { s with
        picM := { s.picM with configured := true, step := 0, base := some s.cfg.icw2M, icw3 := some s.cfg.icw3M,
                              icw4 := some s.cfg.icw4, imr := none, insvc := 0 }
        picS := { s.picS with configured := true, step := 0, base := some s.cfg.icw2S, icw3 := some s.cfg.icw3S,
                              icw4 := some s.cfg.icw4, imr := none, insvc := 0 }
        iotrace := s.iotrace ++
          [⟨.w, s.cfg.picMCmd, s.cfg.icw1⟩, ⟨.w, s.cfg.picSCmd, s.cfg.icw1⟩,
           ⟨.w, s.cfg.picMData, s.cfg.icw2M⟩, ⟨.w, s.cfg.picSData, s.cfg.icw2S⟩,
           ⟨.w, s.cfg.picMData, s.cfg.icw3M⟩, ⟨.w, s.cfg.picSData, s.cfg.icw3S⟩,
           ⟨.w, s.cfg.picMData, s.cfg.icw4⟩, ⟨.w, s.cfg.picSData, s.cfg.icw4⟩]
        result := .none }

/-- R97, R98, R64, R65: PIC.SETMASK and PIC.EOI to two configured chips, master first. -/
def Obligations.PicMaskAndAcknowledge : Prop :=
  ∀ s : State, s.cfg.wf = true → s.picM.configured = true → s.picS.configured = true →
    (Undisturbed s → s.picM.step = 0 → s.picS.step = 0 → exec .picSetmask s =
      .next { s with
        picM := { s.picM with imr := some s.cfg.maskM }
        picS := { s.picS with imr := some s.cfg.maskS }
        iotrace := s.iotrace ++ [⟨.w, s.cfg.picMData, s.cfg.maskM⟩, ⟨.w, s.cfg.picSData, s.cfg.maskS⟩]
        result := .none }) ∧
    exec .picEoi s =
      .next { s with
        picM := { s.picM with insvc := acknowledge s.picM.insvc }
        picS := { s.picS with insvc := acknowledge s.picS.insvc }
        iotrace := s.iotrace ++ [⟨.w, s.cfg.picMCmd, s.cfg.eoiByte⟩, ⟨.w, s.cfg.picSCmd, s.cfg.eoiByte⟩]
        result := .none }

/-- R94 to R97, R104, R153: set-up is refused with interrupts on, enabling before set-up, and a mask for a chip that is not
configured. -/
def Obligations.SetupOrderIsEnforced : Prop :=
  ∀ (s : State) (a : Address),
    (s.intFlag = true →
      let refused : Out State := .refused (.setupWithInterruptsOn { s with refusal := some .setupWithInterruptsOn })
      exec (.idtBuild a) s = refused ∧ exec .idtLoad s = refused ∧ exec .picInit s = refused) ∧
    ((s.idtr = none ∨ s.picM.configured = false ∨ s.picS.configured = false ∨ s.picM.imr = none ∨ s.picS.imr = none) →
      exec .intEnable s = .refused (.enableBeforeSetup { s with refusal := some .enableBeforeSetup })) ∧
    (s.cfg.wf = true → s.picM.step = 0 → s.picM.configured = false → exec .picSetmask s =
      .refused (.portProtocol { s with iotrace := s.iotrace ++ [⟨.w, s.cfg.picMData, s.cfg.maskM⟩],
                                       refusal := some .portProtocol }))

/-! ### The foreground loop -/

/-- R108: one turn of the loop halts on an empty queue; otherwise it takes one event and forwards it exactly when it is a
press with a character. -/
def Obligations.MainStepHaltsOrForwards : Prop :=
  ∀ (s : State) (e : KeyEvent), Undisturbed s →
    (s.rd = s.wr → exec .mainStep s = .next { s with halted := true, result := .none }) ∧
    (s.rd ≠ s.wr → s.ring[s.rd.val]'s.rd.isLt = some e → (e.pressed = false ∨ e.ch = 0) →
      exec .mainStep s = .next { s with rd := s.rd + 1, result := .none }) ∧
    (s.rd ≠ s.wr → s.ring[s.rd.val]'s.rd.isLt = some e → e.pressed = true → e.ch ≠ 0 →
      exec .mainStep s = exec (.termPutchar e.ch) { s with rd := s.rd + 1 })

/-- R146, R91 (a): the lost wakeup is there. On a console that has booted and is about to halt, with the queue empty, a byte
latched and its delivery falling between the test and the halt, the step ends in the hang: halted, the event unread, and no
action of the environment left. -/
def Obligations.LostWakeupHappens : Prop :=
  ∀ (s : State) (b : Byte), Booted s → s.rd = s.wr → s.halted = false → s.kbd = .full b →
    s.picM.irr.getLsbD s.cfg.kbdLine.val = true → s.keys = [] → s.sched = [.go, .go, .deliver []] →
    ∃ t, step s = .next t ∧ LostWakeup t

/-- R106, R107, R135, R154: a halted foreground has no step. With interrupts on its turn changes nothing but the schedule, and
whatever happens its own state is as it was. With interrupts masked the machine is no completed run, its turn is the stuck
fault, and no step of anyone lifts it: the foreground stays halted, masked and the context. The turn that changes nothing is
the model's (notes/assumptions/10.md), and so is the fault's form (notes/assumptions/13.md). -/
def Obligations.HaltedAndMaskedIsStuck : Prop :=
  ∀ s : State, s.fault = none → s.refusal = none → s.work = [] → s.ctx = .fg → s.halted = true →
    (s.intFlag = true →
      (∀ acts, s.sched = .go :: acts → step s = .next { s with sched := acts }) ∧
      (s.sched = [] → s.keys = [] ∨ kbdFull s = true → deliverable s = none → step s = .next s) ∧
      (s.cfg.wf = true → ∀ t, step s = .next t → ForegroundKept s t)) ∧
    (s.intFlag = false → ¬ Complete s ∧
      (∀ acts, s.sched = .go :: acts → step s = .fault (.stuckHalt { s with sched := acts })) ∧
      (s.sched = [] → s.keys = [] ∨ kbdFull s = true → step s = .fault (.stuckHalt s)) ∧
      ∀ t, step s = .next t → t.halted = true ∧ t.intFlag = false ∧ t.ctx = .fg ∧ ForegroundKept s t)

/-! ### Interrupts -/

/-- R117, R118, R120, R121: which line can be delivered; delivery takes it, and with none does nothing; a scheduled delivery
is the step, and with nothing scheduled or waiting a line that can be delivered is delivered. That it then goes before the
foreground is the model's (notes/assumptions/8.md). -/
def Obligations.DeliverableIsTheLowestReadyLine : Prop :=
  ∀ (s : State) (l : Line) (within : List EnvAct),
    let ready (k : Line) : Prop := s.picM.irr.getLsbD k.val = true ∧
      (∃ m, s.picM.imr = some m ∧ m.getLsbD k.val = false) ∧ ∀ j : Line, j ≤ k → s.picM.insvc.getLsbD j.val = false
    (deliverable s = some l ↔
      s.intFlag = true ∧ s.ctx = .fg ∧ s.fault = none ∧ ready l ∧ ∀ k : Line, k < l → ¬ ready k) ∧
    (deliverable s = some l → deliver within s = takeInterrupt l within s) ∧
    (deliverable s = none → deliver within s = .next s) ∧
    (s.fault = none → s.refusal = none → s.work = [] → s.ctx = .fg →
      (∀ acts, s.sched = .deliver within :: acts → step s = deliver within { s with sched := acts }) ∧
      (s.sched = [] → s.keys = [] ∨ kbdFull s = true → deliverable s = some l → step s = takeInterrupt l [] s))

/-- R122, R123, R125, R126, R99: an interrupt whose vector finds the handler's descriptor is served in one step: the request
is taken, the handler run to completion, the line acknowledged, interrupts on again and the foreground awake. What the
environment does inside the handler, behind its port read, it does to the latch, the waiting bytes and the request bits as
they then stand: a byte that waits is latched and its request is pending after the return. -/
def Obligations.InterruptIsServed : Prop :=
  ∀ (s : State) (l : Line) (b base : Byte) (t : TableRegister) (within : List EnvAct), s.cfg.wf = true →
    s.kbd = .full b → s.picM.configured = true → s.picS.configured = true → s.picM.base = some base → s.idtr = some t →
    8 * (base.toNat + l.val) + 7 ≤ t.limit.toNat → base.toNat + l.val < s.cfg.idtEntries →
    idtEntry s (base.toNat + l.val) = some (mkdesc s.cfg s.cfg.handlerAddr) →
    let m := modupdate s.cfg s.mods b
    let e : KeyEvent := ⟨scanTable s.cfg (b.extractLsb' 0 7), !b.getLsbD 7, m.lshift, m.rshift, m.ctrl, m.alt⟩
    let taken : State := { s with kbd := .read b, picM := { s.picM with irr := s.picM.irr &&& ~~~(1#8 <<< l.val) } }
    let after : State := envActs within taken
    ∃ u, takeInterrupt l within s = .next u ∧
      u = { s with
        kbd := after.kbd
        keys := after.keys
        mods := m
        ring := s.ring.set s.wr.val (some e) s.wr.isLt
        wr := s.wr + 1
        picM := { s.picM with irr := after.picM.irr, insvc := acknowledge (s.picM.insvc ||| 1#8 <<< l.val) }
        picS := { s.picS with insvc := acknowledge s.picS.insvc }
        iotrace := s.iotrace ++ [⟨.r, s.cfg.kbdDataPort, b⟩, ⟨.w, s.cfg.picMCmd, s.cfg.eoiByte⟩,
          ⟨.w, s.cfg.picSCmd, s.cfg.eoiByte⟩]
        intFlag := true
        halted := false
        ctx := .fg } ∧
      (within = [] → u.kbd = .read b ∧ u.keys = s.keys ∧ u.picM.irr = s.picM.irr &&& ~~~(1#8 <<< l.val)) ∧
      (∀ b' rest, within = [.key] → s.keys = b' :: rest → u.kbd = .full b' ∧ u.keys = rest ∧
        u.picM.irr = s.picM.irr &&& ~~~(1#8 <<< l.val) ||| 1#8 <<< s.cfg.kbdLine.val)

/-- R123, R127, R111, R112: delivery beyond the table, through an empty descriptor and through a foreign one; each leaves the
request taken, the line in service, the foreground as context, and nothing served. -/
def Obligations.DeliveryStopsAreAsWritten : Prop :=
  ∀ (s : State) (l : Line) (base : Byte) (within : List EnvAct), s.picM.base = some base →
    let v := base.toNat + l.val
    let taken : State := { s with picM := { s.picM with
      irr := s.picM.irr &&& ~~~(1#8 <<< l.val), insvc := s.picM.insvc ||| 1#8 <<< l.val } }
    ((s.idtr = none ∨ ∃ t, s.idtr = some t ∧ t.limit.toNat < 8 * v + 7) → takeInterrupt l within s =
      .fault (.vectorOutOfTable v { taken with fault := some (.vectorOutOfTable v) })) ∧
    (∀ t, s.idtr = some t → 8 * v + 7 ≤ t.limit.toNat → v < s.cfg.idtEntries →
      (idtEntry s v = some 0 → takeInterrupt l within s =
        .fault (.vectorNotPresent v { taken with fault := some (.vectorNotPresent v) })) ∧
      (∀ d, idtEntry s v = some d → d ≠ 0 → d ≠ mkdesc s.cfg s.cfg.handlerAddr → takeInterrupt l within s =
        .refused (.foreignDescriptor { taken with refusal := some .foreignDescriptor })))

/-- R48, R124, R34: an interrupt that is served and any action of the environment leave the foreground's own state as it
was. -/
def Obligations.InterruptsKeepTheForeground : Prop :=
  ∀ (s t : State) (l : Line) (within : List EnvAct), s.cfg.wf = true →
    (takeInterrupt l within s = .next t → ForegroundKept s t) ∧
    (boundary s = .next t → ForegroundKept s t) ∧
    ∀ e, ForegroundKept s (envAct e s)

/-- R114 to R116: the environment's two actions. TICK asserts the timer's line exactly where the environment may, and a line
that is asserted again stays asserted once. KEY latches the next byte and asserts the keyboard's line where a byte waits and
the latch is empty, and does nothing otherwise. -/
def Obligations.TickAssertsTheTimerLine : Prop :=
  ∀ s : State,
    (s.cfg.envTimerAsserts = true →
      envAct .tick s = { s with picM := { s.picM with irr := s.picM.irr ||| 1#8 <<< s.cfg.timerLine.val } }) ∧
    (s.cfg.envTimerAsserts = false → envAct .tick s = s) ∧
    envAct .tick (envAct .tick s) = envAct .tick s ∧
    (∀ b rest, s.keys = b :: rest → kbdFull s = false → envAct .key s =
      { s with kbd := .full b, keys := rest,
               picM := { s.picM with irr := s.picM.irr ||| 1#8 <<< s.cfg.kbdLine.val } }) ∧
    (s.keys = [] ∨ kbdFull s = true → envAct .key s = s)

/-! ### The machine -/

/-- R14, R66: where the bytes of the stream decode to an operation of the stream and it is the foreground's turn, the step is
exec of it, and then the stream goes on behind it and FGPOS advances; after the stream, MAIN.STEP. -/
def Obligations.StepRunsTheDecodedOperation : Prop :=
  ∀ (s t : State), ForegroundTurn s t →
    (∀ i rest, decode s.stream = .ok (i, rest) → i.contexts.inStream = true →
      step s = andThen (exec i t) fun u => .next { u with stream := rest, fgpos := u.fgpos + 1 }) ∧
    (s.stream = [] → s.mainLoop = true →
      step s = andThen (exec .mainStep t) fun u => .next { u with stream := [], fgpos := u.fgpos + 1 })

/-- R66, R68 (b): a word handed in from outside the stream is run by exec where its context may perform it, and refused where
it may not. The list of such words is the model's (notes/assumptions/9.md). -/
def Obligations.StepRunsTheWorkItem : Prop :=
  ∀ (s : State) (w : WorkItem) (ws : List WorkItem) (i : Instr), s.fault = none → s.refusal = none →
    s.work = w :: ws → decodeIn s.cfg w.space w.bytes = .ok (i, []) →
    ((s.ctx = .fg → i.contexts.fg = true) → (s.ctx = .isr → i.contexts.isr = true) →
      step s = exec i { s with work := ws }) ∧
    (s.ctx = .fg ∧ i.contexts.fg = false ∨ s.ctx = .isr ∧ i.contexts.isr = false →
      step s = .refused (.wrongContext { s with refusal := some .wrongContext }))

/-- R68 (a), (b), R66, R112: at the head of the stream a code outside the 24 of R66 is refused, and so are the six operations
that are only called. -/
def Obligations.IllegalStreamOperationsRefused : Prop :=
  ∀ s t : State, ForegroundTurn s t →
    (∀ (code : Byte) (rest : List Byte), s.stream = code :: rest →
      code ∉ ([0x00, 0x01, 0x10, 0x11, 0x12, 0x20, 0x21, 0x22, 0x23, 0x30, 0x40, 0x41, 0x42, 0x43, 0x50, 0x51, 0x52, 0x53,
        0x54, 0x55, 0x60, 0x61, 0x62, 0x63] : List Byte) →
      step s = .refused (.unknownOperation code { t with refusal := some (.unknownOperation code) })) ∧
    (∀ (i : Instr) (rest : List Byte), decode s.stream = .ok (i, rest) →
      (i = .termAddline ∨ i = .picEoi ∨ i = .kbdIsr ∨ (∃ p, i = .inb p) ∨ (∃ e, i = .qPut e) ∨
        ∃ sc p ls rs c a, i = .kbdDecode sc p ls rs c a) →
      step s = .refused (.wrongContext { t with refusal := some .wrongContext }))

/-- R27, R109, R111, R112: with FAULT set the agent that raised it has no step: its turn is that fault, for good. The
environment goes on: its scheduled actions happen, a byte that waits is presented, and that is all. With REFUSED set there is
no step. Neither is a completed run. That the foreground is the agent CTX names, that nothing but the environment is left, and
that a refusal stops the environment too, is the model's (notes/assumptions/15.md). -/
def Obligations.StopsAreSticky : Prop :=
  ∀ s : State,
    (∀ c, s.fault = some c → ¬ Complete s ∧
      (∀ acts, s.sched = .go :: acts → step s = .fault (c.fault { s with sched := acts })) ∧
      (s.sched = [] → s.keys = [] ∨ kbdFull s = true → step s = .fault (c.fault s)) ∧
      (∀ e acts, s.sched = .env e :: acts → step s = .next (envAct e { s with sched := acts })) ∧
      (∀ b rest, s.sched = [] → s.keys = b :: rest → kbdFull s = false → step s = .next (envAct .key s)) ∧
      (∀ within acts, s.sched = .deliver within :: acts → step s = .next { s with sched := acts }) ∧
      ∀ t, step s = .next t → ForegroundKept s t ∧ t.ring = s.ring ∧ t.wr = s.wr ∧ t.mods = s.mods ∧
        t.ctx = s.ctx ∧ t.intFlag = s.intFlag ∧ t.halted = s.halted ∧ t.iotrace = s.iotrace) ∧
    (∀ r, s.fault = none → s.refusal = some r → step s = .refused (r.refusal s) ∧ ¬ Complete s)

/-- R36: every element at its reset value; none stands for "unspecified" and "undefined until TERM.INIT". -/
def Obligations.ResetState : Prop :=
  let s := State.reset
  (∀ off < 2000, vram s off = none) ∧ s.crtc = ⟨none, none, none⟩ ∧ s.term = none ∧
  s.mods = ⟨false, false, false, false⟩ ∧ (∀ i : Fin 1024, s.ring[i.val]'i.isLt = none) ∧ s.rd = 0 ∧ s.wr = 0 ∧
  (∀ v < s.cfg.idtEntries, idtEntry s v = some 0) ∧ s.idtr = none ∧
  (∀ c, pic s c = ⟨false, 0, none, none, none, none, 0, 0⟩) ∧ s.kbd = .never ∧ s.intFlag = false ∧
  s.halted = false ∧ s.ctx = .fg ∧ s.fault = none ∧ s.refusal = none ∧ s.iotrace = [] ∧ s.fgpos = 0

/-- The invariant holds at reset, and the ring is empty. -/
def Obligations.ResetMeetsTheInvariant : Prop := Inv State.reset ∧ QueueSound State.reset

/-- Every step of anyone keeps the invariant (R35, R104, R118, R126) and the parameters; and a ring filled in order stays so
(R20, R89, R90), but for a first Q.INIT with interrupts on, which an event may fall into (notes/assumptions/11.md). -/
def Obligations.StepKeepsTheInvariant : Prop :=
  ∀ s t : State, Inv s → step s = .next t →
    Inv t ∧ t.cfg = s.cfg ∧ (QueueSound s → s.queueBuilt = true ∨ s.intFlag = false → QueueSound t)

/-- R139, R140, R102: for all parameters that meet R7's constraints and a silent timer, the boot order run from reset
completes, with the console booted, the screen blank, and grid and screen the same. -/
def Obligations.BootReachesTheLoop : Prop :=
  ∀ cfg : Config, cfg.wf = true → cfg.envTimerAsserts = false →
    ∃ t, execAll (boot cfg.handlerAddr) { State.reset with cfg := cfg, mainLoop := true } = .next t ∧ Booted t ∧
      Mirrored t ∧ t.term = some ⟨0, 0, 7, 0, Vector.replicate 2000 (mkcell cfg.space 7 0)⟩

/-- R108, R121 to R126, R35, R85 (c): a console that has booted, with the timer silent, never stops: whoever acts next, the
step answers a next state, the console is still booted, and grid and screen still agree. -/
def Obligations.BootedConsoleNeverStops : Prop :=
  ∀ s : State, Booted s → ∃ t, step s = .next t ∧ Booted t ∧ (Mirrored s → Mirrored t)

/-- R99, R102, R108, R114, R121: on a booted console that has nothing else to do, three steps take a pressed key with a
character from the keyboard to the screen: the byte is presented, the interrupt served, and the loop forwards the
character. With nothing scheduled the model lets the environment and then delivery go first (notes/assumptions/8.md). -/
def Obligations.PressedKeyReachesTheScreen : Prop :=
  ∀ (s : State) (t : Terminal) (k : KeyCode), Booted s → s.term = some t → s.rd = s.wr → kbdFull s = false →
    s.sched = [] → s.keys = [scancodeByte false k] → scanTable s.cfg k ≠ 0 →
    ∃ u, Host.Core.run Sys2Proof.core 3 s = .next u ∧ u.term = some (charPut s.cfg (scanTable s.cfg k) t) ∧
      CursorSynced u ∧ (Mirrored s → Mirrored u) ∧ u.rd = u.wr ∧ u.halted = false ∧
      u.mods = modupdate s.cfg s.mods (scancodeByte false k)
end

