-- ==== Sys2Proof/Laws/Config.lean ====
section
/-! SUPPORT. What R7's constraints give, one fact at a time. -/

namespace Sys2Proof.Config

variable {c : Config}

/-- The constraints, apart. -/
theorem wf_parts (h : c.wf = true) :
    c.portsDistinct = true ∧ c.selectsDistinct = true ∧ c.icw1NotEoi = true ∧ c.masterBaseOk = true ∧
    c.slaveBaseOk = true ∧ c.linesDistinct = true ∧ c.maskMOk = true ∧ c.maskSOk = true ∧ c.kbdVectorOk = true ∧
    c.gatePresent = true ∧ c.modifiersDistinct = true ∧ c.videoBaseEven = true ∧ c.windowsDisjoint = true ∧
    c.windowsFit = true := by
  simpa only [wf, Bool.and_eq_true, and_assoc] using h

/-- Every two ports differ. -/
theorem ports_ne (h : c.wf = true) :
    c.crtcCmd ≠ c.crtcData ∧ c.crtcCmd ≠ c.picMCmd ∧ c.crtcCmd ≠ c.picMData ∧ c.crtcCmd ≠ c.picSCmd ∧
    c.crtcCmd ≠ c.picSData ∧ c.crtcCmd ≠ c.kbdDataPort ∧ c.crtcData ≠ c.picMCmd ∧ c.crtcData ≠ c.picMData ∧
    c.crtcData ≠ c.picSCmd ∧ c.crtcData ≠ c.picSData ∧ c.crtcData ≠ c.kbdDataPort ∧ c.picMCmd ≠ c.picMData ∧
    c.picMCmd ≠ c.picSCmd ∧ c.picMCmd ≠ c.picSData ∧ c.picMCmd ≠ c.kbdDataPort ∧ c.picMData ≠ c.picSCmd ∧
    c.picMData ≠ c.picSData ∧ c.picMData ≠ c.kbdDataPort ∧ c.picSCmd ≠ c.picSData ∧ c.picSCmd ≠ c.kbdDataPort ∧
    c.picSData ≠ c.kbdDataPort := by
  have := (wf_parts h).1
  simp only [portsDistinct, ports, decide_eq_true_eq, List.nodup_cons, List.mem_cons, List.not_mem_nil, not_or,
    or_false, not_false_eq_true, List.nodup_nil, and_true] at this
  tauto

theorem selects_ne (h : c.wf = true) : c.cursorSelHi ≠ c.cursorSelLo := by
  simpa [selectsDistinct] using (wf_parts h).2.1

theorem icw1_ne_eoi (h : c.wf = true) : c.icw1 ≠ c.eoiByte := by
  simpa [icw1NotEoi] using (wf_parts h).2.2.1

/-- KBD_VECTOR = ICW2_M + KBD_LINE lies in the table, which has at most 256 entries. -/
theorem kbdVector_eq (h : c.wf = true) :
    c.kbdVector.toNat = c.icw2M.toNat + c.kbdLine.val ∧ c.kbdVector.toNat < c.idtEntries ∧ c.idtEntries ≤ 256 := by
  have := (wf_parts h).2.2.2.2.2.2.2.2.1
  simpa only [kbdVectorOk, Bool.and_eq_true, decide_eq_true_eq, and_assoc] using this

theorem masterBase (h : c.wf = true) : c.icw2M.toNat + 7 < c.idtEntries := by
  have := (wf_parts h).2.2.2.1
  simp only [masterBaseOk, Bool.and_eq_true, decide_eq_true_eq] at this
  exact this.1

/-- The window and the table do not overlap. -/
theorem windows_apart (h : c.wf = true) :
    c.videoBase.toNat + 4000 ≤ c.idtBase.toNat ∨ c.idtBase.toNat + 8 * c.idtEntries ≤ c.videoBase.toNat := by
  simpa [windowsDisjoint] using (wf_parts h).2.2.2.2.2.2.2.2.2.2.2.2.1

/-- MASK_M opens the keyboard's line. -/
theorem kbdLine_open (h : c.wf = true) : c.maskM.getLsbD c.kbdLine.val = false := by
  have := (wf_parts h).2.2.2.2.2.2.1
  simp only [maskMOk, List.all_eq_true, beq_iff_eq] at this
  rw [this c.kbdLine (List.mem_finRange _)]
  simp

theorem gate_present (h : c.wf = true) : c.gateAttr.getLsbD 15 = true := (wf_parts h).2.2.2.2.2.2.2.2.2.1

/-- The limit of a table of at most 256 entries is not truncated. -/
theorem idtLimit_toNat (h : c.wf = true) : c.idtLimit.toNat = 8 * c.idtEntries - 1 := by
  have := kbdVector_eq h
  simp only [idtLimit, BitVec.toNat_ofNat]
  omega

/-- The four modifier codes are pairwise distinct. -/
theorem modifiers_ne (h : c.wf = true) :
    c.scLshift ≠ c.scRshift ∧ c.scLshift ≠ c.scCtrl ∧ c.scLshift ≠ c.scAlt ∧ c.scRshift ≠ c.scCtrl ∧
    c.scRshift ≠ c.scAlt ∧ c.scCtrl ≠ c.scAlt := by
  have := (wf_parts h).2.2.2.2.2.2.2.2.2.2.1
  simp only [modifiersDistinct, decide_eq_true_eq, List.nodup_cons, List.mem_cons, List.not_mem_nil, not_or,
    or_false, not_false_eq_true, List.nodup_nil, and_true] at this
  tauto

/-- The default parameters meet the constraints. -/
theorem default_wf : Config.default.wf = true := by decide +kernel

end Sys2Proof.Config
end

