-- ==== Sys2Proof/Laws/Flags.lean ====
section
/-! SUPPORT. Scancode bytes, the modifier update, and the bits of a controller's registers. -/

namespace Sys2Proof.Machine

/-! ### Scancode bytes and modifiers -/

theorem keyCode_scancodeByte : ∀ (r : Bool) (k : KeyCode), keyCode (scancodeByte r k) = k := by decide +kernel

theorem isPressed_scancodeByte : ∀ (r : Bool) (k : KeyCode), isPressed (scancodeByte r k) = !r := by decide +kernel

/-- What the handler queues for a byte, with the key code and the release bit as slices of it (R99). -/
theorem handleByte_eq (b : Byte) (s : State) : handleByte b s =
    let m := modupdate s.cfg s.mods b
    ringPut ⟨scanTable s.cfg (b.extractLsb' 0 7), !b.getLsbD 7, m.lshift, m.rshift, m.ctrl, m.alt⟩ (s.setMods m) := by
  simp only [handleByte, decodeKey, keyCode_scancodeByte]
  rfl

/-- A byte of another key commutes with any value of the left-shift flag. -/
theorem modupdate_not_lshift {cfg : Config} {m : Mods} {b : Byte} (h : keyCode b ≠ cfg.scLshift) (v : Bool) :
    modupdate cfg { m with lshift := v } b = { modupdate cfg m b with lshift := v } := by
  unfold modupdate modclass
  rw [if_neg h]
  split_ifs <;> rfl

theorem modupdate_lshift {cfg : Config} {m : Mods} {r : Bool} :
    modupdate cfg m (scancodeByte r cfg.scLshift) = { m with lshift := !r } := by
  simp only [modupdate, modclass, keyCode_scancodeByte, isPressed_scancodeByte, if_true]

/-! ### Bits -/

theorem getLsbD_setBit : ∀ (y : BitVec 8) (l k : Line),
    (setBit y l).getLsbD k.val = (y.getLsbD k.val || decide (k = l)) := by
  intro y l k
  have h : ∀ l k : Line, (1#8 <<< l.val).getLsbD k.val = decide (k = l) := by decide
  rw [setBit, BitVec.getLsbD_or, h]

theorem getLsbD_clearBit : ∀ (y : BitVec 8) (l k : Line),
    (clearBit y l).getLsbD k.val = (y.getLsbD k.val && !decide (k = l)) := by
  intro y l k
  have h : ∀ l k : Line, (~~~(1#8 <<< l.val)).getLsbD k.val = !decide (k = l) := by decide
  rw [clearBit, BitVec.getLsbD_and, h]

theorem acknowledge_setBit : ∀ l : Line, acknowledge (setBit 0#8 l) = 0#8 := by decide

theorem mem_lines : ∀ l : Line, l ∈ lines := by decide

theorem unblocked_iff {p : Pic} {l : Line} :
    unblocked p l = true ↔ ∀ j : Line, j ≤ l → p.insvc.getLsbD j.val = false := by
  simp only [unblocked, List.all_eq_true, Bool.or_eq_true, decide_eq_true_eq, Bool.not_eq_true']
  constructor
  · exact fun h j hj => (h j (mem_lines j)).resolve_left (not_lt.2 hj)
  · exact fun h j _ => (lt_or_ge l j).imp_right (h j)

theorem unmasked_iff {p : Pic} {l : Line} : unmasked p l = true ↔ ∃ m, p.imr = some m ∧ m.getLsbD l.val = false := by
  unfold unmasked
  cases p.imr <;> simp

theorem requests_iff {p : Pic} {l : Line} : requests p l = true ↔ p.irr.getLsbD l.val = true ∧
    (∃ m, p.imr = some m ∧ m.getLsbD l.val = false) ∧ ∀ j : Line, j ≤ l → p.insvc.getLsbD j.val = false := by
  simp only [requests, Bool.and_eq_true, unmasked_iff, unblocked_iff, and_assoc]

/-- The search takes the lowest line there is (R120). -/
theorem find_lines {f : Line → Bool} {l : Line} : lines.find? f = some l ↔ f l = true ∧ ∀ k < l, f k = false := by
  have hs : lines.Pairwise (· < ·) := by decide
  rw [List.find?_eq_some_iff_append]
  constructor
  · rintro ⟨hg, as, bs, he, ha⟩
    refine ⟨hg, fun k hk => ?_⟩
    have hm : k ∈ as ++ l :: bs := he ▸ mem_lines k
    rw [he] at hs
    rcases List.mem_append.1 hm with h | h
    · simpa using ha k h
    · rcases List.mem_cons.1 h with h | h
      · exact absurd (h ▸ hk) (lt_irrefl _)
      · exact absurd ((List.pairwise_cons.1 (List.pairwise_append.1 hs).2.1).1 k h) (not_lt.2 hk.le)
  · rintro ⟨hg, hk⟩
    obtain ⟨as, bs, he⟩ := List.append_of_mem (mem_lines l)
    refine ⟨hg, as, bs, he, fun a ha => ?_⟩
    rw [he] at hs
    simp [hk a ((List.pairwise_append.1 hs).2.2 a ha l List.mem_cons_self)]

end Sys2Proof.Machine
end

