-- ==== Sys2Proof/Laws/State.lean ====
section
/-! SUPPORT. One lemma per field per update of State, so that no proof unfolds a record update. -/

namespace Sys2Proof.Machine.State

section setMem
variable (s : State) (v : List Host.Cell)
@[simp] theorem setMem_cfg : (s.setMem v).cfg = s.cfg := rfl
@[simp] theorem setMem_mem : (s.setMem v).mem = v := rfl
@[simp] theorem setMem_crtc : (s.setMem v).crtc = s.crtc := rfl
@[simp] theorem setMem_term : (s.setMem v).term = s.term := rfl
@[simp] theorem setMem_mods : (s.setMem v).mods = s.mods := rfl
@[simp] theorem setMem_ring : (s.setMem v).ring = s.ring := rfl
@[simp] theorem setMem_rd : (s.setMem v).rd = s.rd := rfl
@[simp] theorem setMem_wr : (s.setMem v).wr = s.wr := rfl
@[simp] theorem setMem_queueBuilt : (s.setMem v).queueBuilt = s.queueBuilt := rfl
@[simp] theorem setMem_idtr : (s.setMem v).idtr = s.idtr := rfl
@[simp] theorem setMem_picM : (s.setMem v).picM = s.picM := rfl
@[simp] theorem setMem_picS : (s.setMem v).picS = s.picS := rfl
@[simp] theorem setMem_kbd : (s.setMem v).kbd = s.kbd := rfl
@[simp] theorem setMem_intFlag : (s.setMem v).intFlag = s.intFlag := rfl
@[simp] theorem setMem_halted : (s.setMem v).halted = s.halted := rfl
@[simp] theorem setMem_ctx : (s.setMem v).ctx = s.ctx := rfl
@[simp] theorem setMem_fault : (s.setMem v).fault = s.fault := rfl
@[simp] theorem setMem_refusal : (s.setMem v).refusal = s.refusal := rfl
@[simp] theorem setMem_iotrace : (s.setMem v).iotrace = s.iotrace := rfl
@[simp] theorem setMem_fgpos : (s.setMem v).fgpos = s.fgpos := rfl
@[simp] theorem setMem_stream : (s.setMem v).stream = s.stream := rfl
@[simp] theorem setMem_mainLoop : (s.setMem v).mainLoop = s.mainLoop := rfl
@[simp] theorem setMem_work : (s.setMem v).work = s.work := rfl
@[simp] theorem setMem_sched : (s.setMem v).sched = s.sched := rfl
@[simp] theorem setMem_keys : (s.setMem v).keys = s.keys := rfl
@[simp] theorem setMem_result : (s.setMem v).result = s.result := rfl
@[simp] theorem setMem_setMem (w : List Host.Cell) : (s.setMem v).setMem w = s.setMem w := rfl
@[simp] theorem setMem_self : s.setMem s.mem = s := rfl
end setMem

section setCrtc
variable (s : State) (v : Crtc)
@[simp] theorem setCrtc_cfg : (s.setCrtc v).cfg = s.cfg := rfl
@[simp] theorem setCrtc_mem : (s.setCrtc v).mem = s.mem := rfl
@[simp] theorem setCrtc_crtc : (s.setCrtc v).crtc = v := rfl
@[simp] theorem setCrtc_term : (s.setCrtc v).term = s.term := rfl
@[simp] theorem setCrtc_mods : (s.setCrtc v).mods = s.mods := rfl
@[simp] theorem setCrtc_ring : (s.setCrtc v).ring = s.ring := rfl
@[simp] theorem setCrtc_rd : (s.setCrtc v).rd = s.rd := rfl
@[simp] theorem setCrtc_wr : (s.setCrtc v).wr = s.wr := rfl
@[simp] theorem setCrtc_queueBuilt : (s.setCrtc v).queueBuilt = s.queueBuilt := rfl
@[simp] theorem setCrtc_idtr : (s.setCrtc v).idtr = s.idtr := rfl
@[simp] theorem setCrtc_picM : (s.setCrtc v).picM = s.picM := rfl
@[simp] theorem setCrtc_picS : (s.setCrtc v).picS = s.picS := rfl
@[simp] theorem setCrtc_kbd : (s.setCrtc v).kbd = s.kbd := rfl
@[simp] theorem setCrtc_intFlag : (s.setCrtc v).intFlag = s.intFlag := rfl
@[simp] theorem setCrtc_halted : (s.setCrtc v).halted = s.halted := rfl
@[simp] theorem setCrtc_ctx : (s.setCrtc v).ctx = s.ctx := rfl
@[simp] theorem setCrtc_fault : (s.setCrtc v).fault = s.fault := rfl
@[simp] theorem setCrtc_refusal : (s.setCrtc v).refusal = s.refusal := rfl
@[simp] theorem setCrtc_iotrace : (s.setCrtc v).iotrace = s.iotrace := rfl
@[simp] theorem setCrtc_fgpos : (s.setCrtc v).fgpos = s.fgpos := rfl
@[simp] theorem setCrtc_stream : (s.setCrtc v).stream = s.stream := rfl
@[simp] theorem setCrtc_mainLoop : (s.setCrtc v).mainLoop = s.mainLoop := rfl
@[simp] theorem setCrtc_work : (s.setCrtc v).work = s.work := rfl
@[simp] theorem setCrtc_sched : (s.setCrtc v).sched = s.sched := rfl
@[simp] theorem setCrtc_keys : (s.setCrtc v).keys = s.keys := rfl
@[simp] theorem setCrtc_result : (s.setCrtc v).result = s.result := rfl
@[simp] theorem setCrtc_setCrtc (w : Crtc) : (s.setCrtc v).setCrtc w = s.setCrtc w := rfl
@[simp] theorem setCrtc_self : s.setCrtc s.crtc = s := rfl
end setCrtc

section setTerm
variable (s : State) (v : Option Terminal)
@[simp] theorem setTerm_cfg : (s.setTerm v).cfg = s.cfg := rfl
@[simp] theorem setTerm_mem : (s.setTerm v).mem = s.mem := rfl
@[simp] theorem setTerm_crtc : (s.setTerm v).crtc = s.crtc := rfl
@[simp] theorem setTerm_term : (s.setTerm v).term = v := rfl
@[simp] theorem setTerm_mods : (s.setTerm v).mods = s.mods := rfl
@[simp] theorem setTerm_ring : (s.setTerm v).ring = s.ring := rfl
@[simp] theorem setTerm_rd : (s.setTerm v).rd = s.rd := rfl
@[simp] theorem setTerm_wr : (s.setTerm v).wr = s.wr := rfl
@[simp] theorem setTerm_queueBuilt : (s.setTerm v).queueBuilt = s.queueBuilt := rfl
@[simp] theorem setTerm_idtr : (s.setTerm v).idtr = s.idtr := rfl
@[simp] theorem setTerm_picM : (s.setTerm v).picM = s.picM := rfl
@[simp] theorem setTerm_picS : (s.setTerm v).picS = s.picS := rfl
@[simp] theorem setTerm_kbd : (s.setTerm v).kbd = s.kbd := rfl
@[simp] theorem setTerm_intFlag : (s.setTerm v).intFlag = s.intFlag := rfl
@[simp] theorem setTerm_halted : (s.setTerm v).halted = s.halted := rfl
@[simp] theorem setTerm_ctx : (s.setTerm v).ctx = s.ctx := rfl
@[simp] theorem setTerm_fault : (s.setTerm v).fault = s.fault := rfl
@[simp] theorem setTerm_refusal : (s.setTerm v).refusal = s.refusal := rfl
@[simp] theorem setTerm_iotrace : (s.setTerm v).iotrace = s.iotrace := rfl
@[simp] theorem setTerm_fgpos : (s.setTerm v).fgpos = s.fgpos := rfl
@[simp] theorem setTerm_stream : (s.setTerm v).stream = s.stream := rfl
@[simp] theorem setTerm_mainLoop : (s.setTerm v).mainLoop = s.mainLoop := rfl
@[simp] theorem setTerm_work : (s.setTerm v).work = s.work := rfl
@[simp] theorem setTerm_sched : (s.setTerm v).sched = s.sched := rfl
@[simp] theorem setTerm_keys : (s.setTerm v).keys = s.keys := rfl
@[simp] theorem setTerm_result : (s.setTerm v).result = s.result := rfl
@[simp] theorem setTerm_setTerm (w : Option Terminal) : (s.setTerm v).setTerm w = s.setTerm w := rfl
@[simp] theorem setTerm_self : s.setTerm s.term = s := rfl
end setTerm

section setMods
variable (s : State) (v : Mods)
@[simp] theorem setMods_cfg : (s.setMods v).cfg = s.cfg := rfl
@[simp] theorem setMods_mem : (s.setMods v).mem = s.mem := rfl
@[simp] theorem setMods_crtc : (s.setMods v).crtc = s.crtc := rfl
@[simp] theorem setMods_term : (s.setMods v).term = s.term := rfl
@[simp] theorem setMods_mods : (s.setMods v).mods = v := rfl
@[simp] theorem setMods_ring : (s.setMods v).ring = s.ring := rfl
@[simp] theorem setMods_rd : (s.setMods v).rd = s.rd := rfl
@[simp] theorem setMods_wr : (s.setMods v).wr = s.wr := rfl
@[simp] theorem setMods_queueBuilt : (s.setMods v).queueBuilt = s.queueBuilt := rfl
@[simp] theorem setMods_idtr : (s.setMods v).idtr = s.idtr := rfl
@[simp] theorem setMods_picM : (s.setMods v).picM = s.picM := rfl
@[simp] theorem setMods_picS : (s.setMods v).picS = s.picS := rfl
@[simp] theorem setMods_kbd : (s.setMods v).kbd = s.kbd := rfl
@[simp] theorem setMods_intFlag : (s.setMods v).intFlag = s.intFlag := rfl
@[simp] theorem setMods_halted : (s.setMods v).halted = s.halted := rfl
@[simp] theorem setMods_ctx : (s.setMods v).ctx = s.ctx := rfl
@[simp] theorem setMods_fault : (s.setMods v).fault = s.fault := rfl
@[simp] theorem setMods_refusal : (s.setMods v).refusal = s.refusal := rfl
@[simp] theorem setMods_iotrace : (s.setMods v).iotrace = s.iotrace := rfl
@[simp] theorem setMods_fgpos : (s.setMods v).fgpos = s.fgpos := rfl
@[simp] theorem setMods_stream : (s.setMods v).stream = s.stream := rfl
@[simp] theorem setMods_mainLoop : (s.setMods v).mainLoop = s.mainLoop := rfl
@[simp] theorem setMods_work : (s.setMods v).work = s.work := rfl
@[simp] theorem setMods_sched : (s.setMods v).sched = s.sched := rfl
@[simp] theorem setMods_keys : (s.setMods v).keys = s.keys := rfl
@[simp] theorem setMods_result : (s.setMods v).result = s.result := rfl
@[simp] theorem setMods_setMods (w : Mods) : (s.setMods v).setMods w = s.setMods w := rfl
@[simp] theorem setMods_self : s.setMods s.mods = s := rfl
end setMods

section setRing
variable (s : State) (v : Vector (Option KeyEvent) 1024)
@[simp] theorem setRing_cfg : (s.setRing v).cfg = s.cfg := rfl
@[simp] theorem setRing_mem : (s.setRing v).mem = s.mem := rfl
@[simp] theorem setRing_crtc : (s.setRing v).crtc = s.crtc := rfl
@[simp] theorem setRing_term : (s.setRing v).term = s.term := rfl
@[simp] theorem setRing_mods : (s.setRing v).mods = s.mods := rfl
@[simp] theorem setRing_ring : (s.setRing v).ring = v := rfl
@[simp] theorem setRing_rd : (s.setRing v).rd = s.rd := rfl
@[simp] theorem setRing_wr : (s.setRing v).wr = s.wr := rfl
@[simp] theorem setRing_queueBuilt : (s.setRing v).queueBuilt = s.queueBuilt := rfl
@[simp] theorem setRing_idtr : (s.setRing v).idtr = s.idtr := rfl
@[simp] theorem setRing_picM : (s.setRing v).picM = s.picM := rfl
@[simp] theorem setRing_picS : (s.setRing v).picS = s.picS := rfl
@[simp] theorem setRing_kbd : (s.setRing v).kbd = s.kbd := rfl
@[simp] theorem setRing_intFlag : (s.setRing v).intFlag = s.intFlag := rfl
@[simp] theorem setRing_halted : (s.setRing v).halted = s.halted := rfl
@[simp] theorem setRing_ctx : (s.setRing v).ctx = s.ctx := rfl
@[simp] theorem setRing_fault : (s.setRing v).fault = s.fault := rfl
@[simp] theorem setRing_refusal : (s.setRing v).refusal = s.refusal := rfl
@[simp] theorem setRing_iotrace : (s.setRing v).iotrace = s.iotrace := rfl
@[simp] theorem setRing_fgpos : (s.setRing v).fgpos = s.fgpos := rfl
@[simp] theorem setRing_stream : (s.setRing v).stream = s.stream := rfl
@[simp] theorem setRing_mainLoop : (s.setRing v).mainLoop = s.mainLoop := rfl
@[simp] theorem setRing_work : (s.setRing v).work = s.work := rfl
@[simp] theorem setRing_sched : (s.setRing v).sched = s.sched := rfl
@[simp] theorem setRing_keys : (s.setRing v).keys = s.keys := rfl
@[simp] theorem setRing_result : (s.setRing v).result = s.result := rfl
@[simp] theorem setRing_setRing (w : Vector (Option KeyEvent) 1024) : (s.setRing v).setRing w = s.setRing w := rfl
@[simp] theorem setRing_self : s.setRing s.ring = s := rfl
end setRing

section setRd
variable (s : State) (v : Fin 1024)
@[simp] theorem setRd_cfg : (s.setRd v).cfg = s.cfg := rfl
@[simp] theorem setRd_mem : (s.setRd v).mem = s.mem := rfl
@[simp] theorem setRd_crtc : (s.setRd v).crtc = s.crtc := rfl
@[simp] theorem setRd_term : (s.setRd v).term = s.term := rfl
@[simp] theorem setRd_mods : (s.setRd v).mods = s.mods := rfl
@[simp] theorem setRd_ring : (s.setRd v).ring = s.ring := rfl
@[simp] theorem setRd_rd : (s.setRd v).rd = v := rfl
@[simp] theorem setRd_wr : (s.setRd v).wr = s.wr := rfl
@[simp] theorem setRd_queueBuilt : (s.setRd v).queueBuilt = s.queueBuilt := rfl
@[simp] theorem setRd_idtr : (s.setRd v).idtr = s.idtr := rfl
@[simp] theorem setRd_picM : (s.setRd v).picM = s.picM := rfl
@[simp] theorem setRd_picS : (s.setRd v).picS = s.picS := rfl
@[simp] theorem setRd_kbd : (s.setRd v).kbd = s.kbd := rfl
@[simp] theorem setRd_intFlag : (s.setRd v).intFlag = s.intFlag := rfl
@[simp] theorem setRd_halted : (s.setRd v).halted = s.halted := rfl
@[simp] theorem setRd_ctx : (s.setRd v).ctx = s.ctx := rfl
@[simp] theorem setRd_fault : (s.setRd v).fault = s.fault := rfl
@[simp] theorem setRd_refusal : (s.setRd v).refusal = s.refusal := rfl
@[simp] theorem setRd_iotrace : (s.setRd v).iotrace = s.iotrace := rfl
@[simp] theorem setRd_fgpos : (s.setRd v).fgpos = s.fgpos := rfl
@[simp] theorem setRd_stream : (s.setRd v).stream = s.stream := rfl
@[simp] theorem setRd_mainLoop : (s.setRd v).mainLoop = s.mainLoop := rfl
@[simp] theorem setRd_work : (s.setRd v).work = s.work := rfl
@[simp] theorem setRd_sched : (s.setRd v).sched = s.sched := rfl
@[simp] theorem setRd_keys : (s.setRd v).keys = s.keys := rfl
@[simp] theorem setRd_result : (s.setRd v).result = s.result := rfl
@[simp] theorem setRd_setRd (w : Fin 1024) : (s.setRd v).setRd w = s.setRd w := rfl
@[simp] theorem setRd_self : s.setRd s.rd = s := rfl
end setRd

section setWr
variable (s : State) (v : Fin 1024)
@[simp] theorem setWr_cfg : (s.setWr v).cfg = s.cfg := rfl
@[simp] theorem setWr_mem : (s.setWr v).mem = s.mem := rfl
@[simp] theorem setWr_crtc : (s.setWr v).crtc = s.crtc := rfl
@[simp] theorem setWr_term : (s.setWr v).term = s.term := rfl
@[simp] theorem setWr_mods : (s.setWr v).mods = s.mods := rfl
@[simp] theorem setWr_ring : (s.setWr v).ring = s.ring := rfl
@[simp] theorem setWr_rd : (s.setWr v).rd = s.rd := rfl
@[simp] theorem setWr_wr : (s.setWr v).wr = v := rfl
@[simp] theorem setWr_queueBuilt : (s.setWr v).queueBuilt = s.queueBuilt := rfl
@[simp] theorem setWr_idtr : (s.setWr v).idtr = s.idtr := rfl
@[simp] theorem setWr_picM : (s.setWr v).picM = s.picM := rfl
@[simp] theorem setWr_picS : (s.setWr v).picS = s.picS := rfl
@[simp] theorem setWr_kbd : (s.setWr v).kbd = s.kbd := rfl
@[simp] theorem setWr_intFlag : (s.setWr v).intFlag = s.intFlag := rfl
@[simp] theorem setWr_halted : (s.setWr v).halted = s.halted := rfl
@[simp] theorem setWr_ctx : (s.setWr v).ctx = s.ctx := rfl
@[simp] theorem setWr_fault : (s.setWr v).fault = s.fault := rfl
@[simp] theorem setWr_refusal : (s.setWr v).refusal = s.refusal := rfl
@[simp] theorem setWr_iotrace : (s.setWr v).iotrace = s.iotrace := rfl
@[simp] theorem setWr_fgpos : (s.setWr v).fgpos = s.fgpos := rfl
@[simp] theorem setWr_stream : (s.setWr v).stream = s.stream := rfl
@[simp] theorem setWr_mainLoop : (s.setWr v).mainLoop = s.mainLoop := rfl
@[simp] theorem setWr_work : (s.setWr v).work = s.work := rfl
@[simp] theorem setWr_sched : (s.setWr v).sched = s.sched := rfl
@[simp] theorem setWr_keys : (s.setWr v).keys = s.keys := rfl
@[simp] theorem setWr_result : (s.setWr v).result = s.result := rfl
@[simp] theorem setWr_setWr (w : Fin 1024) : (s.setWr v).setWr w = s.setWr w := rfl
@[simp] theorem setWr_self : s.setWr s.wr = s := rfl
end setWr

section setQueueBuilt
variable (s : State) (v : Bool)
@[simp] theorem setQueueBuilt_cfg : (s.setQueueBuilt v).cfg = s.cfg := rfl
@[simp] theorem setQueueBuilt_mem : (s.setQueueBuilt v).mem = s.mem := rfl
@[simp] theorem setQueueBuilt_crtc : (s.setQueueBuilt v).crtc = s.crtc := rfl
@[simp] theorem setQueueBuilt_term : (s.setQueueBuilt v).term = s.term := rfl
@[simp] theorem setQueueBuilt_mods : (s.setQueueBuilt v).mods = s.mods := rfl
@[simp] theorem setQueueBuilt_ring : (s.setQueueBuilt v).ring = s.ring := rfl
@[simp] theorem setQueueBuilt_rd : (s.setQueueBuilt v).rd = s.rd := rfl
@[simp] theorem setQueueBuilt_wr : (s.setQueueBuilt v).wr = s.wr := rfl
@[simp] theorem setQueueBuilt_queueBuilt : (s.setQueueBuilt v).queueBuilt = v := rfl
@[simp] theorem setQueueBuilt_idtr : (s.setQueueBuilt v).idtr = s.idtr := rfl
@[simp] theorem setQueueBuilt_picM : (s.setQueueBuilt v).picM = s.picM := rfl
@[simp] theorem setQueueBuilt_picS : (s.setQueueBuilt v).picS = s.picS := rfl
@[simp] theorem setQueueBuilt_kbd : (s.setQueueBuilt v).kbd = s.kbd := rfl
@[simp] theorem setQueueBuilt_intFlag : (s.setQueueBuilt v).intFlag = s.intFlag := rfl
@[simp] theorem setQueueBuilt_halted : (s.setQueueBuilt v).halted = s.halted := rfl
@[simp] theorem setQueueBuilt_ctx : (s.setQueueBuilt v).ctx = s.ctx := rfl
@[simp] theorem setQueueBuilt_fault : (s.setQueueBuilt v).fault = s.fault := rfl
@[simp] theorem setQueueBuilt_refusal : (s.setQueueBuilt v).refusal = s.refusal := rfl
@[simp] theorem setQueueBuilt_iotrace : (s.setQueueBuilt v).iotrace = s.iotrace := rfl
@[simp] theorem setQueueBuilt_fgpos : (s.setQueueBuilt v).fgpos = s.fgpos := rfl
@[simp] theorem setQueueBuilt_stream : (s.setQueueBuilt v).stream = s.stream := rfl
@[simp] theorem setQueueBuilt_mainLoop : (s.setQueueBuilt v).mainLoop = s.mainLoop := rfl
@[simp] theorem setQueueBuilt_work : (s.setQueueBuilt v).work = s.work := rfl
@[simp] theorem setQueueBuilt_sched : (s.setQueueBuilt v).sched = s.sched := rfl
@[simp] theorem setQueueBuilt_keys : (s.setQueueBuilt v).keys = s.keys := rfl
@[simp] theorem setQueueBuilt_result : (s.setQueueBuilt v).result = s.result := rfl
@[simp] theorem setQueueBuilt_setQueueBuilt (w : Bool) : (s.setQueueBuilt v).setQueueBuilt w = s.setQueueBuilt w := rfl
@[simp] theorem setQueueBuilt_self : s.setQueueBuilt s.queueBuilt = s := rfl
end setQueueBuilt

section setIdtr
variable (s : State) (v : Option TableRegister)
@[simp] theorem setIdtr_cfg : (s.setIdtr v).cfg = s.cfg := rfl
@[simp] theorem setIdtr_mem : (s.setIdtr v).mem = s.mem := rfl
@[simp] theorem setIdtr_crtc : (s.setIdtr v).crtc = s.crtc := rfl
@[simp] theorem setIdtr_term : (s.setIdtr v).term = s.term := rfl
@[simp] theorem setIdtr_mods : (s.setIdtr v).mods = s.mods := rfl
@[simp] theorem setIdtr_ring : (s.setIdtr v).ring = s.ring := rfl
@[simp] theorem setIdtr_rd : (s.setIdtr v).rd = s.rd := rfl
@[simp] theorem setIdtr_wr : (s.setIdtr v).wr = s.wr := rfl
@[simp] theorem setIdtr_queueBuilt : (s.setIdtr v).queueBuilt = s.queueBuilt := rfl
@[simp] theorem setIdtr_idtr : (s.setIdtr v).idtr = v := rfl
@[simp] theorem setIdtr_picM : (s.setIdtr v).picM = s.picM := rfl
@[simp] theorem setIdtr_picS : (s.setIdtr v).picS = s.picS := rfl
@[simp] theorem setIdtr_kbd : (s.setIdtr v).kbd = s.kbd := rfl
@[simp] theorem setIdtr_intFlag : (s.setIdtr v).intFlag = s.intFlag := rfl
@[simp] theorem setIdtr_halted : (s.setIdtr v).halted = s.halted := rfl
@[simp] theorem setIdtr_ctx : (s.setIdtr v).ctx = s.ctx := rfl
@[simp] theorem setIdtr_fault : (s.setIdtr v).fault = s.fault := rfl
@[simp] theorem setIdtr_refusal : (s.setIdtr v).refusal = s.refusal := rfl
@[simp] theorem setIdtr_iotrace : (s.setIdtr v).iotrace = s.iotrace := rfl
@[simp] theorem setIdtr_fgpos : (s.setIdtr v).fgpos = s.fgpos := rfl
@[simp] theorem setIdtr_stream : (s.setIdtr v).stream = s.stream := rfl
@[simp] theorem setIdtr_mainLoop : (s.setIdtr v).mainLoop = s.mainLoop := rfl
@[simp] theorem setIdtr_work : (s.setIdtr v).work = s.work := rfl
@[simp] theorem setIdtr_sched : (s.setIdtr v).sched = s.sched := rfl
@[simp] theorem setIdtr_keys : (s.setIdtr v).keys = s.keys := rfl
@[simp] theorem setIdtr_result : (s.setIdtr v).result = s.result := rfl
@[simp] theorem setIdtr_setIdtr (w : Option TableRegister) : (s.setIdtr v).setIdtr w = s.setIdtr w := rfl
@[simp] theorem setIdtr_self : s.setIdtr s.idtr = s := rfl
end setIdtr

section setPicM
variable (s : State) (v : Pic)
@[simp] theorem setPicM_cfg : (s.setPicM v).cfg = s.cfg := rfl
@[simp] theorem setPicM_mem : (s.setPicM v).mem = s.mem := rfl
@[simp] theorem setPicM_crtc : (s.setPicM v).crtc = s.crtc := rfl
@[simp] theorem setPicM_term : (s.setPicM v).term = s.term := rfl
@[simp] theorem setPicM_mods : (s.setPicM v).mods = s.mods := rfl
@[simp] theorem setPicM_ring : (s.setPicM v).ring = s.ring := rfl
@[simp] theorem setPicM_rd : (s.setPicM v).rd = s.rd := rfl
@[simp] theorem setPicM_wr : (s.setPicM v).wr = s.wr := rfl
@[simp] theorem setPicM_queueBuilt : (s.setPicM v).queueBuilt = s.queueBuilt := rfl
@[simp] theorem setPicM_idtr : (s.setPicM v).idtr = s.idtr := rfl
@[simp] theorem setPicM_picM : (s.setPicM v).picM = v := rfl
@[simp] theorem setPicM_picS : (s.setPicM v).picS = s.picS := rfl
@[simp] theorem setPicM_kbd : (s.setPicM v).kbd = s.kbd := rfl
@[simp] theorem setPicM_intFlag : (s.setPicM v).intFlag = s.intFlag := rfl
@[simp] theorem setPicM_halted : (s.setPicM v).halted = s.halted := rfl
@[simp] theorem setPicM_ctx : (s.setPicM v).ctx = s.ctx := rfl
@[simp] theorem setPicM_fault : (s.setPicM v).fault = s.fault := rfl
@[simp] theorem setPicM_refusal : (s.setPicM v).refusal = s.refusal := rfl
@[simp] theorem setPicM_iotrace : (s.setPicM v).iotrace = s.iotrace := rfl
@[simp] theorem setPicM_fgpos : (s.setPicM v).fgpos = s.fgpos := rfl
@[simp] theorem setPicM_stream : (s.setPicM v).stream = s.stream := rfl
@[simp] theorem setPicM_mainLoop : (s.setPicM v).mainLoop = s.mainLoop := rfl
@[simp] theorem setPicM_work : (s.setPicM v).work = s.work := rfl
@[simp] theorem setPicM_sched : (s.setPicM v).sched = s.sched := rfl
@[simp] theorem setPicM_keys : (s.setPicM v).keys = s.keys := rfl
@[simp] theorem setPicM_result : (s.setPicM v).result = s.result := rfl
@[simp] theorem setPicM_setPicM (w : Pic) : (s.setPicM v).setPicM w = s.setPicM w := rfl
@[simp] theorem setPicM_self : s.setPicM s.picM = s := rfl
end setPicM

section setPicS
variable (s : State) (v : Pic)
@[simp] theorem setPicS_cfg : (s.setPicS v).cfg = s.cfg := rfl
@[simp] theorem setPicS_mem : (s.setPicS v).mem = s.mem := rfl
@[simp] theorem setPicS_crtc : (s.setPicS v).crtc = s.crtc := rfl
@[simp] theorem setPicS_term : (s.setPicS v).term = s.term := rfl
@[simp] theorem setPicS_mods : (s.setPicS v).mods = s.mods := rfl
@[simp] theorem setPicS_ring : (s.setPicS v).ring = s.ring := rfl
@[simp] theorem setPicS_rd : (s.setPicS v).rd = s.rd := rfl
@[simp] theorem setPicS_wr : (s.setPicS v).wr = s.wr := rfl
@[simp] theorem setPicS_queueBuilt : (s.setPicS v).queueBuilt = s.queueBuilt := rfl
@[simp] theorem setPicS_idtr : (s.setPicS v).idtr = s.idtr := rfl
@[simp] theorem setPicS_picM : (s.setPicS v).picM = s.picM := rfl
@[simp] theorem setPicS_picS : (s.setPicS v).picS = v := rfl
@[simp] theorem setPicS_kbd : (s.setPicS v).kbd = s.kbd := rfl
@[simp] theorem setPicS_intFlag : (s.setPicS v).intFlag = s.intFlag := rfl
@[simp] theorem setPicS_halted : (s.setPicS v).halted = s.halted := rfl
@[simp] theorem setPicS_ctx : (s.setPicS v).ctx = s.ctx := rfl
@[simp] theorem setPicS_fault : (s.setPicS v).fault = s.fault := rfl
@[simp] theorem setPicS_refusal : (s.setPicS v).refusal = s.refusal := rfl
@[simp] theorem setPicS_iotrace : (s.setPicS v).iotrace = s.iotrace := rfl
@[simp] theorem setPicS_fgpos : (s.setPicS v).fgpos = s.fgpos := rfl
@[simp] theorem setPicS_stream : (s.setPicS v).stream = s.stream := rfl
@[simp] theorem setPicS_mainLoop : (s.setPicS v).mainLoop = s.mainLoop := rfl
@[simp] theorem setPicS_work : (s.setPicS v).work = s.work := rfl
@[simp] theorem setPicS_sched : (s.setPicS v).sched = s.sched := rfl
@[simp] theorem setPicS_keys : (s.setPicS v).keys = s.keys := rfl
@[simp] theorem setPicS_result : (s.setPicS v).result = s.result := rfl
@[simp] theorem setPicS_setPicS (w : Pic) : (s.setPicS v).setPicS w = s.setPicS w := rfl
@[simp] theorem setPicS_self : s.setPicS s.picS = s := rfl
end setPicS

section setKbd
variable (s : State) (v : KbdLatch)
@[simp] theorem setKbd_cfg : (s.setKbd v).cfg = s.cfg := rfl
@[simp] theorem setKbd_mem : (s.setKbd v).mem = s.mem := rfl
@[simp] theorem setKbd_crtc : (s.setKbd v).crtc = s.crtc := rfl
@[simp] theorem setKbd_term : (s.setKbd v).term = s.term := rfl
@[simp] theorem setKbd_mods : (s.setKbd v).mods = s.mods := rfl
@[simp] theorem setKbd_ring : (s.setKbd v).ring = s.ring := rfl
@[simp] theorem setKbd_rd : (s.setKbd v).rd = s.rd := rfl
@[simp] theorem setKbd_wr : (s.setKbd v).wr = s.wr := rfl
@[simp] theorem setKbd_queueBuilt : (s.setKbd v).queueBuilt = s.queueBuilt := rfl
@[simp] theorem setKbd_idtr : (s.setKbd v).idtr = s.idtr := rfl
@[simp] theorem setKbd_picM : (s.setKbd v).picM = s.picM := rfl
@[simp] theorem setKbd_picS : (s.setKbd v).picS = s.picS := rfl
@[simp] theorem setKbd_kbd : (s.setKbd v).kbd = v := rfl
@[simp] theorem setKbd_intFlag : (s.setKbd v).intFlag = s.intFlag := rfl
@[simp] theorem setKbd_halted : (s.setKbd v).halted = s.halted := rfl
@[simp] theorem setKbd_ctx : (s.setKbd v).ctx = s.ctx := rfl
@[simp] theorem setKbd_fault : (s.setKbd v).fault = s.fault := rfl
@[simp] theorem setKbd_refusal : (s.setKbd v).refusal = s.refusal := rfl
@[simp] theorem setKbd_iotrace : (s.setKbd v).iotrace = s.iotrace := rfl
@[simp] theorem setKbd_fgpos : (s.setKbd v).fgpos = s.fgpos := rfl
@[simp] theorem setKbd_stream : (s.setKbd v).stream = s.stream := rfl
@[simp] theorem setKbd_mainLoop : (s.setKbd v).mainLoop = s.mainLoop := rfl
@[simp] theorem setKbd_work : (s.setKbd v).work = s.work := rfl
@[simp] theorem setKbd_sched : (s.setKbd v).sched = s.sched := rfl
@[simp] theorem setKbd_keys : (s.setKbd v).keys = s.keys := rfl
@[simp] theorem setKbd_result : (s.setKbd v).result = s.result := rfl
@[simp] theorem setKbd_setKbd (w : KbdLatch) : (s.setKbd v).setKbd w = s.setKbd w := rfl
@[simp] theorem setKbd_self : s.setKbd s.kbd = s := rfl
end setKbd

section setIntFlag
variable (s : State) (v : Bool)
@[simp] theorem setIntFlag_cfg : (s.setIntFlag v).cfg = s.cfg := rfl
@[simp] theorem setIntFlag_mem : (s.setIntFlag v).mem = s.mem := rfl
@[simp] theorem setIntFlag_crtc : (s.setIntFlag v).crtc = s.crtc := rfl
@[simp] theorem setIntFlag_term : (s.setIntFlag v).term = s.term := rfl
@[simp] theorem setIntFlag_mods : (s.setIntFlag v).mods = s.mods := rfl
@[simp] theorem setIntFlag_ring : (s.setIntFlag v).ring = s.ring := rfl
@[simp] theorem setIntFlag_rd : (s.setIntFlag v).rd = s.rd := rfl
@[simp] theorem setIntFlag_wr : (s.setIntFlag v).wr = s.wr := rfl
@[simp] theorem setIntFlag_queueBuilt : (s.setIntFlag v).queueBuilt = s.queueBuilt := rfl
@[simp] theorem setIntFlag_idtr : (s.setIntFlag v).idtr = s.idtr := rfl
@[simp] theorem setIntFlag_picM : (s.setIntFlag v).picM = s.picM := rfl
@[simp] theorem setIntFlag_picS : (s.setIntFlag v).picS = s.picS := rfl
@[simp] theorem setIntFlag_kbd : (s.setIntFlag v).kbd = s.kbd := rfl
@[simp] theorem setIntFlag_intFlag : (s.setIntFlag v).intFlag = v := rfl
@[simp] theorem setIntFlag_halted : (s.setIntFlag v).halted = s.halted := rfl
@[simp] theorem setIntFlag_ctx : (s.setIntFlag v).ctx = s.ctx := rfl
@[simp] theorem setIntFlag_fault : (s.setIntFlag v).fault = s.fault := rfl
@[simp] theorem setIntFlag_refusal : (s.setIntFlag v).refusal = s.refusal := rfl
@[simp] theorem setIntFlag_iotrace : (s.setIntFlag v).iotrace = s.iotrace := rfl
@[simp] theorem setIntFlag_fgpos : (s.setIntFlag v).fgpos = s.fgpos := rfl
@[simp] theorem setIntFlag_stream : (s.setIntFlag v).stream = s.stream := rfl
@[simp] theorem setIntFlag_mainLoop : (s.setIntFlag v).mainLoop = s.mainLoop := rfl
@[simp] theorem setIntFlag_work : (s.setIntFlag v).work = s.work := rfl
@[simp] theorem setIntFlag_sched : (s.setIntFlag v).sched = s.sched := rfl
@[simp] theorem setIntFlag_keys : (s.setIntFlag v).keys = s.keys := rfl
@[simp] theorem setIntFlag_result : (s.setIntFlag v).result = s.result := rfl
@[simp] theorem setIntFlag_setIntFlag (w : Bool) : (s.setIntFlag v).setIntFlag w = s.setIntFlag w := rfl
@[simp] theorem setIntFlag_self : s.setIntFlag s.intFlag = s := rfl
end setIntFlag

section setHalted
variable (s : State) (v : Bool)
@[simp] theorem setHalted_cfg : (s.setHalted v).cfg = s.cfg := rfl
@[simp] theorem setHalted_mem : (s.setHalted v).mem = s.mem := rfl
@[simp] theorem setHalted_crtc : (s.setHalted v).crtc = s.crtc := rfl
@[simp] theorem setHalted_term : (s.setHalted v).term = s.term := rfl
@[simp] theorem setHalted_mods : (s.setHalted v).mods = s.mods := rfl
@[simp] theorem setHalted_ring : (s.setHalted v).ring = s.ring := rfl
@[simp] theorem setHalted_rd : (s.setHalted v).rd = s.rd := rfl
@[simp] theorem setHalted_wr : (s.setHalted v).wr = s.wr := rfl
@[simp] theorem setHalted_queueBuilt : (s.setHalted v).queueBuilt = s.queueBuilt := rfl
@[simp] theorem setHalted_idtr : (s.setHalted v).idtr = s.idtr := rfl
@[simp] theorem setHalted_picM : (s.setHalted v).picM = s.picM := rfl
@[simp] theorem setHalted_picS : (s.setHalted v).picS = s.picS := rfl
@[simp] theorem setHalted_kbd : (s.setHalted v).kbd = s.kbd := rfl
@[simp] theorem setHalted_intFlag : (s.setHalted v).intFlag = s.intFlag := rfl
@[simp] theorem setHalted_halted : (s.setHalted v).halted = v := rfl
@[simp] theorem setHalted_ctx : (s.setHalted v).ctx = s.ctx := rfl
@[simp] theorem setHalted_fault : (s.setHalted v).fault = s.fault := rfl
@[simp] theorem setHalted_refusal : (s.setHalted v).refusal = s.refusal := rfl
@[simp] theorem setHalted_iotrace : (s.setHalted v).iotrace = s.iotrace := rfl
@[simp] theorem setHalted_fgpos : (s.setHalted v).fgpos = s.fgpos := rfl
@[simp] theorem setHalted_stream : (s.setHalted v).stream = s.stream := rfl
@[simp] theorem setHalted_mainLoop : (s.setHalted v).mainLoop = s.mainLoop := rfl
@[simp] theorem setHalted_work : (s.setHalted v).work = s.work := rfl
@[simp] theorem setHalted_sched : (s.setHalted v).sched = s.sched := rfl
@[simp] theorem setHalted_keys : (s.setHalted v).keys = s.keys := rfl
@[simp] theorem setHalted_result : (s.setHalted v).result = s.result := rfl
@[simp] theorem setHalted_setHalted (w : Bool) : (s.setHalted v).setHalted w = s.setHalted w := rfl
@[simp] theorem setHalted_self : s.setHalted s.halted = s := rfl
end setHalted

section setCtx
variable (s : State) (v : Ctx)
@[simp] theorem setCtx_cfg : (s.setCtx v).cfg = s.cfg := rfl
@[simp] theorem setCtx_mem : (s.setCtx v).mem = s.mem := rfl
@[simp] theorem setCtx_crtc : (s.setCtx v).crtc = s.crtc := rfl
@[simp] theorem setCtx_term : (s.setCtx v).term = s.term := rfl
@[simp] theorem setCtx_mods : (s.setCtx v).mods = s.mods := rfl
@[simp] theorem setCtx_ring : (s.setCtx v).ring = s.ring := rfl
@[simp] theorem setCtx_rd : (s.setCtx v).rd = s.rd := rfl
@[simp] theorem setCtx_wr : (s.setCtx v).wr = s.wr := rfl
@[simp] theorem setCtx_queueBuilt : (s.setCtx v).queueBuilt = s.queueBuilt := rfl
@[simp] theorem setCtx_idtr : (s.setCtx v).idtr = s.idtr := rfl
@[simp] theorem setCtx_picM : (s.setCtx v).picM = s.picM := rfl
@[simp] theorem setCtx_picS : (s.setCtx v).picS = s.picS := rfl
@[simp] theorem setCtx_kbd : (s.setCtx v).kbd = s.kbd := rfl
@[simp] theorem setCtx_intFlag : (s.setCtx v).intFlag = s.intFlag := rfl
@[simp] theorem setCtx_halted : (s.setCtx v).halted = s.halted := rfl
@[simp] theorem setCtx_ctx : (s.setCtx v).ctx = v := rfl
@[simp] theorem setCtx_fault : (s.setCtx v).fault = s.fault := rfl
@[simp] theorem setCtx_refusal : (s.setCtx v).refusal = s.refusal := rfl
@[simp] theorem setCtx_iotrace : (s.setCtx v).iotrace = s.iotrace := rfl
@[simp] theorem setCtx_fgpos : (s.setCtx v).fgpos = s.fgpos := rfl
@[simp] theorem setCtx_stream : (s.setCtx v).stream = s.stream := rfl
@[simp] theorem setCtx_mainLoop : (s.setCtx v).mainLoop = s.mainLoop := rfl
@[simp] theorem setCtx_work : (s.setCtx v).work = s.work := rfl
@[simp] theorem setCtx_sched : (s.setCtx v).sched = s.sched := rfl
@[simp] theorem setCtx_keys : (s.setCtx v).keys = s.keys := rfl
@[simp] theorem setCtx_result : (s.setCtx v).result = s.result := rfl
@[simp] theorem setCtx_setCtx (w : Ctx) : (s.setCtx v).setCtx w = s.setCtx w := rfl
@[simp] theorem setCtx_self : s.setCtx s.ctx = s := rfl
end setCtx

section setFault
variable (s : State) (v : Option FaultCode)
@[simp] theorem setFault_cfg : (s.setFault v).cfg = s.cfg := rfl
@[simp] theorem setFault_mem : (s.setFault v).mem = s.mem := rfl
@[simp] theorem setFault_crtc : (s.setFault v).crtc = s.crtc := rfl
@[simp] theorem setFault_term : (s.setFault v).term = s.term := rfl
@[simp] theorem setFault_mods : (s.setFault v).mods = s.mods := rfl
@[simp] theorem setFault_ring : (s.setFault v).ring = s.ring := rfl
@[simp] theorem setFault_rd : (s.setFault v).rd = s.rd := rfl
@[simp] theorem setFault_wr : (s.setFault v).wr = s.wr := rfl
@[simp] theorem setFault_queueBuilt : (s.setFault v).queueBuilt = s.queueBuilt := rfl
@[simp] theorem setFault_idtr : (s.setFault v).idtr = s.idtr := rfl
@[simp] theorem setFault_picM : (s.setFault v).picM = s.picM := rfl
@[simp] theorem setFault_picS : (s.setFault v).picS = s.picS := rfl
@[simp] theorem setFault_kbd : (s.setFault v).kbd = s.kbd := rfl
@[simp] theorem setFault_intFlag : (s.setFault v).intFlag = s.intFlag := rfl
@[simp] theorem setFault_halted : (s.setFault v).halted = s.halted := rfl
@[simp] theorem setFault_ctx : (s.setFault v).ctx = s.ctx := rfl
@[simp] theorem setFault_fault : (s.setFault v).fault = v := rfl
@[simp] theorem setFault_refusal : (s.setFault v).refusal = s.refusal := rfl
@[simp] theorem setFault_iotrace : (s.setFault v).iotrace = s.iotrace := rfl
@[simp] theorem setFault_fgpos : (s.setFault v).fgpos = s.fgpos := rfl
@[simp] theorem setFault_stream : (s.setFault v).stream = s.stream := rfl
@[simp] theorem setFault_mainLoop : (s.setFault v).mainLoop = s.mainLoop := rfl
@[simp] theorem setFault_work : (s.setFault v).work = s.work := rfl
@[simp] theorem setFault_sched : (s.setFault v).sched = s.sched := rfl
@[simp] theorem setFault_keys : (s.setFault v).keys = s.keys := rfl
@[simp] theorem setFault_result : (s.setFault v).result = s.result := rfl
@[simp] theorem setFault_setFault (w : Option FaultCode) : (s.setFault v).setFault w = s.setFault w := rfl
@[simp] theorem setFault_self : s.setFault s.fault = s := rfl
end setFault

section setRefusal
variable (s : State) (v : Option Reason)
@[simp] theorem setRefusal_cfg : (s.setRefusal v).cfg = s.cfg := rfl
@[simp] theorem setRefusal_mem : (s.setRefusal v).mem = s.mem := rfl
@[simp] theorem setRefusal_crtc : (s.setRefusal v).crtc = s.crtc := rfl
@[simp] theorem setRefusal_term : (s.setRefusal v).term = s.term := rfl
@[simp] theorem setRefusal_mods : (s.setRefusal v).mods = s.mods := rfl
@[simp] theorem setRefusal_ring : (s.setRefusal v).ring = s.ring := rfl
@[simp] theorem setRefusal_rd : (s.setRefusal v).rd = s.rd := rfl
@[simp] theorem setRefusal_wr : (s.setRefusal v).wr = s.wr := rfl
@[simp] theorem setRefusal_queueBuilt : (s.setRefusal v).queueBuilt = s.queueBuilt := rfl
@[simp] theorem setRefusal_idtr : (s.setRefusal v).idtr = s.idtr := rfl
@[simp] theorem setRefusal_picM : (s.setRefusal v).picM = s.picM := rfl
@[simp] theorem setRefusal_picS : (s.setRefusal v).picS = s.picS := rfl
@[simp] theorem setRefusal_kbd : (s.setRefusal v).kbd = s.kbd := rfl
@[simp] theorem setRefusal_intFlag : (s.setRefusal v).intFlag = s.intFlag := rfl
@[simp] theorem setRefusal_halted : (s.setRefusal v).halted = s.halted := rfl
@[simp] theorem setRefusal_ctx : (s.setRefusal v).ctx = s.ctx := rfl
@[simp] theorem setRefusal_fault : (s.setRefusal v).fault = s.fault := rfl
@[simp] theorem setRefusal_refusal : (s.setRefusal v).refusal = v := rfl
@[simp] theorem setRefusal_iotrace : (s.setRefusal v).iotrace = s.iotrace := rfl
@[simp] theorem setRefusal_fgpos : (s.setRefusal v).fgpos = s.fgpos := rfl
@[simp] theorem setRefusal_stream : (s.setRefusal v).stream = s.stream := rfl
@[simp] theorem setRefusal_mainLoop : (s.setRefusal v).mainLoop = s.mainLoop := rfl
@[simp] theorem setRefusal_work : (s.setRefusal v).work = s.work := rfl
@[simp] theorem setRefusal_sched : (s.setRefusal v).sched = s.sched := rfl
@[simp] theorem setRefusal_keys : (s.setRefusal v).keys = s.keys := rfl
@[simp] theorem setRefusal_result : (s.setRefusal v).result = s.result := rfl
@[simp] theorem setRefusal_setRefusal (w : Option Reason) : (s.setRefusal v).setRefusal w = s.setRefusal w := rfl
@[simp] theorem setRefusal_self : s.setRefusal s.refusal = s := rfl
end setRefusal

section setIotrace
variable (s : State) (v : List IoEntry)
@[simp] theorem setIotrace_cfg : (s.setIotrace v).cfg = s.cfg := rfl
@[simp] theorem setIotrace_mem : (s.setIotrace v).mem = s.mem := rfl
@[simp] theorem setIotrace_crtc : (s.setIotrace v).crtc = s.crtc := rfl
@[simp] theorem setIotrace_term : (s.setIotrace v).term = s.term := rfl
@[simp] theorem setIotrace_mods : (s.setIotrace v).mods = s.mods := rfl
@[simp] theorem setIotrace_ring : (s.setIotrace v).ring = s.ring := rfl
@[simp] theorem setIotrace_rd : (s.setIotrace v).rd = s.rd := rfl
@[simp] theorem setIotrace_wr : (s.setIotrace v).wr = s.wr := rfl
@[simp] theorem setIotrace_queueBuilt : (s.setIotrace v).queueBuilt = s.queueBuilt := rfl
@[simp] theorem setIotrace_idtr : (s.setIotrace v).idtr = s.idtr := rfl
@[simp] theorem setIotrace_picM : (s.setIotrace v).picM = s.picM := rfl
@[simp] theorem setIotrace_picS : (s.setIotrace v).picS = s.picS := rfl
@[simp] theorem setIotrace_kbd : (s.setIotrace v).kbd = s.kbd := rfl
@[simp] theorem setIotrace_intFlag : (s.setIotrace v).intFlag = s.intFlag := rfl
@[simp] theorem setIotrace_halted : (s.setIotrace v).halted = s.halted := rfl
@[simp] theorem setIotrace_ctx : (s.setIotrace v).ctx = s.ctx := rfl
@[simp] theorem setIotrace_fault : (s.setIotrace v).fault = s.fault := rfl
@[simp] theorem setIotrace_refusal : (s.setIotrace v).refusal = s.refusal := rfl
@[simp] theorem setIotrace_iotrace : (s.setIotrace v).iotrace = v := rfl
@[simp] theorem setIotrace_fgpos : (s.setIotrace v).fgpos = s.fgpos := rfl
@[simp] theorem setIotrace_stream : (s.setIotrace v).stream = s.stream := rfl
@[simp] theorem setIotrace_mainLoop : (s.setIotrace v).mainLoop = s.mainLoop := rfl
@[simp] theorem setIotrace_work : (s.setIotrace v).work = s.work := rfl
@[simp] theorem setIotrace_sched : (s.setIotrace v).sched = s.sched := rfl
@[simp] theorem setIotrace_keys : (s.setIotrace v).keys = s.keys := rfl
@[simp] theorem setIotrace_result : (s.setIotrace v).result = s.result := rfl
@[simp] theorem setIotrace_setIotrace (w : List IoEntry) : (s.setIotrace v).setIotrace w = s.setIotrace w := rfl
@[simp] theorem setIotrace_self : s.setIotrace s.iotrace = s := rfl
end setIotrace

section setFgpos
variable (s : State) (v : Nat)
@[simp] theorem setFgpos_cfg : (s.setFgpos v).cfg = s.cfg := rfl
@[simp] theorem setFgpos_mem : (s.setFgpos v).mem = s.mem := rfl
@[simp] theorem setFgpos_crtc : (s.setFgpos v).crtc = s.crtc := rfl
@[simp] theorem setFgpos_term : (s.setFgpos v).term = s.term := rfl
@[simp] theorem setFgpos_mods : (s.setFgpos v).mods = s.mods := rfl
@[simp] theorem setFgpos_ring : (s.setFgpos v).ring = s.ring := rfl
@[simp] theorem setFgpos_rd : (s.setFgpos v).rd = s.rd := rfl
@[simp] theorem setFgpos_wr : (s.setFgpos v).wr = s.wr := rfl
@[simp] theorem setFgpos_queueBuilt : (s.setFgpos v).queueBuilt = s.queueBuilt := rfl
@[simp] theorem setFgpos_idtr : (s.setFgpos v).idtr = s.idtr := rfl
@[simp] theorem setFgpos_picM : (s.setFgpos v).picM = s.picM := rfl
@[simp] theorem setFgpos_picS : (s.setFgpos v).picS = s.picS := rfl
@[simp] theorem setFgpos_kbd : (s.setFgpos v).kbd = s.kbd := rfl
@[simp] theorem setFgpos_intFlag : (s.setFgpos v).intFlag = s.intFlag := rfl
@[simp] theorem setFgpos_halted : (s.setFgpos v).halted = s.halted := rfl
@[simp] theorem setFgpos_ctx : (s.setFgpos v).ctx = s.ctx := rfl
@[simp] theorem setFgpos_fault : (s.setFgpos v).fault = s.fault := rfl
@[simp] theorem setFgpos_refusal : (s.setFgpos v).refusal = s.refusal := rfl
@[simp] theorem setFgpos_iotrace : (s.setFgpos v).iotrace = s.iotrace := rfl
@[simp] theorem setFgpos_fgpos : (s.setFgpos v).fgpos = v := rfl
@[simp] theorem setFgpos_stream : (s.setFgpos v).stream = s.stream := rfl
@[simp] theorem setFgpos_mainLoop : (s.setFgpos v).mainLoop = s.mainLoop := rfl
@[simp] theorem setFgpos_work : (s.setFgpos v).work = s.work := rfl
@[simp] theorem setFgpos_sched : (s.setFgpos v).sched = s.sched := rfl
@[simp] theorem setFgpos_keys : (s.setFgpos v).keys = s.keys := rfl
@[simp] theorem setFgpos_result : (s.setFgpos v).result = s.result := rfl
@[simp] theorem setFgpos_setFgpos (w : Nat) : (s.setFgpos v).setFgpos w = s.setFgpos w := rfl
@[simp] theorem setFgpos_self : s.setFgpos s.fgpos = s := rfl
end setFgpos

section setStream
variable (s : State) (v : List Byte)
@[simp] theorem setStream_cfg : (s.setStream v).cfg = s.cfg := rfl
@[simp] theorem setStream_mem : (s.setStream v).mem = s.mem := rfl
@[simp] theorem setStream_crtc : (s.setStream v).crtc = s.crtc := rfl
@[simp] theorem setStream_term : (s.setStream v).term = s.term := rfl
@[simp] theorem setStream_mods : (s.setStream v).mods = s.mods := rfl
@[simp] theorem setStream_ring : (s.setStream v).ring = s.ring := rfl
@[simp] theorem setStream_rd : (s.setStream v).rd = s.rd := rfl
@[simp] theorem setStream_wr : (s.setStream v).wr = s.wr := rfl
@[simp] theorem setStream_queueBuilt : (s.setStream v).queueBuilt = s.queueBuilt := rfl
@[simp] theorem setStream_idtr : (s.setStream v).idtr = s.idtr := rfl
@[simp] theorem setStream_picM : (s.setStream v).picM = s.picM := rfl
@[simp] theorem setStream_picS : (s.setStream v).picS = s.picS := rfl
@[simp] theorem setStream_kbd : (s.setStream v).kbd = s.kbd := rfl
@[simp] theorem setStream_intFlag : (s.setStream v).intFlag = s.intFlag := rfl
@[simp] theorem setStream_halted : (s.setStream v).halted = s.halted := rfl
@[simp] theorem setStream_ctx : (s.setStream v).ctx = s.ctx := rfl
@[simp] theorem setStream_fault : (s.setStream v).fault = s.fault := rfl
@[simp] theorem setStream_refusal : (s.setStream v).refusal = s.refusal := rfl
@[simp] theorem setStream_iotrace : (s.setStream v).iotrace = s.iotrace := rfl
@[simp] theorem setStream_fgpos : (s.setStream v).fgpos = s.fgpos := rfl
@[simp] theorem setStream_stream : (s.setStream v).stream = v := rfl
@[simp] theorem setStream_mainLoop : (s.setStream v).mainLoop = s.mainLoop := rfl
@[simp] theorem setStream_work : (s.setStream v).work = s.work := rfl
@[simp] theorem setStream_sched : (s.setStream v).sched = s.sched := rfl
@[simp] theorem setStream_keys : (s.setStream v).keys = s.keys := rfl
@[simp] theorem setStream_result : (s.setStream v).result = s.result := rfl
@[simp] theorem setStream_setStream (w : List Byte) : (s.setStream v).setStream w = s.setStream w := rfl
@[simp] theorem setStream_self : s.setStream s.stream = s := rfl
end setStream

section setMainLoop
variable (s : State) (v : Bool)
@[simp] theorem setMainLoop_cfg : (s.setMainLoop v).cfg = s.cfg := rfl
@[simp] theorem setMainLoop_mem : (s.setMainLoop v).mem = s.mem := rfl
@[simp] theorem setMainLoop_crtc : (s.setMainLoop v).crtc = s.crtc := rfl
@[simp] theorem setMainLoop_term : (s.setMainLoop v).term = s.term := rfl
@[simp] theorem setMainLoop_mods : (s.setMainLoop v).mods = s.mods := rfl
@[simp] theorem setMainLoop_ring : (s.setMainLoop v).ring = s.ring := rfl
@[simp] theorem setMainLoop_rd : (s.setMainLoop v).rd = s.rd := rfl
@[simp] theorem setMainLoop_wr : (s.setMainLoop v).wr = s.wr := rfl
@[simp] theorem setMainLoop_queueBuilt : (s.setMainLoop v).queueBuilt = s.queueBuilt := rfl
@[simp] theorem setMainLoop_idtr : (s.setMainLoop v).idtr = s.idtr := rfl
@[simp] theorem setMainLoop_picM : (s.setMainLoop v).picM = s.picM := rfl
@[simp] theorem setMainLoop_picS : (s.setMainLoop v).picS = s.picS := rfl
@[simp] theorem setMainLoop_kbd : (s.setMainLoop v).kbd = s.kbd := rfl
@[simp] theorem setMainLoop_intFlag : (s.setMainLoop v).intFlag = s.intFlag := rfl
@[simp] theorem setMainLoop_halted : (s.setMainLoop v).halted = s.halted := rfl
@[simp] theorem setMainLoop_ctx : (s.setMainLoop v).ctx = s.ctx := rfl
@[simp] theorem setMainLoop_fault : (s.setMainLoop v).fault = s.fault := rfl
@[simp] theorem setMainLoop_refusal : (s.setMainLoop v).refusal = s.refusal := rfl
@[simp] theorem setMainLoop_iotrace : (s.setMainLoop v).iotrace = s.iotrace := rfl
@[simp] theorem setMainLoop_fgpos : (s.setMainLoop v).fgpos = s.fgpos := rfl
@[simp] theorem setMainLoop_stream : (s.setMainLoop v).stream = s.stream := rfl
@[simp] theorem setMainLoop_mainLoop : (s.setMainLoop v).mainLoop = v := rfl
@[simp] theorem setMainLoop_work : (s.setMainLoop v).work = s.work := rfl
@[simp] theorem setMainLoop_sched : (s.setMainLoop v).sched = s.sched := rfl
@[simp] theorem setMainLoop_keys : (s.setMainLoop v).keys = s.keys := rfl
@[simp] theorem setMainLoop_result : (s.setMainLoop v).result = s.result := rfl
@[simp] theorem setMainLoop_setMainLoop (w : Bool) : (s.setMainLoop v).setMainLoop w = s.setMainLoop w := rfl
@[simp] theorem setMainLoop_self : s.setMainLoop s.mainLoop = s := rfl
end setMainLoop

section setWork
variable (s : State) (v : List WorkItem)
@[simp] theorem setWork_cfg : (s.setWork v).cfg = s.cfg := rfl
@[simp] theorem setWork_mem : (s.setWork v).mem = s.mem := rfl
@[simp] theorem setWork_crtc : (s.setWork v).crtc = s.crtc := rfl
@[simp] theorem setWork_term : (s.setWork v).term = s.term := rfl
@[simp] theorem setWork_mods : (s.setWork v).mods = s.mods := rfl
@[simp] theorem setWork_ring : (s.setWork v).ring = s.ring := rfl
@[simp] theorem setWork_rd : (s.setWork v).rd = s.rd := rfl
@[simp] theorem setWork_wr : (s.setWork v).wr = s.wr := rfl
@[simp] theorem setWork_queueBuilt : (s.setWork v).queueBuilt = s.queueBuilt := rfl
@[simp] theorem setWork_idtr : (s.setWork v).idtr = s.idtr := rfl
@[simp] theorem setWork_picM : (s.setWork v).picM = s.picM := rfl
@[simp] theorem setWork_picS : (s.setWork v).picS = s.picS := rfl
@[simp] theorem setWork_kbd : (s.setWork v).kbd = s.kbd := rfl
@[simp] theorem setWork_intFlag : (s.setWork v).intFlag = s.intFlag := rfl
@[simp] theorem setWork_halted : (s.setWork v).halted = s.halted := rfl
@[simp] theorem setWork_ctx : (s.setWork v).ctx = s.ctx := rfl
@[simp] theorem setWork_fault : (s.setWork v).fault = s.fault := rfl
@[simp] theorem setWork_refusal : (s.setWork v).refusal = s.refusal := rfl
@[simp] theorem setWork_iotrace : (s.setWork v).iotrace = s.iotrace := rfl
@[simp] theorem setWork_fgpos : (s.setWork v).fgpos = s.fgpos := rfl
@[simp] theorem setWork_stream : (s.setWork v).stream = s.stream := rfl
@[simp] theorem setWork_mainLoop : (s.setWork v).mainLoop = s.mainLoop := rfl
@[simp] theorem setWork_work : (s.setWork v).work = v := rfl
@[simp] theorem setWork_sched : (s.setWork v).sched = s.sched := rfl
@[simp] theorem setWork_keys : (s.setWork v).keys = s.keys := rfl
@[simp] theorem setWork_result : (s.setWork v).result = s.result := rfl
@[simp] theorem setWork_setWork (w : List WorkItem) : (s.setWork v).setWork w = s.setWork w := rfl
@[simp] theorem setWork_self : s.setWork s.work = s := rfl
end setWork

section setSched
variable (s : State) (v : List Act)
@[simp] theorem setSched_cfg : (s.setSched v).cfg = s.cfg := rfl
@[simp] theorem setSched_mem : (s.setSched v).mem = s.mem := rfl
@[simp] theorem setSched_crtc : (s.setSched v).crtc = s.crtc := rfl
@[simp] theorem setSched_term : (s.setSched v).term = s.term := rfl
@[simp] theorem setSched_mods : (s.setSched v).mods = s.mods := rfl
@[simp] theorem setSched_ring : (s.setSched v).ring = s.ring := rfl
@[simp] theorem setSched_rd : (s.setSched v).rd = s.rd := rfl
@[simp] theorem setSched_wr : (s.setSched v).wr = s.wr := rfl
@[simp] theorem setSched_queueBuilt : (s.setSched v).queueBuilt = s.queueBuilt := rfl
@[simp] theorem setSched_idtr : (s.setSched v).idtr = s.idtr := rfl
@[simp] theorem setSched_picM : (s.setSched v).picM = s.picM := rfl
@[simp] theorem setSched_picS : (s.setSched v).picS = s.picS := rfl
@[simp] theorem setSched_kbd : (s.setSched v).kbd = s.kbd := rfl
@[simp] theorem setSched_intFlag : (s.setSched v).intFlag = s.intFlag := rfl
@[simp] theorem setSched_halted : (s.setSched v).halted = s.halted := rfl
@[simp] theorem setSched_ctx : (s.setSched v).ctx = s.ctx := rfl
@[simp] theorem setSched_fault : (s.setSched v).fault = s.fault := rfl
@[simp] theorem setSched_refusal : (s.setSched v).refusal = s.refusal := rfl
@[simp] theorem setSched_iotrace : (s.setSched v).iotrace = s.iotrace := rfl
@[simp] theorem setSched_fgpos : (s.setSched v).fgpos = s.fgpos := rfl
@[simp] theorem setSched_stream : (s.setSched v).stream = s.stream := rfl
@[simp] theorem setSched_mainLoop : (s.setSched v).mainLoop = s.mainLoop := rfl
@[simp] theorem setSched_work : (s.setSched v).work = s.work := rfl
@[simp] theorem setSched_sched : (s.setSched v).sched = v := rfl
@[simp] theorem setSched_keys : (s.setSched v).keys = s.keys := rfl
@[simp] theorem setSched_result : (s.setSched v).result = s.result := rfl
@[simp] theorem setSched_setSched (w : List Act) : (s.setSched v).setSched w = s.setSched w := rfl
@[simp] theorem setSched_self : s.setSched s.sched = s := rfl
end setSched

section setKeys
variable (s : State) (v : List Byte)
@[simp] theorem setKeys_cfg : (s.setKeys v).cfg = s.cfg := rfl
@[simp] theorem setKeys_mem : (s.setKeys v).mem = s.mem := rfl
@[simp] theorem setKeys_crtc : (s.setKeys v).crtc = s.crtc := rfl
@[simp] theorem setKeys_term : (s.setKeys v).term = s.term := rfl
@[simp] theorem setKeys_mods : (s.setKeys v).mods = s.mods := rfl
@[simp] theorem setKeys_ring : (s.setKeys v).ring = s.ring := rfl
@[simp] theorem setKeys_rd : (s.setKeys v).rd = s.rd := rfl
@[simp] theorem setKeys_wr : (s.setKeys v).wr = s.wr := rfl
@[simp] theorem setKeys_queueBuilt : (s.setKeys v).queueBuilt = s.queueBuilt := rfl
@[simp] theorem setKeys_idtr : (s.setKeys v).idtr = s.idtr := rfl
@[simp] theorem setKeys_picM : (s.setKeys v).picM = s.picM := rfl
@[simp] theorem setKeys_picS : (s.setKeys v).picS = s.picS := rfl
@[simp] theorem setKeys_kbd : (s.setKeys v).kbd = s.kbd := rfl
@[simp] theorem setKeys_intFlag : (s.setKeys v).intFlag = s.intFlag := rfl
@[simp] theorem setKeys_halted : (s.setKeys v).halted = s.halted := rfl
@[simp] theorem setKeys_ctx : (s.setKeys v).ctx = s.ctx := rfl
@[simp] theorem setKeys_fault : (s.setKeys v).fault = s.fault := rfl
@[simp] theorem setKeys_refusal : (s.setKeys v).refusal = s.refusal := rfl
@[simp] theorem setKeys_iotrace : (s.setKeys v).iotrace = s.iotrace := rfl
@[simp] theorem setKeys_fgpos : (s.setKeys v).fgpos = s.fgpos := rfl
@[simp] theorem setKeys_stream : (s.setKeys v).stream = s.stream := rfl
@[simp] theorem setKeys_mainLoop : (s.setKeys v).mainLoop = s.mainLoop := rfl
@[simp] theorem setKeys_work : (s.setKeys v).work = s.work := rfl
@[simp] theorem setKeys_sched : (s.setKeys v).sched = s.sched := rfl
@[simp] theorem setKeys_keys : (s.setKeys v).keys = v := rfl
@[simp] theorem setKeys_result : (s.setKeys v).result = s.result := rfl
@[simp] theorem setKeys_setKeys (w : List Byte) : (s.setKeys v).setKeys w = s.setKeys w := rfl
@[simp] theorem setKeys_self : s.setKeys s.keys = s := rfl
end setKeys

section setResult
variable (s : State) (v : Result)
@[simp] theorem setResult_cfg : (s.setResult v).cfg = s.cfg := rfl
@[simp] theorem setResult_mem : (s.setResult v).mem = s.mem := rfl
@[simp] theorem setResult_crtc : (s.setResult v).crtc = s.crtc := rfl
@[simp] theorem setResult_term : (s.setResult v).term = s.term := rfl
@[simp] theorem setResult_mods : (s.setResult v).mods = s.mods := rfl
@[simp] theorem setResult_ring : (s.setResult v).ring = s.ring := rfl
@[simp] theorem setResult_rd : (s.setResult v).rd = s.rd := rfl
@[simp] theorem setResult_wr : (s.setResult v).wr = s.wr := rfl
@[simp] theorem setResult_queueBuilt : (s.setResult v).queueBuilt = s.queueBuilt := rfl
@[simp] theorem setResult_idtr : (s.setResult v).idtr = s.idtr := rfl
@[simp] theorem setResult_picM : (s.setResult v).picM = s.picM := rfl
@[simp] theorem setResult_picS : (s.setResult v).picS = s.picS := rfl
@[simp] theorem setResult_kbd : (s.setResult v).kbd = s.kbd := rfl
@[simp] theorem setResult_intFlag : (s.setResult v).intFlag = s.intFlag := rfl
@[simp] theorem setResult_halted : (s.setResult v).halted = s.halted := rfl
@[simp] theorem setResult_ctx : (s.setResult v).ctx = s.ctx := rfl
@[simp] theorem setResult_fault : (s.setResult v).fault = s.fault := rfl
@[simp] theorem setResult_refusal : (s.setResult v).refusal = s.refusal := rfl
@[simp] theorem setResult_iotrace : (s.setResult v).iotrace = s.iotrace := rfl
@[simp] theorem setResult_fgpos : (s.setResult v).fgpos = s.fgpos := rfl
@[simp] theorem setResult_stream : (s.setResult v).stream = s.stream := rfl
@[simp] theorem setResult_mainLoop : (s.setResult v).mainLoop = s.mainLoop := rfl
@[simp] theorem setResult_work : (s.setResult v).work = s.work := rfl
@[simp] theorem setResult_sched : (s.setResult v).sched = s.sched := rfl
@[simp] theorem setResult_keys : (s.setResult v).keys = s.keys := rfl
@[simp] theorem setResult_result : (s.setResult v).result = v := rfl
@[simp] theorem setResult_setResult (w : Result) : (s.setResult v).setResult w = s.setResult w := rfl
@[simp] theorem setResult_self : s.setResult s.result = s := rfl
end setResult

end Sys2Proof.Machine.State
end

