-- ==== Sys2Proof/Laws/Outcome.lean ====
section
/-! SUPPORT. How pieces of an operation are put together: andThen, finish, raise and refuse. -/

namespace Sys2Proof.Machine

variable {α β γ : Type}

@[simp] theorem andThen_next (a : α) (f : α → Out β) : andThen (.next a) f = f a := rfl
@[simp] theorem andThen_fault (r : Fault) (f : α → Out β) : andThen (.fault r) f = .fault r := rfl
@[simp] theorem andThen_refused (r : Refusal) (f : α → Out β) : andThen (.refused r) f = .refused r := rfl

@[simp] theorem andThen_raise (c : FaultCode) (s : State) (f : α → Out β) : andThen (raise c s) f = raise c s := rfl
@[simp] theorem andThen_refuse (r : Reason) (s : State) (f : α → Out β) : andThen (refuse r s) f = refuse r s := rfl

/-- Pieces put together run one after the other, however they are grouped. -/
theorem andThen_assoc (o : Out α) (f : α → Out β) (g : β → Out γ) :
    andThen (andThen o f) g = andThen o fun a => andThen (f a) g := by
  cases o <;> rfl

/-- What a composition that answers a next state has done: its first piece answered, and the rest from there. -/
theorem andThen_eq_next {o : Out α} {f : α → Out β} {b : β} :
    andThen o f = .next b ↔ ∃ a, o = .next a ∧ f a = .next b := by
  cases o <;> simp [andThen]

@[simp] theorem raise_ne_next (c : FaultCode) (s : State) (a : α) : raise c s ≠ .next a := by simp [raise]
@[simp] theorem refuse_ne_next (r : Reason) (s : State) (a : α) : refuse r s ≠ .next a := by simp [refuse]

@[simp] theorem finish_next (r : Result) (s : State) : finish r (.next s) = .next (s.setResult r) := rfl
@[simp] theorem finish_raise (r : Result) (c : FaultCode) (s : State) : finish r (raise c s) = raise c s := rfl
@[simp] theorem finish_refuse (r : Result) (c : Reason) (s : State) : finish r (refuse c s) = refuse c s := rfl

/-- What an operation that completed did: its own work, then its result. -/
theorem finish_eq_next {r : Result} {o : Out State} {t : State} :
    finish r o = .next t ↔ ∃ u, o = .next u ∧ t = u.setResult r := by
  simp only [finish, andThen_eq_next, Host.Outcome.next.injEq]
  constructor
  · rintro ⟨u, hu, rfl⟩; exact ⟨u, hu, rfl⟩
  · rintro ⟨u, hu, rfl⟩; exact ⟨u, hu, rfl⟩

end Sys2Proof.Machine
end

