-- ==== Sys2Proof/Laws/Devices.lean ====
section
/-! SUPPORT. What a port access does at each port of the map (R75, R76), under the parameters' constraints. -/

namespace Sys2Proof.Machine

variable {s t : State} {b : Byte} {p : Port} {c : Chip}

/-- The state with one more entry of IOTRACE. -/
theorem logIo_eq (e : IoEntry) : logIo e s = s.setIotrace (s.iotrace ++ [e]) := rfl

/-! ### Fields of the two chips -/

@[simp] theorem pic_master : pic s .master = s.picM := rfl
@[simp] theorem pic_slave : pic s .slave = s.picS := rfl
@[simp] theorem setPic_master (q : Pic) : setPic .master q s = s.setPicM q := rfl
@[simp] theorem setPic_slave (q : Pic) : setPic .slave q s = s.setPicS q := rfl

@[simp] theorem pic_logIo (e : IoEntry) (c : Chip) : pic (logIo e s) c = pic s c := by cases c <;> rfl

/-! ### The display controller's two ports -/

/-- A select byte at CRTC_CMD. -/
theorem portWrite_select (hb : b = s.cfg.cursorSelHi ∨ b = s.cfg.cursorSelLo) :
    portWrite s.cfg.crtcCmd b s =
      .next ((s.setIotrace (s.iotrace ++ [⟨.w, s.cfg.crtcCmd, b⟩])).setCrtc { s.crtc with index := some b }) := by
  simp [portWrite, deviceByte, crtcCommandByte, logIo, crtcSelect, hb]

/-- A byte at CRTC_DATA with the high register selected. -/
theorem portWrite_high (hc : s.cfg.wf = true) (hi : s.crtc.index = some s.cfg.cursorSelHi) :
    portWrite s.cfg.crtcData b s =
      .next ((s.setIotrace (s.iotrace ++ [⟨.w, s.cfg.crtcData, b⟩])).setCrtc { s.crtc with cursorHi := some b }) := by
  have := Config.ports_ne hc
  simp [portWrite, deviceByte, crtcDataByte, logIo, crtcHigh, hi, Ne.symm this.1]

/-- A byte at CRTC_DATA with the low register selected. -/
theorem portWrite_low (hc : s.cfg.wf = true) (hi : s.crtc.index = some s.cfg.cursorSelLo) :
    portWrite s.cfg.crtcData b s =
      .next ((s.setIotrace (s.iotrace ++ [⟨.w, s.cfg.crtcData, b⟩])).setCrtc { s.crtc with cursorLo := some b }) := by
  have := Config.ports_ne hc
  have hs := Config.selects_ne hc
  simp [portWrite, deviceByte, crtcDataByte, logIo, crtcLow, hi, Ne.symm this.1, Ne.symm hs]

/-! ### A controller chip's two ports -/

theorem deviceByte_command (hc : s.cfg.wf = true) : deviceByte (picCommandPort s.cfg c) b s = picCommandByte c b s := by
  have := Config.ports_ne hc
  cases c <;> simp [deviceByte, picCommandPort, Ne.symm, this]

theorem deviceByte_data (hc : s.cfg.wf = true) : deviceByte (picDataPort s.cfg c) b s = picDataByte c b s := by
  have := Config.ports_ne hc
  cases c <;> simp [deviceByte, picDataPort] <;> grind

/-- A byte at a chip's command port. -/
theorem portWrite_command (hc : s.cfg.wf = true) :
    portWrite (picCommandPort s.cfg c) b s = picCommandByte c b (logIo ⟨.w, picCommandPort s.cfg c, b⟩ s) :=
  deviceByte_command (s := logIo ⟨.w, picCommandPort s.cfg c, b⟩ s) hc

/-- A byte at a chip's data port. -/
theorem portWrite_data (hc : s.cfg.wf = true) :
    portWrite (picDataPort s.cfg c) b s = picDataByte c b (logIo ⟨.w, picDataPort s.cfg c, b⟩ s) :=
  deviceByte_data (s := logIo ⟨.w, picDataPort s.cfg c, b⟩ s) hc

/-- ICW1 with interrupts off, and on. -/
theorem picStart_off (h : s.intFlag = false) :
    picStart c s = .next (setPic c { pic s c with step := 3, configured := false, insvc := 0, imr := none } s) := by
  simp [picStart, h]

theorem picStart_on (h : s.intFlag = true) : picStart c s = refuse .portProtocol s := by simp [picStart, h]

/-- EOI_BYTE to a configured chip, and to one that is not. -/
theorem picAcknowledge_on (h : (pic s c).configured = true) :
    picAcknowledge c s = .next (setPic c { pic s c with insvc := acknowledge (pic s c).insvc } s) := by
  simp [picAcknowledge, h]

theorem picAcknowledge_off (h : (pic s c).configured = false) : picAcknowledge c s = refuse .portProtocol s := by
  simp [picAcknowledge, h]

/-- A mask byte to a configured chip, and to one that is not. -/
theorem picMask_on (h : (pic s c).configured = true) :
    picMask c b s = .next (setPic c { pic s c with imr := some b } s) := by
  simp [picMask, h]

theorem picMask_off (h : (pic s c).configured = false) : picMask c b s = refuse .portProtocol s := by
  simp [picMask, h]

/-- A chip's command port, byte by byte. -/
theorem picCommandByte_icw1 : picCommandByte c s.cfg.icw1 s = picStart c s := if_pos rfl

theorem picCommandByte_eoi (hc : s.cfg.wf = true) : picCommandByte c s.cfg.eoiByte s = picAcknowledge c s :=
  (if_neg (Ne.symm (Config.icw1_ne_eoi hc))).trans (if_pos rfl)

theorem picCommandByte_other (h1 : b ≠ s.cfg.icw1) (h2 : b ≠ s.cfg.eoiByte) :
    picCommandByte c b s = refuse .portProtocol s := (if_neg h1).trans (if_neg h2)

/-- A chip's data port, place by place. -/
theorem picDataByte_base (h : (pic s c).step = 3) : picDataByte c b s = .next (picBase c b s) := if_pos h

theorem picDataByte_wiring (h : (pic s c).step = 2) : picDataByte c b s = .next (picWiring c b s) := by
  simp [picDataByte, h]

theorem picDataByte_mode (h : (pic s c).step = 1) : picDataByte c b s = .next (picMode c b s) := by
  simp [picDataByte, h]

theorem picDataByte_mask (h : (pic s c).step = 0) : picDataByte c b s = picMask c b s := by
  simp [picDataByte, h]

/-- An end-of-interrupt byte to a configured chip. -/
theorem portWrite_eoi (hc : s.cfg.wf = true) (hp : (pic s c).configured = true) :
    portWrite (picCommandPort s.cfg c) s.cfg.eoiByte s =
      .next (setPic c { pic s c with insvc := acknowledge (pic s c).insvc }
        (s.setIotrace (s.iotrace ++ [⟨.w, picCommandPort s.cfg c, s.cfg.eoiByte⟩]))) := by
  have he : s.cfg.eoiByte ≠ s.cfg.icw1 := Ne.symm (Config.icw1_ne_eoi hc)
  rw [portWrite_command hc]
  cases c <;> simp_all [picCommandByte, picAcknowledge, logIo]

/-- What a chip can become by one port write: its request bits are the environment's, a sound chip stays sound, nothing comes
into service, and with interrupts on a chip that is configured and masked stays so. -/
structure ChipReacts (on : Bool) (p q : Pic) : Prop where
  irr : q.irr = p.irr
  sound : PicSound p → PicSound q
  insvc : p.insvc = 0 → q.insvc = 0
  ready : on = true → PicSound p → p.configured = true → q.configured = true ∧ q.base = p.base ∧
    (p.imr.isSome → q.imr.isSome)

theorem acknowledge_zero : acknowledge 0#8 = 0#8 := by decide

theorem picStart_reacts (h : picStart c s = .next t) : ∃ q, t = setPic c q s ∧ ChipReacts s.intFlag (pic s c) q := by
  unfold picStart at h
  split at h
  · simp at h
  · rename_i hf
    cases h
    refine ⟨_, rfl, rfl, fun _ => ⟨by simp, by simp, by simp, by simp⟩, fun _ => rfl, fun h => absurd h hf⟩

theorem picAcknowledge_reacts (h : picAcknowledge c s = .next t) :
    ∃ q, t = setPic c q s ∧ ChipReacts s.intFlag (pic s c) q := by
  unfold picAcknowledge at h
  split at h
  · cases h
    refine ⟨_, rfl, rfl, fun hs => ⟨hs.configured, hs.afterBase, hs.afterWiring, hs.masked⟩,
      fun h0 => ?_, fun _ _ hp => ⟨hp, rfl, id⟩⟩
    simp [h0, acknowledge_zero]
  · simp at h

theorem picDataByte_reacts (h : picDataByte c b s = .next t) :
    ∃ q, t = setPic c q s ∧ ChipReacts s.intFlag (pic s c) q := by
  unfold picDataByte at h
  split_ifs at h with h3 h2 h1
  · cases h
    refine ⟨_, rfl, rfl, fun hs => ⟨fun hp => ?_, by simp, by simp, fun hm => hs.masked hm⟩, id, fun _ hs hp => ?_⟩
    · have := (hs.configured hp).1; simp_all
    · have := (hs.configured hp).1; simp_all
  · cases h
    refine ⟨_, rfl, rfl, fun hs => ⟨fun hp => ?_, fun _ => hs.afterBase (.inl h2), by simp, fun hm => hs.masked hm⟩, id,
      fun _ hs hp => ?_⟩
    · have := (hs.configured hp).1; simp_all
    · have := (hs.configured hp).1; simp_all
  · cases h
    refine ⟨_, rfl, rfl, fun hs => ⟨fun _ => ⟨rfl, hs.afterBase (.inr h1), hs.afterWiring h1, rfl⟩, by simp, by simp,
      fun _ => rfl⟩, id, fun _ hs hp => ?_⟩
    have := (hs.configured hp).1; simp_all
  · unfold picMask at h
    split at h
    · rename_i hp
      cases h
      exact ⟨_, rfl, rfl, fun hs => ⟨hs.configured, hs.afterBase, hs.afterWiring, fun _ => hp⟩, id,
        fun _ _ hq => ⟨hq, rfl, fun _ => rfl⟩⟩
    · simp at h

/-- Everything a port write that is accepted can do: it is logged, and either the cursor registers or one chip react. -/
theorem portWrite_reacts (h : portWrite p b s = .next t) :
    (∃ v, t = (logIo ⟨.w, p, b⟩ s).setCrtc v) ∨
      ∃ c q, t = setPic c q (logIo ⟨.w, p, b⟩ s) ∧ ChipReacts s.intFlag (pic s c) q := by
  unfold portWrite deviceByte at h
  split_ifs at h
  · unfold crtcCommandByte at h
    split at h
    · cases h; exact .inl ⟨_, rfl⟩
    · simp at h
  · unfold crtcDataByte at h
    split_ifs at h
    · cases h; exact .inl ⟨_, rfl⟩
    · cases h; exact .inl ⟨_, rfl⟩
    · simp at h
  · right
    unfold picCommandByte at h
    split_ifs at h
    · obtain ⟨q, hq⟩ := picStart_reacts h; exact ⟨_, q, hq⟩
    · obtain ⟨q, hq⟩ := picAcknowledge_reacts h; exact ⟨_, q, hq⟩
    · simp at h
  · right
    unfold picCommandByte at h
    split_ifs at h
    · obtain ⟨q, hq⟩ := picStart_reacts h; exact ⟨_, q, hq⟩
    · obtain ⟨q, hq⟩ := picAcknowledge_reacts h; exact ⟨_, q, hq⟩
    · simp at h
  · right
    obtain ⟨q, hq⟩ := picDataByte_reacts h; exact ⟨_, q, hq⟩
  · right
    obtain ⟨q, hq⟩ := picDataByte_reacts h; exact ⟨_, q, hq⟩
  · simp at h

/-! ### The keyboard's port -/

/-- The port read of a full latch. -/
theorem portRead_full (h : s.kbd = .full b) :
    portRead s.cfg.kbdDataPort s = .next (b, logIo ⟨.r, s.cfg.kbdDataPort, b⟩ (s.setKbd (.read b))) := by
  simp [portRead, h]

/-- The port read of an empty latch. -/
theorem portRead_empty (h : kbdFull s = false) : portRead s.cfg.kbdDataPort s = raise .kbdLatchEmpty s := by
  unfold kbdFull at h
  unfold portRead
  split at h <;> simp_all

end Sys2Proof.Machine
end

