-- ==== Sys2Proof/Laws/Codec.lean ====
section
/-! SUPPORT. Each reader of Decode.lean against its writer, in both directions. -/

namespace Sys2Proof

variable {bs rest : List Byte} {α β : Type}

@[simp] theorem Read.next_ok (a : α) (rest : List Byte) (f : α → List Byte → Read β) :
    Read.next (.ok (a, rest)) f = f a rest := rfl
@[simp] theorem Read.next_error (e : DecodeError) (f : α → List Byte → Read β) :
    Read.next (.error e : Read α) f = .error e := rfl

/-- A reading that goes on from another has both. -/
theorem Read.next_eq_ok {r : Read α} {f : α → List Byte → Read β} {b : β} {rest : List Byte} :
    r.next f = .ok (b, rest) ↔ ∃ a more, r = .ok (a, more) ∧ f a more = .ok (b, rest) := by
  rcases r with e | ⟨a, more⟩ <;> simp [Read.next]

/-! ### Writers read back -/

@[simp] theorem takeByte_cons (b : Byte) : takeByte (b :: rest) = .ok (b, rest) := rfl

theorem word16_join (w : BitVec 16) : w.extractLsb' 8 8 ++ w.extractLsb' 0 8 = w := by
  apply BitVec.eq_of_getLsbD_eq
  intro i hi
  simp only [BitVec.getLsbD_append, BitVec.getLsbD_extractLsb']
  have : i < 16 := hi
  interval_cases i <;> simp

theorem word32_join (w : BitVec 32) :
    w.extractLsb' 24 8 ++ w.extractLsb' 16 8 ++ w.extractLsb' 8 8 ++ w.extractLsb' 0 8 = w := by
  apply BitVec.eq_of_getLsbD_eq
  intro i hi
  have : i < 32 := hi
  simp only [BitVec.getLsbD_append, BitVec.getLsbD_extractLsb']
  interval_cases i <;> simp

@[simp] theorem takeWord16_put (w : BitVec 16) : takeWord16 (putWord16 w ++ rest) = .ok (w, rest) := by
  simp only [putWord16, List.cons_append, List.nil_append, takeWord16]
  exact congrArg (fun v => Except.ok (v, rest)) (word16_join w)

@[simp] theorem takeWord32_put (w : BitVec 32) : takeWord32 (putWord32 w ++ rest) = .ok (w, rest) := by
  simp only [putWord32, List.cons_append, List.nil_append, takeWord32]
  exact congrArg (fun v => Except.ok (v, rest)) (word32_join w)

theorem takeNat_digits (fuel : Nat) : ∀ n, n < fuel → takeNat (putNatDigits fuel n ++ rest) = .ok (n, rest) := by
  induction fuel with
  | zero => intro n h; omega
  | succ fuel ih =>
    intro n h
    unfold putNatDigits
    split
    · rename_i hn
      simp only [List.cons_append, List.nil_append, takeNat, BitVec.toNat_ofNat]
      rw [Nat.mod_eq_of_lt (by omega), if_pos hn]
    · rename_i hn
      have hv : (BitVec.ofNat 8 (128 + n % 128)).toNat = 128 + n % 128 := by
        rw [BitVec.toNat_ofNat]; omega
      have hq : n / 128 < fuel := by omega
      simp only [List.cons_append, takeNat, hv, ih _ hq]
      rw [if_neg (by omega), if_neg (by omega)]
      congr 2
      omega

@[simp] theorem takeNat_put (n : Nat) : takeNat (putNat n ++ rest) = .ok (n, rest) :=
  takeNat_digits (n + 1) n (by omega)

@[simp] theorem takeBytes_append (t : List Byte) : takeBytes t.length (t ++ rest) = .ok (t, rest) := by
  induction t with
  | nil => rfl
  | cons b t ih => simp only [List.length_cons, List.cons_append, takeBytes, ih]

@[simp] theorem takeText_put (t : List Byte) : takeText (putText t ++ rest) = .ok (t, rest) := by
  simp [takeText, putText]

@[simp] theorem takeFlags_put (f : FiveFlags) : takeFlags (putFlags f ++ rest) = .ok (f, rest) := by
  obtain ⟨p, ls, rs, c, a⟩ := f
  cases p <;> cases ls <;> cases rs <;> cases c <;> cases a <;> rfl

/-! ### Readings written back -/

theorem takeByte_eq {b : Byte} (h : takeByte bs = .ok (b, rest)) : bs = b :: rest := by
  cases bs with
  | nil => simp [takeByte] at h
  | cons b' bs => simp [takeByte] at h; simp [h]

theorem byte_high (hi lo : Byte) : (hi ++ lo : BitVec 16).extractLsb' 8 8 = hi := by
  apply BitVec.eq_of_getLsbD_eq
  intro i h
  simp only [BitVec.getLsbD_extractLsb', BitVec.getLsbD_append]
  simp only [h, decide_true, Bool.true_and]
  rw [if_neg (by omega)]
  congr 1
  omega

theorem byte_low (hi lo : Byte) : (hi ++ lo : BitVec 16).extractLsb' 0 8 = lo := by
  apply BitVec.eq_of_getLsbD_eq
  intro i h
  simp only [BitVec.getLsbD_extractLsb', BitVec.getLsbD_append]
  simp [h]

theorem takeWord16_eq {w : BitVec 16} (h : takeWord16 bs = .ok (w, rest)) : bs = putWord16 w ++ rest := by
  match bs with
  | [] => simp [takeWord16] at h
  | [_] => simp [takeWord16] at h
  | lo :: hi :: more =>
    simp only [takeWord16, Except.ok.injEq, Prod.mk.injEq] at h
    obtain ⟨rfl, rfl⟩ := h
    rw [putWord16, byte_high, byte_low]
    rfl

theorem bytes_of_word32 (b3 b2 b1 b0 : Byte) : putWord32 (b3 ++ b2 ++ b1 ++ b0) = [b0, b1, b2, b3] := by
  have hb : ∀ k (hk : k < 4), (b3 ++ b2 ++ b1 ++ b0 : BitVec 32).extractLsb' (8 * k) 8 = [b0, b1, b2, b3][k]'hk := by
    intro k hk
    apply BitVec.eq_of_getLsbD_eq
    intro i hi
    simp only [BitVec.getLsbD_extractLsb', BitVec.getLsbD_append, hi, decide_true, Bool.true_and]
    interval_cases k
    · rw [if_pos (by omega)]; simp
    · rw [if_neg (by omega), if_pos (by omega)]; simp
    · rw [if_neg (by omega), if_neg (by omega), if_pos (by omega)]
      rw [show 8 * 2 + i - 8 - 8 = i by omega]; rfl
    · rw [if_neg (by omega), if_neg (by omega), if_neg (by omega)]
      rw [show 8 * 3 + i - 8 - 8 - 8 = i by omega]; rfl
  simp only [putWord32]
  exact congr (congrArg _ (hb 0 (by omega))) (congr (congrArg _ (hb 1 (by omega)))
    (congr (congrArg _ (hb 2 (by omega))) (congr (congrArg _ (hb 3 (by omega))) rfl)))

theorem takeWord32_eq {w : BitVec 32} (h : takeWord32 bs = .ok (w, rest)) : bs = putWord32 w ++ rest := by
  match bs with
  | [] => simp [takeWord32] at h
  | [_] => simp [takeWord32] at h
  | [_, _] => simp [takeWord32] at h
  | [_, _, _] => simp [takeWord32] at h
  | b0 :: b1 :: b2 :: b3 :: more =>
    simp only [takeWord32, Except.ok.injEq, Prod.mk.injEq] at h
    obtain ⟨rfl, rfl⟩ := h
    rw [bytes_of_word32]
    rfl

theorem takeNat_eq : ∀ (bs : List Byte) (n : Nat), takeNat bs = .ok (n, rest) → ∀ fuel, n < fuel →
    bs = putNatDigits fuel n ++ rest := by
  intro bs
  induction bs with
  | nil => intro n h; simp [takeNat] at h
  | cons b more ih =>
    intro n h fuel hf
    obtain ⟨fuel, rfl⟩ := Nat.exists_eq_succ_of_ne_zero (show fuel ≠ 0 by omega)
    rw [takeNat] at h
    split at h
    · rename_i hb
      simp only [Except.ok.injEq, Prod.mk.injEq] at h
      obtain ⟨rfl, rfl⟩ := h
      rw [putNatDigits, if_pos hb, BitVec.ofNat_toNat, BitVec.setWidth_eq]
      rfl
    · rename_i hb
      split at h
      · simp at h
      · rename_i n' more' hn'
        split at h
        · simp at h
        · rename_i h0
          simp only [Except.ok.injEq, Prod.mk.injEq] at h
          obtain ⟨h1, rfl⟩ := h
          have hlt := b.isLt
          have hm : 128 + n % 128 = b.toNat := by omega
          have hd : n / 128 = n' := by omega
          rw [putNatDigits, if_neg (by omega), hm, hd, BitVec.ofNat_toNat, BitVec.setWidth_eq]
          rw [List.cons_append, ← ih n' hn' fuel (by omega)]

theorem takeNat_put_eq {n : Nat} (h : takeNat bs = .ok (n, rest)) : bs = putNat n ++ rest :=
  takeNat_eq bs n h _ (by omega)

theorem takeBytes_eq {n : Nat} {t : List Byte} (h : takeBytes n bs = .ok (t, rest)) : bs = t ++ rest ∧ t.length = n := by
  induction n generalizing bs t with
  | zero => simp [takeBytes] at h; simp [h]
  | succ n ih =>
    cases bs with
    | nil => simp [takeBytes] at h
    | cons b more =>
      simp only [takeBytes] at h
      split at h
      · simp at h
      · rename_i t' more' ht'
        simp only [Except.ok.injEq, Prod.mk.injEq] at h
        obtain ⟨rfl, rfl⟩ := h
        obtain ⟨h1, h2⟩ := ih ht'
        simp [h1, h2]

theorem takeText_eq {t : List Byte} (h : takeText bs = .ok (t, rest)) : bs = putText t ++ rest := by
  unfold takeText at h
  split at h
  · simp at h
  · rename_i n more hn
    obtain ⟨h1, h2⟩ := takeBytes_eq h
    rw [takeNat_put_eq hn, h1, putText, h2, List.append_assoc]

theorem flags_of_byte : ∀ n : Fin 32,
    putFlags ⟨(BitVec.ofNat 8 n.val).getLsbD 0, (BitVec.ofNat 8 n.val).getLsbD 1, (BitVec.ofNat 8 n.val).getLsbD 2,
      (BitVec.ofNat 8 n.val).getLsbD 3, (BitVec.ofNat 8 n.val).getLsbD 4⟩ = [BitVec.ofNat 8 n.val] := by decide

theorem takeFlags_eq {f : FiveFlags} (h : takeFlags bs = .ok (f, rest)) : bs = putFlags f ++ rest := by
  cases bs with
  | nil => simp [takeFlags] at h
  | cons b more =>
    simp only [takeFlags] at h
    split at h
    · rename_i hb
      simp only [Except.ok.injEq, Prod.mk.injEq] at h
      obtain ⟨rfl, rfl⟩ := h
      have := flags_of_byte ⟨b.toNat, hb⟩
      simp only [BitVec.ofNat_toNat, BitVec.setWidth_eq] at this
      rw [this]
      rfl
    · simp at h

/-! ### Operation codes -/

theorem opcodeOf_code : ∀ o : Opcode, opcodeOf o.code = some o := by
  intro o; cases o <;> decide

theorem code_of_opcodeOf {b : Byte} {o : Opcode} (h : opcodeOf b = some o) : b = o.code := by
  have := List.find?_some h
  exact (beq_iff_eq.1 this).symm

theorem decode_code (o : Opcode) : decode (o.code :: bs) = readOperands o bs := by
  simp [decode, opcodeOf_code]

/-! ### Nibbles, seven bits, descriptors -/

theorem nibble_low (hi lo : BitVec 4) : (hi ++ lo : BitVec 8).extractLsb' 0 4 = lo := by
  revert hi lo; decide

theorem nibble_high (hi lo : BitVec 4) : (hi ++ lo : BitVec 8).extractLsb' 4 4 = hi := by
  revert hi lo; decide

theorem nibbles (b : BitVec 8) : b.extractLsb' 4 4 ++ b.extractLsb' 0 4 = b := by
  revert b; decide

theorem press_low (k : KeyCode) : decodeScancode ((0 : BitVec 1) ++ k) = .scPress k := by
  revert k; decide

theorem release_low (k : KeyCode) : decodeScancode ((1 : BitVec 1) ++ k) = .scRelease k := by
  revert k; decide

theorem cell_slices (bg fg : BitVec 4) (ch : BitVec 8) :
    (bg ++ fg ++ ch : BitVec 16).extractLsb' 12 4 = bg ∧ (bg ++ fg ++ ch : BitVec 16).extractLsb' 8 4 = fg ∧
    (bg ++ fg ++ ch : BitVec 16).extractLsb' 0 8 = ch := by
  refine ⟨?_, ?_, ?_⟩ <;> apply BitVec.eq_of_getLsbD_eq <;> intro i hi <;>
    simp only [BitVec.getLsbD_extractLsb', BitVec.getLsbD_append, hi, decide_true, Bool.true_and]
  · rw [if_neg (by omega), if_neg (by omega), show 12 + i - 8 - 4 = i by omega]
  · rw [if_neg (by omega), if_pos (by omega), show 8 + i - 8 = i by omega]
  · rw [if_pos (by omega), show 0 + i = i by omega]

theorem descriptor_slices (h a s l : BitVec 16) :
    (h ++ a ++ (s ++ l) : BitVec 64).extractLsb' 48 16 = h ∧ (h ++ a ++ (s ++ l) : BitVec 64).extractLsb' 32 16 = a ∧
    (h ++ a ++ (s ++ l) : BitVec 64).extractLsb' 16 16 = s ∧ (h ++ a ++ (s ++ l) : BitVec 64).extractLsb' 0 16 = l := by
  refine ⟨?_, ?_, ?_, ?_⟩ <;> apply BitVec.eq_of_getLsbD_eq <;> intro i hi <;>
    simp only [BitVec.getLsbD_extractLsb', BitVec.getLsbD_append, hi, decide_true, Bool.true_and]
  · rw [if_neg (by omega), if_neg (by omega), show 48 + i - (16 + 16) - 16 = i by omega]
  · rw [if_neg (by omega), if_pos (by omega), show 32 + i - (16 + 16) = i by omega]
  · rw [if_pos (by omega), if_neg (by omega), show 16 + i - 16 = i by omega]
  · rw [if_pos (by omega), if_pos (by omega), show 0 + i = i by omega]

/-- A descriptor that is not all zeros is read by its four fields. -/
theorem decodeDescriptor_live {h a s l : BitVec 16} (hw : WellFormed (.desc h a s l) = true) :
    decodeDescriptor (h ++ a ++ (s ++ l)) = .desc h a s l := by
  obtain ⟨h1, h2, h3, h4⟩ := descriptor_slices h a s l
  have hne : (h ++ a ++ (s ++ l) : BitVec 64) ≠ 0 := by
    intro h0
    rw [h0] at h1 h2 h3 h4
    simp only [BitVec.extractLsb'_zero, BitVec.ofNat_eq_ofNat] at h1 h2 h3 h4
    subst h1 h2 h3 h4
    exact absurd hw (by decide)
  unfold decodeDescriptor
  rw [if_neg hne, h1, h2, h3, h4]

end Sys2Proof
end

