-- ==== Sys2Proof/Laws/Memory.lean ====
section
/-! SUPPORT. Physical memory: a read after a write, and the canonical form every write keeps. -/

namespace Sys2Proof.Machine.Memory

variable {cfg : Config} {a k : Nat} {b : Byte} {m : List Host.Cell}

/-! ### Reading after writing -/

theorem find_insert_same : find a (insert a b m) = some b := by
  induction m with
  | nil => simp [insert, find]
  | cons p rest ih =>
    obtain ⟨k, v⟩ := p
    simp only [insert]
    split
    · simp [find]
    · split
      · simp [find]
      · rename_i _ h; simp [find, Ne.symm h, ih]

theorem find_insert_other (h : k ≠ a) : find k (insert a b m) = find k m := by
  induction m with
  | nil => simp [insert, find, Ne.symm h]
  | cons p rest ih =>
    obtain ⟨j, v⟩ := p
    simp only [insert]
    split
    · simp [find, Ne.symm h]
    · split
      · rename_i h2; subst h2; simp [find, Ne.symm h]
      · simp only [find, ih]

theorem find_erase_other (h : k ≠ a) : find k (erase a m) = find k m := by
  induction m with
  | nil => rfl
  | cons p rest ih =>
    obtain ⟨j, v⟩ := p
    simp only [erase]
    split
    · rename_i h2; subst h2; simp [find, Ne.symm h]
    · simp only [find, ih]

/-- No address at or below the bound is listed. -/
theorem find_none_of_wfAbove {lo : Nat} (hw : wfAbove cfg (some lo) m = true) (hk : k ≤ lo) : find k m = none := by
  induction m generalizing lo with
  | nil => rfl
  | cons p rest ih =>
    obtain ⟨j, v⟩ := p
    simp only [wfAbove, Bool.and_eq_true, decide_eq_true_eq] at hw
    have hj : j ≠ k := by omega
    simp only [find, hj, if_false]
    exact ih hw.2 (by omega)

theorem find_erase_same {lo : Option Nat} (hw : wfAbove cfg lo m = true) : find a (erase a m) = none := by
  induction m generalizing lo with
  | nil => rfl
  | cons p rest ih =>
    obtain ⟨j, v⟩ := p
    simp only [wfAbove, Bool.and_eq_true, decide_eq_true_eq] at hw
    simp only [erase]
    split
    · rename_i h; exact find_none_of_wfAbove hw.2 (by omega)
    · rename_i h; simp only [find, h, if_false]; exact ih hw.2

/-- A byte written reads back. -/
theorem read_write_same (hw : wf cfg m = true) : read cfg (write cfg a b m) a = some b := by
  by_cases h : unlisted cfg a = some b
  · simp only [read, write, if_pos h, find_erase_same hw]; exact h
  · simp only [read, write, if_neg h, find_insert_same]

/-- A write leaves every other address alone. -/
theorem read_write_other (h : k ≠ a) : read cfg (write cfg a b m) k = read cfg m k := by
  by_cases hb : unlisted cfg a = some b
  · simp only [read, write, if_pos hb, find_erase_other h]
  · simp only [read, write, if_neg hb, find_insert_other h]

/-! ### The canonical form -/

theorem wfAbove_weaken {lo hi : Nat} (hw : wfAbove cfg (some hi) m = true) (h : lo ≤ hi) :
    wfAbove cfg (some lo) m = true := by
  cases m with
  | nil => rfl
  | cons p rest =>
    obtain ⟨j, v⟩ := p
    simp only [wfAbove, Bool.and_eq_true, decide_eq_true_eq] at hw ⊢
    exact ⟨⟨by omega, hw.1.2⟩, hw.2⟩

theorem wfAbove_none {lo : Nat} (hw : wfAbove cfg (some lo) m = true) : wfAbove cfg none m = true := by
  cases m with
  | nil => rfl
  | cons p rest =>
    obtain ⟨j, v⟩ := p
    simp only [wfAbove, Bool.and_eq_true, decide_eq_true_eq] at hw ⊢
    exact ⟨⟨trivial, hw.1.2⟩, hw.2⟩

theorem insert_wfAbove {lo : Option Nat} (hb : unlisted cfg a ≠ some b) (hlo : ∀ l, lo = some l → l < a)
    (hw : wfAbove cfg lo m = true) : wfAbove cfg lo (insert a b m) = true := by
  induction m generalizing lo with
  | nil =>
    cases lo with
    | none => simp [insert, wfAbove, hb]
    | some l => simp [insert, wfAbove, hb, hlo l rfl]
  | cons p rest ih =>
    obtain ⟨j, v⟩ := p
    have hw' := hw
    simp only [wfAbove, Bool.and_eq_true, decide_eq_true_eq] at hw
    simp only [insert]
    split
    · rename_i h
      simp only [wfAbove, Bool.and_eq_true, decide_eq_true_eq]
      refine ⟨⟨?_, hb⟩, ⟨⟨h, hw.1.2⟩, hw.2⟩⟩
      cases lo with
      | none => trivial
      | some l => simpa using hlo l rfl
    · split
      · rename_i h1 h2
        subst h2
        simp only [wfAbove, Bool.and_eq_true, decide_eq_true_eq]
        exact ⟨⟨hw.1.1, hb⟩, hw.2⟩
      · rename_i h1 h2
        simp only [wfAbove, Bool.and_eq_true, decide_eq_true_eq]
        exact ⟨hw.1, ih (by intro l hl; cases hl; omega) hw.2⟩

theorem erase_wfAbove {lo : Option Nat} (hw : wfAbove cfg lo m = true) : wfAbove cfg lo (erase a m) = true := by
  induction m generalizing lo with
  | nil => rfl
  | cons p rest ih =>
    obtain ⟨j, v⟩ := p
    simp only [wfAbove, Bool.and_eq_true, decide_eq_true_eq] at hw
    simp only [erase]
    split
    · cases lo with
      | none => exact wfAbove_none hw.2
      | some l => exact wfAbove_weaken hw.2 (by have := hw.1.1; simp at this; omega)
    · simp only [wfAbove, Bool.and_eq_true, decide_eq_true_eq]
      exact ⟨hw.1, ih hw.2⟩

/-- A write keeps the canonical form. -/
theorem write_wf (hw : wf cfg m = true) : wf cfg (write cfg a b m) = true := by
  unfold write
  split
  · exact erase_wfAbove hw
  · rename_i h; exact insert_wfAbove h (by simp) hw

/-! ### Several bytes -/

theorem writeBytes_wf {bs : List Byte} (hw : wf cfg m = true) : wf cfg (writeBytes cfg a bs m) = true := by
  induction bs generalizing a m with
  | nil => exact hw
  | cons b bs ih => exact ih (write_wf hw)

/-- Bytes outside those written are left alone. -/
theorem read_writeBytes_other {bs : List Byte} (h : k < a ∨ a + bs.length ≤ k) :
    read cfg (writeBytes cfg a bs m) k = read cfg m k := by
  induction bs generalizing a m with
  | nil => rfl
  | cons b bs ih =>
    simp only [List.length_cons] at h
    rw [writeBytes, ih (by omega), read_write_other (by omega)]

/-- Each byte written reads back. -/
theorem read_writeBytes {bs : List Byte} {i : Nat} (hw : wf cfg m = true) (hi : i < bs.length) :
    read cfg (writeBytes cfg a bs m) (a + i) = some bs[i] := by
  induction bs generalizing a m i with
  | nil => simp at hi
  | cons b bs ih =>
    cases i with
    | zero =>
      rw [writeBytes, read_writeBytes_other (by omega)]
      simpa using read_write_same (a := a) hw
    | succ i =>
      have := ih (a := a + 1) (i := i) (write_wf (a := a) (b := b) hw) (by simpa using hi)
      rw [writeBytes, show a + (i + 1) = a + 1 + i by omega, this]
      simp

end Sys2Proof.Machine.Memory
end

