-- ==== Sys2Proof/Laws/Video.lean ====
section
/-! SUPPORT. Cells of video memory and descriptors of the table, over the bytes that hold them. -/

namespace Sys2Proof.Machine

variable {s : State} {off k : Nat} {c : GlyphCell}

@[simp] theorem putWord16_length (w : BitVec 16) : (putWord16 w).length = 2 := rfl
@[simp] theorem putWord32_length (w : BitVec 32) : (putWord32 w).length = 4 := rfl
@[simp] theorem descBytes_length (d : Descriptor) : (descBytes d).length = 8 := rfl

/-- A cell store changes memory and nothing else. -/
theorem storeCell_eq : storeCell off c s = s.setMem (storeCell off c s).mem := rfl

theorem storeCell_wf (h : Memory.wf s.cfg s.mem = true) : Memory.wf s.cfg (storeCell off c s).mem = true :=
  Memory.writeBytes_wf h

/-- A cell store touches no byte but its two (R39, R43). -/
theorem byteAt_storeCell_other {a : Nat} (h : a < cellAddress s.cfg off ∨ cellAddress s.cfg off + 2 ≤ a) :
    byteAt (storeCell off c s) a = byteAt s a :=
  Memory.read_writeBytes_other (by simpa using h)

/-- A cell stored is the cell shown. -/
theorem vram_storeCell_same (h : Memory.wf s.cfg s.mem = true) : vram (storeCell off c s) off = some c := by
  have h0 := Memory.read_writeBytes (a := cellAddress s.cfg off) (bs := putWord16 c) (i := 0) h (by simp)
  have h1 := Memory.read_writeBytes (a := cellAddress s.cfg off) (bs := putWord16 c) (i := 1) h (by simp)
  simp only [Nat.add_zero] at h0
  simp only [vram, storeCell, State.setMem_cfg, State.setMem_mem, h0, h1]
  exact congrArg some (word16_join c)

/-- A cell store leaves every other cell alone. -/
theorem vram_storeCell_other (h : k ≠ off) : vram (storeCell off c s) k = vram s k := by
  have hk : ∀ i, i < 2 → Memory.read s.cfg (storeCell off c s).mem (cellAddress s.cfg k + i)
      = Memory.read s.cfg s.mem (cellAddress s.cfg k + i) := fun i hi =>
    Memory.read_writeBytes_other (by simp [cellAddress]; omega)
  have h0 := hk 0 (by omega)
  have h1 := hk 1 (by omega)
  simp only [Nat.add_zero] at h0
  simp only [vram, storeCell, State.setMem_cfg, State.setMem_mem] at h0 h1 ⊢
  rw [h0, h1]

/-- Memory read the same gives the same cells. -/
theorem vram_congr {t : State} (hc : t.cfg = s.cfg) (hm : t.mem = s.mem) : vram t off = vram s off := by
  simp only [vram, hc, hm]

/-- Memory read the same gives the same descriptors. -/
theorem idtEntry_congr {t : State} {v : Nat} (hc : t.cfg = s.cfg) (hm : t.mem = s.mem) : idtEntry t v = idtEntry s v := by
  simp only [idtEntry, hc, hm]

/-- Descriptors whose bytes read the same are the same. -/
theorem idtEntry_of_bytes {t : State} {v : Nat} (hc : t.cfg = s.cfg)
    (h : ∀ i < 8, byteAt t (descAddress s.cfg v + i) = byteAt s (descAddress s.cfg v + i)) :
    idtEntry t v = idtEntry s v := by
  simp only [byteAt, hc] at h
  simp only [idtEntry, hc]
  rw [h 0 (by omega), h 1 (by omega), h 2 (by omega), h 3 (by omega), h 4 (by omega), h 5 (by omega),
    h 6 (by omega), h 7 (by omega)]

/-- A store inside the window leaves the table alone (R7: the two do not overlap). -/
theorem idtEntry_storeCell (hc : s.cfg.wf = true) (ho : off < 2000) {v : Nat} (hv : v < s.cfg.idtEntries) :
    idtEntry (storeCell off c s) v = idtEntry s v := by
  refine idtEntry_of_bytes (t := storeCell off c s) (s := s) rfl fun i hi => ?_
  apply byteAt_storeCell_other
  have := Config.windows_apart hc
  simp only [descAddress, cellAddress]
  omega

theorem words64 (d : BitVec 64) : d.extractLsb' 32 32 ++ d.extractLsb' 0 32 = d := by
  apply BitVec.eq_of_getLsbD_eq
  intro i hi
  have : i < 64 := hi
  simp only [BitVec.getLsbD_append, BitVec.getLsbD_extractLsb']
  interval_cases i <;> simp

/-- Eight bytes side by side are two words of four. -/
theorem bytes64 (b7 b6 b5 b4 b3 b2 b1 b0 : Byte) :
    b7 ++ b6 ++ b5 ++ b4 ++ b3 ++ b2 ++ b1 ++ b0 = (b7 ++ b6 ++ b5 ++ b4) ++ (b3 ++ b2 ++ b1 ++ b0) := by
  apply BitVec.eq_of_getLsbD_eq
  intro i hi
  have : i < 64 := hi
  simp only [BitVec.getLsbD_append]
  interval_cases i <;> simp

theorem dword_bytes (d : Descriptor) :
    (d.extractLsb' 32 32).extractLsb' 24 8 ++ (d.extractLsb' 32 32).extractLsb' 16 8 ++
      (d.extractLsb' 32 32).extractLsb' 8 8 ++ (d.extractLsb' 32 32).extractLsb' 0 8 ++
      (d.extractLsb' 0 32).extractLsb' 24 8 ++ (d.extractLsb' 0 32).extractLsb' 16 8 ++
      (d.extractLsb' 0 32).extractLsb' 8 8 ++ (d.extractLsb' 0 32).extractLsb' 0 8 = d := by
  rw [bytes64]
  exact (congrArg₂ _ (word32_join _) (word32_join _)).trans (words64 d)

/-- A descriptor stored is the descriptor delivery reads. -/
theorem idtEntry_of_stored {m : List Host.Cell} {v : Nat} {d : Descriptor}
    (h : ∀ i, (hi : i < 8) → Memory.read s.cfg m (descAddress s.cfg v + i) = some ((descBytes d)[i]'hi)) :
    idtEntry (s.setMem m) v = some d := by
  have h0 := h 0 (by omega)
  have h1 := h 1 (by omega)
  have h2 := h 2 (by omega)
  have h3 := h 3 (by omega)
  have h4 := h 4 (by omega)
  have h5 := h 5 (by omega)
  have h6 := h 6 (by omega)
  have h7 := h 7 (by omega)
  simp only [idtEntry, State.setMem_cfg, State.setMem_mem, h0, h1, h2, h3, h4, h5, h6, h7]
  exact congrArg some (dword_bytes d)

end Sys2Proof.Machine
end

