-- ==== Sys2Proof/Laws/Interrupt.lean ====
section
/-! SUPPORT. What the environment's actions, the handler, taking an interrupt and a step boundary can do. -/

namespace Sys2Proof.Machine

variable {s t u : State} {b : Byte} {l : Line} {within : List EnvAct}

/-! ### What the foreground keeps -/

theorem ForegroundKept.refl (s : State) : ForegroundKept s s := ⟨rfl, rfl, rfl, rfl, rfl, rfl, rfl, rfl, rfl, rfl, rfl, rfl, rfl, rfl⟩

theorem ForegroundKept.trans (h : ForegroundKept s t) (k : ForegroundKept t u) : ForegroundKept s u :=
  ⟨k.cfg.trans h.cfg, k.mem.trans h.mem, k.crtc.trans h.crtc, k.term.trans h.term, k.rd.trans h.rd,
   k.queueBuilt.trans h.queueBuilt, k.idtr.trans h.idtr, k.fault.trans h.fault, k.refusal.trans h.refusal,
   k.fgpos.trans h.fgpos, k.stream.trans h.stream, k.mainLoop.trans h.mainLoop, k.work.trans h.work,
   k.result.trans h.result⟩

/-! ### The environment -/

/-- An action of the environment touches the keyboard latch, the master's request bits and the bytes that wait. -/
theorem envAct_shape (e : EnvAct) (s : State) :
    ∃ x k ks, envAct e s = ((s.setPicM { s.picM with irr := x }).setKbd k).setKeys ks := by
  cases e with
  | key =>
    simp only [envAct, presentKey]
    split
    · exact ⟨s.picM.irr, s.kbd, s.keys, rfl⟩
    · split
      · exact ⟨s.picM.irr, s.kbd, s.keys, rfl⟩
      · exact ⟨_, _, _, rfl⟩
  | tick =>
    simp only [envAct, timerTick]
    split
    · exact ⟨setBit s.picM.irr s.cfg.timerLine, s.kbd, s.keys, rfl⟩
    · exact ⟨s.picM.irr, s.kbd, s.keys, rfl⟩

theorem envActs_shape (es : List EnvAct) (s : State) :
    ∃ x k ks, envActs es s = ((s.setPicM { s.picM with irr := x }).setKbd k).setKeys ks := by
  induction es generalizing s with
  | nil => exact ⟨s.picM.irr, s.kbd, s.keys, rfl⟩
  | cons e es ih =>
    obtain ⟨x, k, ks, h⟩ := envAct_shape e s
    obtain ⟨x', k', ks', h'⟩ := ih (envAct e s)
    exact ⟨x', k', ks', by rw [envActs, h', h]; rfl⟩

/-- What the environment does depends on the parameters, the latch, the bytes that wait and the request bits alone. -/
structure SameInputs (s t : State) : Prop where
  cfg : t.cfg = s.cfg
  kbd : t.kbd = s.kbd
  keys : t.keys = s.keys
  irr : t.picM.irr = s.picM.irr

theorem SameInputs.envAct (h : SameInputs s t) (e : EnvAct) : SameInputs (envAct e s) (envAct e t) := by
  obtain ⟨h1, h2, h3, h4⟩ := h
  cases e with
  | key =>
    have hf : kbdFull t = kbdFull s := by simp only [kbdFull, h2]
    simp only [Machine.envAct, presentKey, h3, hf]
    cases s.keys with
    | nil => exact ⟨h1, h2, h3, h4⟩
    | cons b rest =>
      cases kbdFull s with
      | true => exact ⟨h1, h2, h3, h4⟩
      | false => exact ⟨h1, rfl, rfl, by simp [latchKey, assertLine, h1, h4]⟩
  | tick =>
    simp only [Machine.envAct, timerTick, assertLine, h1]
    split
    · exact ⟨h1, h2, h3, by simp [h4]⟩
    · exact ⟨h1, h2, h3, h4⟩

theorem SameInputs.envActs (es : List EnvAct) (h : SameInputs s t) : SameInputs (envActs es s) (envActs es t) := by
  induction es generalizing s t with
  | nil => exact h
  | cons e es ih => exact ih (h.envAct e)

theorem envAct_kept (e : EnvAct) (s : State) : ForegroundKept s (envAct e s) := by
  obtain ⟨x, k, ks, h⟩ := envAct_shape e s
  rw [h]
  exact ⟨rfl, rfl, rfl, rfl, rfl, rfl, rfl, rfl, rfl, rfl, rfl, rfl, rfl, rfl⟩

theorem envActs_kept (es : List EnvAct) (s : State) : ForegroundKept s (envActs es s) := by
  obtain ⟨x, k, ks, h⟩ := envActs_shape es s
  rw [h]
  exact ⟨rfl, rfl, rfl, rfl, rfl, rfl, rfl, rfl, rfl, rfl, rfl, rfl, rfl, rfl⟩

/-! ### The handler -/

/-- The state after the handler's port read and what the environment does behind it. -/
def byteTaken (b : Byte) (within : List EnvAct) (s : State) : State :=
  envActs within (logIo ⟨.r, s.cfg.kbdDataPort, b⟩ (s.setKbd (.read b)))

/-- The state with both chips acknowledged. -/
def bothAcknowledged (s : State) : State :=
  ((s.setPicM { s.picM with insvc := acknowledge s.picM.insvc }).setPicS
    { s.picS with insvc := acknowledge s.picS.insvc }).setIotrace
    (s.iotrace ++ [⟨.w, s.cfg.picMCmd, s.cfg.eoiByte⟩, ⟨.w, s.cfg.picSCmd, s.cfg.eoiByte⟩])

/-- The state the handler leaves when the latch held a byte (R99). -/
def handlerResult (b : Byte) (within : List EnvAct) (s : State) : State :=
  bothAcknowledged (handleByte b (byteTaken b within s))

/-- Both end-of-interrupt bytes, to configured chips. -/
theorem acknowledgeBoth_next (hc : s.cfg.wf = true) (hm : s.picM.configured = true) (hs : s.picS.configured = true) :
    acknowledgeBoth s = .next (bothAcknowledged s) := by
  have h1 := portWrite_eoi (c := .master) hc hm
  have h2 := portWrite_eoi (c := .slave)
    (s := (s.setPicM { s.picM with insvc := acknowledge s.picM.insvc }).setIotrace
      (s.iotrace ++ [⟨.w, s.cfg.picMCmd, s.cfg.eoiByte⟩])) hc hs
  simp only [picCommandPort] at h1 h2
  simp only [acknowledgeBoth, h1, andThen_next]
  refine h2.trans ?_
  simp [bothAcknowledged, State.setPicS, State.setPicM, State.setIotrace]

/-- Unless both chips are configured the handler's acknowledgment is refused. -/
theorem acknowledgeBoth_configured (hc : s.cfg.wf = true) (h : acknowledgeBoth s = .next t) :
    s.picM.configured = true ∧ s.picS.configured = true := by
  have he : s.cfg.eoiByte ≠ s.cfg.icw1 := Ne.symm (Config.icw1_ne_eoi hc)
  have h1 := portWrite_command (c := .master) (b := s.cfg.eoiByte) hc
  simp only [picCommandPort] at h1
  by_cases hm : s.picM.configured = true
  · refine ⟨hm, ?_⟩
    have h1 := portWrite_eoi (c := .master) hc hm
    simp only [picCommandPort] at h1
    simp only [acknowledgeBoth, h1, andThen_next] at h
    have h2 := portWrite_command (c := .slave) (b := s.cfg.eoiByte)
      (s := (s.setPicM { s.picM with insvc := acknowledge s.picM.insvc }).setIotrace
        (s.iotrace ++ [⟨.w, s.cfg.picMCmd, s.cfg.eoiByte⟩])) hc
    simp only [picCommandPort, State.setIotrace_cfg, State.setPicM_cfg] at h2
    by_contra hs
    have := h.symm.trans h2
    simp [picCommandByte, picAcknowledge, logIo, he, hs, refuse] at this
  · simp [acknowledgeBoth, h1, picCommandByte, picAcknowledge, logIo, he, hm, refuse] at h

theorem byteTaken_chips : (byteTaken b within s).picM.configured = s.picM.configured ∧
    (byteTaken b within s).picM.insvc = s.picM.insvc ∧ (byteTaken b within s).picS = s.picS := by
  obtain ⟨x, k, ks, h⟩ := envActs_shape within (logIo ⟨.r, s.cfg.kbdDataPort, b⟩ (s.setKbd (.read b)))
  rw [byteTaken, h]
  exact ⟨rfl, rfl, rfl⟩

theorem byteTaken_kept : ForegroundKept s (byteTaken b within s) :=
  ForegroundKept.trans (t := logIo ⟨.r, s.cfg.kbdDataPort, b⟩ (s.setKbd (.read b)))
    ⟨rfl, rfl, rfl, rfl, rfl, rfl, rfl, rfl, rfl, rfl, rfl, rfl, rfl, rfl⟩ (envActs_kept _ _)

theorem handleByte_kept : ForegroundKept s (handleByte b s) :=
  ⟨rfl, rfl, rfl, rfl, rfl, rfl, rfl, rfl, rfl, rfl, rfl, rfl, rfl, rfl⟩

theorem bothAcknowledged_kept : ForegroundKept s (bothAcknowledged s) :=
  ⟨rfl, rfl, rfl, rfl, rfl, rfl, rfl, rfl, rfl, rfl, rfl, rfl, rfl, rfl⟩

theorem handlerResult_kept : ForegroundKept s (handlerResult b within s) :=
  (byteTaken_kept.trans handleByte_kept).trans bothAcknowledged_kept

/-- The handler with a byte latched and both chips configured: it completes (R99). -/
theorem handler_full (hc : s.cfg.wf = true) (hk : s.kbd = .full b) (hm : s.picM.configured = true)
    (hs : s.picS.configured = true) : handler within s = .next (handlerResult b within s) := by
  rw [handler, portRead_full hk, andThen_next]
  have h := byteTaken_chips (b := b) (within := within) (s := s)
  exact acknowledgeBoth_next (s := handleByte b (byteTaken b within s))
    ((congrArg Config.wf (byteTaken_kept (s := s)).cfg).trans hc) (h.1.trans hm)
    ((congrArg Pic.configured h.2.2).trans hs)

/-- Everything a handler that completes has done. -/
theorem handler_next (hc : s.cfg.wf = true) (h : handler within s = .next t) :
    ∃ b, s.kbd = .full b ∧ s.picM.configured = true ∧ s.picS.configured = true ∧ t = handlerResult b within s := by
  cases hk : s.kbd with
  | never => simp [handler, portRead, hk] at h
  | read b => simp [handler, portRead, hk] at h
  | full b =>
    rw [handler, portRead_full hk, andThen_next] at h
    have hch := byteTaken_chips (b := b) (within := within) (s := s)
    have hcon := acknowledgeBoth_configured (s := handleByte b (byteTaken b within s))
      ((congrArg Config.wf (byteTaken_kept (s := s)).cfg).trans hc) h
    have hm : s.picM.configured = true := hch.1.symm.trans hcon.1
    have hs : s.picS.configured = true := (congrArg Pic.configured hch.2.2).symm.trans hcon.2
    refine ⟨b, rfl, hm, hs, ?_⟩
    have := handler_full (within := within) hc hk hm hs
    rw [handler, portRead_full hk, andThen_next] at this
    exact Host.Outcome.next.inj (h.symm.trans this)

/-! ### Taking an interrupt -/

/-- The state the handler starts in. -/
def entered (l : Line) (s : State) : State := enterIsr (takeRequest l s)

/-- The state after one interrupt has been taken, served and returned from. -/
def interruptResult (l : Line) (b : Byte) (within : List EnvAct) (s : State) : State :=
  leaveIsr (handlerResult b within (entered l s))

theorem entered_kept : ForegroundKept s (entered l s) := by
  constructor <;> simp [entered, enterIsr, takeRequest]

theorem leaveIsr_kept : ForegroundKept s (leaveIsr s) :=
  ⟨rfl, rfl, rfl, rfl, rfl, rfl, rfl, rfl, rfl, rfl, rfl, rfl, rfl, rfl⟩

theorem interruptResult_kept : ForegroundKept s (interruptResult l b within s) :=
  (entered_kept.trans handlerResult_kept).trans leaveIsr_kept

/-- The handler's descriptor is not 0 (R7: its present bit is 1). -/
theorem mkdesc_ne_zero {c : Config} (hc : c.wf = true) (a : Address) : mkdesc c a ≠ 0 := by
  intro h
  have := congrArg (fun d : Descriptor => d.getLsbD 47) h
  have hg := Config.gate_present hc
  simp only [mkdesc, descriptorOf, BitVec.getLsbD_append] at this
  simp at this
  simp [← BitVec.getLsbD_eq_getElem, hg] at this

/-- The lookup that succeeds (R123) and the handler behind it. -/
theorem takeInterrupt_run (hc : s.cfg.wf = true) (hv : vectorInTable s (vectorOf s l) = true)
    (hd : idtEntry s (vectorOf s l) = some (mkdesc s.cfg s.cfg.handlerAddr)) (hk : s.kbd = .full b)
    (hm : s.picM.configured = true) (hs : s.picS.configured = true) :
    takeInterrupt l within s = .next (interruptResult l b within s) := by
  have hh := handler_full (s := entered l s) (within := within) hc hk hm hs
  have hv' : vectorInTable (takeRequest l s) (vectorOf s l) = true := hv
  have hd' : idtEntry (takeRequest l s) (vectorOf s l) = some (mkdesc s.cfg s.cfg.handlerAddr) := hd
  have hn := mkdesc_ne_zero hc s.cfg.handlerAddr
  have hcfg : (takeRequest l s).cfg = s.cfg := rfl
  simp only [takeInterrupt, throughVector, hv', hd', if_true, hn, if_false, hcfg, ne_eq, not_true_eq_false]
  show andThen (handler within (entered l s)) _ = _
  rw [hh]
  rfl

/-- Everything an interrupt that was served has done. -/
theorem takeInterrupt_next (hc : s.cfg.wf = true) (h : takeInterrupt l within s = .next t) :
    vectorInTable s (vectorOf s l) = true ∧ idtEntry s (vectorOf s l) = some (mkdesc s.cfg s.cfg.handlerAddr) ∧
    ∃ b, s.kbd = .full b ∧ s.picM.configured = true ∧ s.picS.configured = true ∧ t = interruptResult l b within s := by
  have hcfg : (takeRequest l s).cfg = s.cfg := rfl
  simp only [takeInterrupt, throughVector, hcfg] at h
  split_ifs at h with hv
  · split at h
    · simp at h
    · rename_i d hd
      split_ifs at h with h0 hf
      · simp at h
      · simp at h
      · have hdm : d = mkdesc s.cfg s.cfg.handlerAddr := by simpa using hf
        obtain ⟨w, hw, ht⟩ := andThen_eq_next.1 h
        obtain ⟨b, hk, hm, hs, rfl⟩ := handler_next (s := entered l s) hc hw
        exact ⟨hv, hdm ▸ hd, b, hk, hm, hs, (Host.Outcome.next.inj ht).symm⟩
  · simp at h

/-- deliver takes the deliverable interrupt, or does nothing. -/
theorem deliver_next (hc : s.cfg.wf = true) (h : deliver within s = .next t) :
    (deliverable s = none ∧ t = s) ∨ ∃ l b, deliverable s = some l ∧ t = interruptResult l b within s := by
  unfold deliver at h
  split at h
  · rename_i l hl
    obtain ⟨-, -, b, -, -, -, rfl⟩ := takeInterrupt_next hc h
    exact .inr ⟨l, b, hl, rfl⟩
  · rename_i hl
    exact .inl ⟨hl, (Host.Outcome.next.inj h).symm⟩

theorem deliver_kept (hc : s.cfg.wf = true) (h : deliver within s = .next t) : ForegroundKept s t := by
  obtain ⟨-, rfl⟩ | ⟨l, b, -, rfl⟩ := deliver_next hc h
  · exact .refl _
  · exact interruptResult_kept

/-! ### Step boundaries -/

/-- The schedule of an operation nothing falls into. -/
theorem boundary_undisturbed (h : s.sched = []) : boundary s = .next s := by
  unfold boundary
  rw [h, runActs, ← h]
  rfl

theorem setSched_kept {acts : List Act} : ForegroundKept s (s.setSched acts) :=
  ⟨rfl, rfl, rfl, rfl, rfl, rfl, rfl, rfl, rfl, rfl, rfl, rfl, rfl, rfl⟩

theorem runActs_kept {acts : List Act} (hc : s.cfg.wf = true) (h : runActs acts s = .next t) : ForegroundKept s t := by
  induction acts generalizing s with
  | nil => cases h; exact setSched_kept
  | cons a rest ih =>
    cases a with
    | go => cases h; exact setSched_kept
    | env e =>
      have hk := envAct_kept e s
      exact hk.trans (ih (by rw [hk.cfg]; exact hc) h)
    | deliver within =>
      obtain ⟨u, hu, ht⟩ := andThen_eq_next.1 h
      have hk := setSched_kept.trans (deliver_kept (s := s.setSched rest) hc hu)
      exact hk.trans (ih (by rw [hk.cfg]; exact hc) ht)

/-- With interrupts masked nothing is delivered (R121). -/
theorem deliver_masked (h : s.intFlag = false) : deliver within s = .next s := by
  simp [deliver, deliverable, h]

/-- With interrupts masked a boundary is passed, and only the environment acts on it. -/
theorem runActs_masked (acts : List Act) (h : s.intFlag = false) : ∃ x k ks a,
    runActs acts s = .next ((((s.setPicM { s.picM with irr := x }).setKbd k).setKeys ks).setSched a) := by
  induction acts generalizing s with
  | nil => exact ⟨s.picM.irr, s.kbd, s.keys, [], rfl⟩
  | cons a rest ih =>
    cases a with
    | go => exact ⟨s.picM.irr, s.kbd, s.keys, rest, rfl⟩
    | env e =>
      obtain ⟨x, k, ks, he⟩ := envAct_shape e s
      obtain ⟨x', k', ks', a, hr⟩ := ih (s := envAct e s) (by rw [he]; exact h)
      refine ⟨x', k', ks', a, ?_⟩
      rw [runActs, hr, he]
      rfl
    | deliver within =>
      obtain ⟨x', k', ks', a, hr⟩ := ih (s := s.setSched rest) h
      refine ⟨x', k', ks', a, ?_⟩
      rw [runActs, deliver_masked (s := s.setSched rest) h, andThen_next, hr]
      rfl

/-- Whatever falls on a boundary, the foreground's own state is as it was (R48, R124). -/
theorem boundary_kept (hc : s.cfg.wf = true) (h : boundary s = .next t) : ForegroundKept s t := runActs_kept hc h

end Sys2Proof.Machine
end

