-- ==== Sys2Proof/Laws/Frame.lean ====
section
/-! SUPPORT. How an operation that interrupts may fall into is compared with the same operation undisturbed: an answer that
ends where it should (Ends), and what a comparison must survive (Between), once for every use. -/

namespace Sys2Proof.Machine

variable {α β : Type} {E : Prop} {P : α → Prop} {Q : β → Prop} {s t u x : State}

/-- An answer is a next state that meets P; whether it may be a stop instead, E says. -/
def Ends (E : Prop) (P : α → Prop) : Out α → Prop
  | .next a => P a
  | .fault _ => E
  | .refused _ => E

@[simp] theorem ends_next {a : α} : Ends E P (.next a) ↔ P a := Iff.rfl
@[simp] theorem ends_raise {c : FaultCode} : Ends E P (raise c s) ↔ E := Iff.rfl
@[simp] theorem ends_refuse {r : Reason} : Ends E P (refuse r s) ↔ E := Iff.rfl

theorem Ends.andThen {o : Out α} {f : α → Out β} (h : Ends E P o) (hf : ∀ a, P a → Ends E Q (f a)) :
    Ends E Q (andThen o f) := by
  cases o with
  | next a => exact hf a h
  | fault r => exact h
  | refused r => exact h

theorem Ends.mono {o : Out α} {P' : α → Prop} (h : Ends E P o) (hp : ∀ a, P a → P' a) : Ends E P' o := by
  cases o with
  | next a => exact hp a h
  | fault r => exact h
  | refused r => exact h

/-- Where no stop is allowed the operation completes. -/
theorem Ends.completes {o : Out α} (h : Ends False P o) : ∃ a, o = .next a ∧ P a := by
  cases o with
  | next a => exact ⟨a, rfl, h⟩
  | fault r => exact h.elim
  | refused r => exact h.elim

theorem ends_of_completes {o : Out α} {a : α} (h : o = .next a) (hp : P a) : Ends E P o := by rw [h]; exact hp

/-- Where stops are allowed only completed operations matter. -/
theorem ends_true {o : Out α} : Ends True P o ↔ ∀ a, o = .next a → P a := by
  cases o <;> simp [Ends]

/-- t's colours are the session's, or those the Terminal has already. -/
def SameColours (x : State) (t : Terminal) : Prop :=
  (t.fgc = fgDefault ∧ t.bgc = bgDefault) ∨ ∃ t₀, x.term = some t₀ ∧ t.fgc = t₀.fgc ∧ t.bgc = t₀.bgc

/-- K x u: the operation is in state u where, undisturbed, it would be in state x. What such a comparison must survive. -/
structure Between (E : Prop) (K : State → State → Prop) : Prop where
  config {x u : State} : K x u → x.cfg.wf = true
  agree {x u : State} : K x u → u.cfg = x.cfg ∧ u.mem = x.mem ∧ u.crtc = x.crtc ∧ u.term = x.term
  bound {x u : State} : K x u → Ends E (K x) (boundary u)
  store {x u : State} {off : Nat} {c : GlyphCell} : K x u → off < 2000 → K (storeCell off c x) (storeCell off c u)
  term {x u : State} {t : Terminal} : K x u → SameColours x t → K (x.setTerm (some t)) (u.setTerm (some t))
  crtc {x u : State} {v : Crtc} : K x u → K (x.setCrtc v) (u.setCrtc v)
  log {x u : State} {l : List IoEntry} :
    K x u → K (x.setIotrace (x.iotrace ++ l)) (u.setIotrace (u.iotrace ++ l))

/-- Nothing falls into the operation: it is where it would be. -/
theorem between_undisturbed : Between False fun x u => u = x ∧ x.cfg.wf = true ∧ x.sched = [] where
  config h := h.2.1
  agree h := by simp [h.1]
  bound := by
    rintro x u ⟨rfl, hc, hs⟩
    rw [boundary_undisturbed hs]
    exact ⟨rfl, hc, hs⟩
  store := by rintro x u off c ⟨rfl, hc, hs⟩ -; exact ⟨rfl, hc, hs⟩
  term := by rintro x u t ⟨rfl, hc, hs⟩ -; exact ⟨rfl, hc, hs⟩
  crtc := by rintro x u v ⟨rfl, hc, hs⟩; exact ⟨rfl, hc, hs⟩
  log := by rintro x u l ⟨rfl, hc, hs⟩; exact ⟨rfl, hc, hs⟩

/-- Whatever falls into the operation: what belongs to the foreground is as it would be. -/
theorem between_any : Between True fun x u => ForegroundKept x u ∧ x.cfg.wf = true where
  config h := h.2
  agree h := ⟨h.1.cfg, h.1.mem, h.1.crtc, h.1.term⟩
  bound := by
    rintro x u ⟨hk, hc⟩
    refine ends_true.2 fun a ha => ⟨hk.trans (boundary_kept (by rw [hk.cfg]; exact hc) ha), hc⟩
  store := by
    rintro x u off c ⟨hk, hc⟩ -
    refine ⟨⟨hk.cfg, ?_, hk.crtc, hk.term, hk.rd, hk.queueBuilt, hk.idtr, hk.fault, hk.refusal, hk.fgpos, hk.stream,
      hk.mainLoop, hk.work, hk.result⟩, hc⟩
    simp only [storeCell, State.setMem_mem, hk.cfg, hk.mem]
  term := by
    rintro x u t ⟨hk, hc⟩ -
    exact ⟨⟨hk.cfg, hk.mem, hk.crtc, rfl, hk.rd, hk.queueBuilt, hk.idtr, hk.fault, hk.refusal, hk.fgpos, hk.stream,
      hk.mainLoop, hk.work, hk.result⟩, hc⟩
  crtc := by
    rintro x u v ⟨hk, hc⟩
    exact ⟨⟨hk.cfg, hk.mem, rfl, hk.term, hk.rd, hk.queueBuilt, hk.idtr, hk.fault, hk.refusal, hk.fgpos, hk.stream,
      hk.mainLoop, hk.work, hk.result⟩, hc⟩
  log := by
    rintro x u l ⟨hk, hc⟩
    exact ⟨⟨hk.cfg, hk.mem, hk.crtc, hk.term, hk.rd, hk.queueBuilt, hk.idtr, hk.fault, hk.refusal, hk.fgpos, hk.stream,
      hk.mainLoop, hk.work, hk.result⟩, hc⟩

variable {K : State → State → Prop}

/-- A step and the boundary behind it. -/
theorem Between.thenStep (hB : Between E K) {o : Out State} {f : State → Out State} {Q : State → Prop}
    (h : Ends E (K x) o) (hf : ∀ v, K x v → Ends E Q (f v)) : Ends E Q (thenStep o f) :=
  h.andThen fun _ hv => (hB.bound hv).andThen hf

/-- One port write of the cursor protocol and what it leaves. -/
theorem Between.select (hB : Between E K) (h : K x u) {b : Byte} (hb : b = x.cfg.cursorSelHi ∨ b = x.cfg.cursorSelLo) :
    Ends E (K ((x.setIotrace (x.iotrace ++ [⟨.w, x.cfg.crtcCmd, b⟩])).setCrtc { x.crtc with index := some b }))
      (portWrite u.cfg.crtcCmd b u) := by
  have ha := hB.agree h
  rw [portWrite_select (by rw [ha.1]; exact hb), ha.1, ha.2.2.1]
  exact hB.crtc (hB.log h)

theorem Between.high (hB : Between E K) (h : K x u) {b : Byte} (hi : x.crtc.index = some x.cfg.cursorSelHi) :
    Ends E (K ((x.setIotrace (x.iotrace ++ [⟨.w, x.cfg.crtcData, b⟩])).setCrtc { x.crtc with cursorHi := some b }))
      (portWrite u.cfg.crtcData b u) := by
  have ha := hB.agree h
  rw [portWrite_high (by rw [ha.1]; exact hB.config h) (by rw [ha.1, ha.2.2.1]; exact hi), ha.1, ha.2.2.1]
  exact hB.crtc (hB.log h)

theorem Between.low (hB : Between E K) (h : K x u) {b : Byte} (hi : x.crtc.index = some x.cfg.cursorSelLo) :
    Ends E (K ((x.setIotrace (x.iotrace ++ [⟨.w, x.cfg.crtcData, b⟩])).setCrtc { x.crtc with cursorLo := some b }))
      (portWrite u.cfg.crtcData b u) := by
  have ha := hB.agree h
  rw [portWrite_low (by rw [ha.1]; exact hB.config h) (by rw [ha.1, ha.2.2.1]; exact hi), ha.1, ha.2.2.1]
  exact hB.crtc (hB.log h)

/-- The state SETCURSOR(x, y) leaves where nothing falls into it (R79). -/
def cursorSet (x y : Nat) (s : State) : State :=
  (s.setIotrace (s.iotrace ++ cursorTrace s.cfg x y)).setCrtc (cursorAt s.cfg x y)

/-- SETCURSOR's four port writes, whatever falls between them. -/
theorem setCursor_ends (hB : Between E K) (h : K s u) (x y : Nat) : Ends E (K (cursorSet x y s)) (setCursor x y u) := by
  have hcfg := (hB.agree h).1
  simp only [setCursor, hcfg]
  have h1 := hB.select h (b := s.cfg.cursorSelHi) (.inl rfl)
  rw [hcfg] at h1
  refine hB.thenStep h1 fun v hv => ?_
  have hcv := (hB.agree hv).1
  have h2 := hB.high hv (b := highByte (cursorOffset x y)) rfl
  simp only [State.setCrtc_cfg, State.setIotrace_cfg] at hcv h2
  refine hB.thenStep h2 fun w hw => ?_
  have h3 := hB.select hw (b := s.cfg.cursorSelLo) (.inr rfl)
  have hcw := (hB.agree hw).1
  simp only [State.setCrtc_cfg, State.setIotrace_cfg] at hcw h3
  rw [hcw]
  refine hB.thenStep (by rw [hcw] at h3; exact h3) fun z hz => ?_
  have h4 := hB.low hz (b := lowByte (cursorOffset x y)) rfl
  refine h4.mono fun a ha => ?_
  convert ha using 2
  simp only [cursorSet, cursorTrace, cursorAt, State.setCrtc, State.setIotrace, List.append_assoc,
    List.cons_append, List.nil_append]

end Sys2Proof.Machine
end

