-- ==== Sys2Proof/Laws/Queue.lean ====
section
/-! SUPPORT. The ring: what Q.PUT and the advance of RD keep of it, what Q.INIT's writes make of it, and what one interrupt
leaves, field by field. -/

namespace Sys2Proof.Machine

variable {E : Prop} {s t u : State} {b : Byte} {l : Line} {within : List EnvAct}

/-- Slot i of the ring. -/
def slot (s : State) (i : Fin 1024) : Option KeyEvent := s.ring[i.val]'i.isLt

theorem slot_ringPut (e : KeyEvent) (s : State) (i : Fin 1024) :
    slot (ringPut e s) i = if i = s.wr then some e else slot s i := by
  simp only [slot, ringPut, ringPublish, ringStore, State.setWr_ring, State.setRing_ring, Vector.getElem_set,
    Fin.ext_iff, eq_comm]

theorem queueSound_def : QueueSound s ↔ (∀ i, (slot s i).isSome = true) ∨
    (s.rd ≤ s.wr ∧ ∀ i, (slot s i).isSome = decide (i < s.wr)) := Iff.rfl

/-- The ring and its indices the same, the same sound. -/
theorem QueueSound.congr (h : QueueSound s) (hr : t.ring = s.ring) (hd : t.rd = s.rd) (hw : t.wr = s.wr) :
    QueueSound t := by
  unfold QueueSound at h ⊢
  simp only [hr, hd, hw]
  exact h

/-- Q.PUT keeps the ring sound (R89). -/
theorem QueueSound.put (h : QueueSound s) (e : KeyEvent) : QueueSound (ringPut e s) := by
  rw [queueSound_def] at h ⊢
  simp only [slot_ringPut]
  have hrd : (ringPut e s).rd = s.rd := rfl
  have hwr : (ringPut e s).wr = s.wr + 1 := rfl
  rw [hrd, hwr]
  rcases h with h | ⟨h1, h2⟩
  · left
    intro i
    split
    · rfl
    · exact h i
  · by_cases hl : s.wr = 1023
    · left
      intro i
      split
      · rfl
      · rename_i hi
        rw [h2 i]
        simp only [decide_eq_true_eq]
        omega
    · right
      refine ⟨by omega, fun i => ?_⟩
      split
      · simp only [Option.isSome_some]
        symm
        simp only [decide_eq_true_eq]
        omega
      · rw [h2 i]
        simp only [decide_eq_decide]
        omega

/-- A slot that holds an event holds one after Q.PUT. -/
theorem slot_isSome_put {i : Fin 1024} (h : (slot s i).isSome = true) (e : KeyEvent) :
    (slot (ringPut e s) i).isSome = true := by
  rw [slot_ringPut]
  split
  · rfl
  · exact h

/-- RD advances past a slot that holds an event (R90): the ring stays sound. -/
theorem QueueSound.read (h : QueueSound s) (hs : (slot s s.rd).isSome = true) : QueueSound (s.setRd (advance s.rd)) := by
  rw [queueSound_def] at h ⊢
  rcases h with h | ⟨h1, h2⟩
  · exact .inl h
  · right
    have := h2 s.rd
    rw [hs] at this
    have hlt : s.rd < s.wr := by simpa using this.symm
    refine ⟨?_, h2⟩
    show s.rd + 1 ≤ s.wr
    omega

/-- The empty ring is sound. -/
theorem queueSound_empty (hr : s.rd = 0) (hw : s.wr = 0) (hs : ∀ i, slot s i = none) : QueueSound s := by
  right
  rw [hr, hw]
  exact ⟨Fin.le_refl _, fun i => by rw [show s.ring[i.val]'i.isLt = none from hs i]; simp⟩

/-- Unread events are in their slots: RD ≠ WR says the next one is. -/
theorem QueueSound.next (h : QueueSound s) (hne : s.rd ≠ s.wr) : (slot s s.rd).isSome = true := by
  rcases h with h | ⟨h1, h2⟩
  · exact h _
  · have hlt : s.rd < s.wr := by omega
    rw [show slot s s.rd = s.ring[s.rd.val]'s.rd.isLt from rfl, h2 s.rd]
    simpa using hlt

/-! ### Q.INIT's writes -/

theorem slot_clearSlot (i k : Fin 1024) (s : State) : slot (clearSlot i s) k = if k = i then none else slot s k := by
  simp only [slot, clearSlot, State.setRing_ring, Vector.getElem_set, Fin.ext_iff, eq_comm]

/-- n slots cleared in turn: P i holds once the slots below i are cleared and what follows has fallen. -/
theorem clearSlots_ends {P : Nat → State → Prop}
    (hc : ∀ i u, i < 1024 → P i u → Ends E (P (i + 1)) (boundary (clearSlot (Fin.ofNat 1024 i) u))) (n : Nat) :
    ∀ i u, i + n ≤ 1024 → P i u → Ends E (P (i + n)) (clearSlots i n u) := by
  induction n with
  | zero => exact fun i u _ h => h
  | succ n ih =>
    intro i u hi hu
    rw [clearSlots, thenStep, andThen_next, ← Nat.add_assoc, Nat.add_right_comm]
    exact (hc i u (by omega) hu).andThen fun v hv => ih (i + 1) v (by omega) hv

/-- Everything Q.INIT's writes can end in, from what each of them and the boundary behind it keeps. -/
theorem initQueue_ends {Q : State → Prop} {P : Nat → State → Prop} (h : Ends E Q (boundary (beginQueue s)))
    (hw : ∀ u, Q u → Ends E (P 0) (boundary (u.setWr 0)))
    (hc : ∀ i u, i < 1024 → P i u → Ends E (P (i + 1)) (boundary (clearSlot (Fin.ofNat 1024 i) u))) :
    Ends E (P 1024) (initQueue s) := by
  rw [initQueue, thenStep, andThen_next]
  refine h.andThen fun u hu => ?_
  rw [thenStep, andThen_next]
  refine (hw u hu).andThen fun v hv => ?_
  have := clearSlots_ends hc 1024 0 v (by omega) hv
  rwa [Nat.zero_add] at this

/-- The state Q.INIT's writes leave where nothing falls between them. -/
def emptyQueue (s : State) : State :=
  (((s.setRd 0).setWr 0).setRing (Vector.replicate 1024 none)).setQueueBuilt true

/-- Cleared slots, one more cleared. -/
theorem slots_cleared {i : Nat} (hi : i < 1024) (h : ∀ k : Fin 1024, k.val < i → slot u k = none) (k : Fin 1024)
    (hk : k.val < i + 1) : slot (clearSlot (Fin.ofNat 1024 i) u) k = none := by
  rw [slot_clearSlot]
  split
  · rfl
  · rename_i hne
    refine h k ?_
    have : k.val ≠ i := fun he => hne (Fin.ext (by simp [Fin.ofNat, he, Nat.mod_eq_of_lt hi]))
    omega

theorem initQueue_undisturbed (hs : s.sched = []) : initQueue s = .next (emptyQueue s) := by
  let P : Nat → State → Prop := fun i u =>
    (∃ g, u = ((beginQueue s).setWr 0).setRing g) ∧ ∀ k : Fin 1024, k.val < i → slot u k = none
  obtain ⟨u, hu, ⟨g, rfl⟩, hn⟩ := (initQueue_ends (E := False) (s := s) (Q := fun u => u = beginQueue s) (P := P)
    (by rw [boundary_undisturbed (s := beginQueue s) hs]; exact rfl)
    (fun u hu => by
      subst hu
      rw [boundary_undisturbed (s := (beginQueue s).setWr 0) hs]
      exact ⟨⟨s.ring, rfl⟩, fun k hk => absurd hk (Nat.not_lt_zero _)⟩)
    (fun i u hi hP => by
      obtain ⟨⟨g, rfl⟩, hn⟩ := hP
      rw [boundary_undisturbed (s := clearSlot _ (((beginQueue s).setWr 0).setRing g)) hs]
      exact ⟨⟨_, rfl⟩, fun k hk => slots_cleared hi hn k hk⟩)).completes
  rw [hu]
  have hg : g = Vector.replicate 1024 none := by
    refine Vector.ext fun k hk => ?_
    rw [Vector.getElem_replicate]
    exact hn ⟨k, hk⟩ hk
  rw [hg]
  rfl

theorem execQInit_undisturbed (hb : s.queueBuilt = false) (hs : s.sched = []) :
    execQInit s = .next ((emptyQueue s).setResult .none) := by
  rw [execQInit, hb, if_neg Bool.false_ne_true, initQueue_undisturbed hs, finish_next]

/-- With interrupts masked Q.INIT completes on an empty queue, whatever the environment does meanwhile (R88). -/
theorem initQueue_masked (hi : s.intFlag = false) : ∃ u, initQueue s = .next u ∧ u.intFlag = false ∧ u.rd = 0 ∧
    u.wr = 0 ∧ ∀ k, slot u k = none := by
  have hb : ∀ v : State, v.intFlag = false → ∃ w, boundary v = .next w ∧ w.intFlag = false ∧ w.rd = v.rd ∧
      w.wr = v.wr ∧ ∀ k, slot w k = slot v k := by
    intro v hv
    obtain ⟨x, k, ks, a, h⟩ := runActs_masked v.sched hv
    exact ⟨_, h, hv, rfl, rfl, fun _ => rfl⟩
  let P : Nat → State → Prop := fun i u =>
    u.intFlag = false ∧ u.rd = 0 ∧ u.wr = 0 ∧ ∀ k : Fin 1024, k.val < i → slot u k = none
  obtain ⟨u, hu, h1, h2, h3, h4⟩ := (initQueue_ends (E := False) (s := s)
    (Q := fun u => u.intFlag = false ∧ u.rd = 0) (P := P)
    (by
      obtain ⟨w, h, h1, h2, -⟩ := hb (beginQueue s) hi
      exact ends_of_completes h ⟨h1, h2⟩)
    (fun u hu => by
      obtain ⟨w, h, h1, h2, h3, -⟩ := hb (u.setWr 0) hu.1
      exact ends_of_completes h ⟨h1, h2.trans hu.2, h3, fun k hk => absurd hk (Nat.not_lt_zero _)⟩)
    (fun i u hi hP => by
      obtain ⟨w, h, h1, h2, h3, h4⟩ := hb (clearSlot (Fin.ofNat 1024 i) u) hP.1
      exact ends_of_completes h ⟨h1, h2.trans hP.2.1, h3.trans hP.2.2.1, fun k hk =>
        (h4 k).trans (slots_cleared hi hP.2.2.2 k hk)⟩)).completes
  exact ⟨u, hu, h1, h2, h3, fun k => h4 k k.isLt⟩

/-- Whatever falls between Q.INIT's writes, of the foreground's own state it changes RD alone (R48, R88). -/
theorem initQueue_kept (hc : s.cfg.wf = true) (h : initQueue s = .next t) : ForegroundKept (beginQueue s) t := by
  have hb : ∀ v, ForegroundKept (beginQueue s) v →
      Ends True (ForegroundKept (beginQueue s)) (boundary v) := fun v hv =>
    ends_true.2 fun w hw => hv.trans (boundary_kept (by rw [hv.cfg]; exact hc) hw)
  exact ends_true.1 (initQueue_ends (P := fun _ => ForegroundKept (beginQueue s)) (hb _ (.refl _))
    (fun u hu => hb _ (hu.trans ⟨rfl, rfl, rfl, rfl, rfl, rfl, rfl, rfl, rfl, rfl, rfl, rfl, rfl, rfl⟩))
    (fun i u _ hu => hb _ (hu.trans ⟨rfl, rfl, rfl, rfl, rfl, rfl, rfl, rfl, rfl, rfl, rfl, rfl, rfl, rfl⟩))) t h

/-! ### The history of a ring -/

/-- One more event put (R93). -/
theorem latest_append {es : List KeyEvent} {e : KeyEvent} {i : Nat} (hi : i < 1024) :
    latest (es ++ [e]) i = if i = es.length % 1024 then some e else latest es i := by
  simp only [latest, List.length_append, List.length_singleton]
  split_ifs with h1 h2 h3 h4
  · subst h2
    have : es.length % 1024 + 1024 * ((es.length + 1 - 1 - es.length % 1024) / 1024) = es.length := by omega
    rw [this]; simp
  · have : i + 1024 * ((es.length + 1 - 1 - i) / 1024) < es.length := by omega
    rw [List.getElem?_append_left this]
    congr 1; omega
  · omega
  · omega
  · omega
  · rfl

/-- The slot of an event that is not yet read holds it, or the latest that overwrote it (R92, R93). -/
theorem latest_unread {es : List KeyEvent} {c : Nat} (h : c < es.length) : ∃ e j,
    latest es (c % 1024) = some e ∧ es[c + 1024 * j]? = some e ∧ c + 1024 * j < es.length ∧
    es.length ≤ c + 1024 * (j + 1) := by
  have hlt : c % 1024 < es.length := by omega
  refine ⟨es[c % 1024 + 1024 * ((es.length - 1 - c % 1024) / 1024)]'(by omega), (es.length - 1 - c) / 1024, ?_, ?_,
    by omega, by omega⟩
  · rw [latest, if_pos hlt, List.getElem?_eq_getElem]
  · have : c + 1024 * ((es.length - 1 - c) / 1024) = c % 1024 + 1024 * ((es.length - 1 - c % 1024) / 1024) := by omega
    rw [this, List.getElem?_eq_getElem]

/-! ### One interrupt, field by field -/

/-- The event the handler queues for a byte (R99). -/
def byteEvent (b : Byte) (s : State) : KeyEvent :=
  let m := modupdate s.cfg s.mods b
  decodeKey s.cfg (scancodeByte false (keyCode b)) (isPressed b) m.lshift m.rshift m.ctrl m.alt

/-- The state one interrupt leaves: the byte queued, the line served, and what the environment did behind the port read
(R99, R122, R125). -/
structure Served (l : Line) (b : Byte) (within : List EnvAct) (s t : State) : Prop where
  picM : t.picM = { s.picM with
    irr := (byteTaken b within (entered l s)).picM.irr, insvc := acknowledge (setBit s.picM.insvc l) }
  picS : t.picS = { s.picS with insvc := acknowledge s.picS.insvc }
  kbd : t.kbd = (byteTaken b within (entered l s)).kbd
  keys : t.keys = (byteTaken b within (entered l s)).keys
  mods : t.mods = modupdate s.cfg s.mods b
  wr : t.wr = advance s.wr
  ring : t.ring = (ringPut (byteEvent b s) s).ring
  intFlag : t.intFlag = true
  halted : t.halted = false
  ctx : t.ctx = .fg
  sched : t.sched = s.sched

/-- The port read and the environment's actions behind it, on everything but the latch, the request bits and the bytes that
wait. -/
theorem byteTaken_fields (b : Byte) (within : List EnvAct) (s : State) :
    (byteTaken b within s).picM = { s.picM with irr := (byteTaken b within s).picM.irr } ∧
    (byteTaken b within s).picS = s.picS ∧ (byteTaken b within s).mods = s.mods ∧
    (byteTaken b within s).ring = s.ring ∧ (byteTaken b within s).wr = s.wr ∧
    (byteTaken b within s).intFlag = s.intFlag ∧ (byteTaken b within s).halted = s.halted ∧
    (byteTaken b within s).ctx = s.ctx ∧ (byteTaken b within s).sched = s.sched ∧
    (byteTaken b within s).iotrace = s.iotrace ++ [⟨.r, s.cfg.kbdDataPort, b⟩] := by
  obtain ⟨x, k, ks, h⟩ := envActs_shape within (logIo ⟨.r, s.cfg.kbdDataPort, b⟩ (s.setKbd (.read b)))
  have hb : byteTaken b within s = _ := h
  rw [hb]
  simp [logIo]

theorem interruptResult_served (l : Line) (b : Byte) (within : List EnvAct) (s : State) :
    Served l b within s (interruptResult l b within s) := by
  obtain ⟨h1, h2, h3, h4, h5, h6, h7, h8, h9, -⟩ := byteTaken_fields b within (entered l s)
  have hc := (byteTaken_kept (b := b) (within := within) (s := entered l s)).cfg
  have he : (entered l s).picM = { s.picM with irr := clearBit s.picM.irr l, insvc := setBit s.picM.insvc l } ∧
      (entered l s).picS = s.picS ∧ (entered l s).mods = s.mods ∧ (entered l s).ring = s.ring ∧
      (entered l s).wr = s.wr ∧ (entered l s).sched = s.sched ∧ (entered l s).cfg = s.cfg := by
    simp [entered, enterIsr, takeRequest]
  obtain ⟨e1, e2, e3, e4, e5, e6, e7⟩ := he
  rw [e1] at h1
  rw [e2] at h2
  rw [e3] at h3
  rw [e4] at h4
  rw [e5] at h5
  rw [e6] at h9
  rw [e7] at hc
  unfold interruptResult handlerResult
  constructor <;> generalize byteTaken b within (entered l s) = v at *
  · simp only [leaveIsr, bothAcknowledged, handleByte, ringPut, ringPublish, ringStore]
    simp only [State.setIntFlag_picM, State.setCtx_picM, State.setIotrace_picM, State.setPicS_picM, State.setPicM_picM,
      State.setWr_picM, State.setRing_picM, State.setMods_picM]
    rw [h1]
  · simp [leaveIsr, bothAcknowledged, handleByte, ringPut, ringPublish, ringStore, h2]
  · simp [leaveIsr, bothAcknowledged, handleByte, ringPut, ringPublish, ringStore]
  · simp [leaveIsr, bothAcknowledged, handleByte, ringPut, ringPublish, ringStore]
  · simp [leaveIsr, bothAcknowledged, handleByte, ringPut, ringPublish, ringStore, h3, hc]
  · simp [leaveIsr, bothAcknowledged, handleByte, ringPut, ringPublish, ringStore, h5]
  · simp only [leaveIsr, bothAcknowledged, handleByte, ringPut, ringPublish, ringStore]
    simp only [State.setIntFlag_ring, State.setCtx_ring, State.setIotrace_ring, State.setPicS_ring, State.setPicM_ring,
      State.setWr_ring, State.setRing_ring, State.setMods_ring, State.setMods_wr, h3, h4, h5, hc, byteEvent]
  · rfl
  · simp [leaveIsr, bothAcknowledged, handleByte, ringPut, ringPublish, ringStore, h7, entered, enterIsr]
  · rfl
  · simp [leaveIsr, bothAcknowledged, handleByte, ringPut, ringPublish, ringStore, h9]

/-- A slot that holds an event holds one after whatever falls on a boundary (R48). -/
theorem runActs_slot {acts : List Act} {i : Fin 1024} (hc : s.cfg.wf = true) (hr : runActs acts s = .next t)
    (h : (slot s i).isSome = true) : (slot t i).isSome = true := by
  induction acts generalizing s with
  | nil => cases hr; exact h
  | cons a acts ih =>
    cases a with
    | go => cases hr; exact h
    | env e =>
      refine ih (s := envAct e s) (by rw [(envAct_kept e s).cfg]; exact hc) hr ?_
      obtain ⟨y, k, ks, hx⟩ := envAct_shape e s
      rw [hx]; exact h
    | deliver within =>
      obtain ⟨u, hu, hr⟩ := andThen_eq_next.1 hr
      have hk := deliver_kept (s := s.setSched acts) hc hu
      refine ih (by rw [hk.cfg]; exact hc) hr ?_
      obtain ⟨-, rfl⟩ | ⟨l, b, -, rfl⟩ := deliver_next (s := s.setSched acts) hc hu
      · exact h
      · have hs := slot_isSome_put (s := s.setSched acts) h (byteEvent b (s.setSched acts))
        simpa only [slot, (interruptResult_served l b within (s.setSched acts)).ring] using hs

theorem boundary_slot {i : Fin 1024} (hc : s.cfg.wf = true) (hb : boundary s = .next t)
    (h : (slot s i).isSome = true) : (slot t i).isSome = true := runActs_slot hc hb h

end Sys2Proof.Machine
end

