-- ==== Sys2Proof/Laws/Drawing.lean ====
section
/-! SUPPORT. The Terminal's drawing as a plain function of its grid and of memory, and that the Terminal's loops compute it
whatever falls between their steps. -/

namespace Sys2Proof.Machine

variable {E : Prop} {K : State → State → Prop} {s u x : State} {t : Terminal}

/-- A Terminal and the memory it draws into. -/
abbrev Canvas := Terminal × List Host.Cell

/-- The state with a Terminal and its memory in place. -/
def painted (x : State) (p : Canvas) : State := (x.setMem p.2).setTerm (some p.1)

@[simp] theorem painted_cfg (p : Canvas) : (painted x p).cfg = x.cfg := rfl
@[simp] theorem painted_term (p : Canvas) : (painted x p).term = some p.1 := rfl
@[simp] theorem painted_mem (p : Canvas) : (painted x p).mem = p.2 := rfl
@[simp] theorem painted_crtc (p : Canvas) : (painted x p).crtc = x.crtc := rfl
@[simp] theorem painted_painted (p q : Canvas) : painted (painted x p) q = painted x q := rfl

theorem painted_self (h : x.term = some t) : painted x (t, x.mem) = x := by
  simp only [painted, State.setMem, State.setTerm, ← h]

/-- One cell drawn: stored in memory and kept in the grid. -/
def drawn (cfg : Config) (r c : Nat) (cell : GlyphCell) (p : Canvas) : Canvas :=
  (withShadow p.1 r c cell, Memory.writeBytes cfg (cellAddress cfg (cellOffset c r)) (putWord16 cell) p.2)

/-- clearCells, as a function. -/
def clearedCells (cfg : Config) (r : Nat) : Nat → Nat → Canvas → Canvas
  | _, 0, p => p
  | c, n + 1, p => clearedCells cfg r (c + 1) n (drawn cfg r c (mkcell cfg.space p.1.fgc p.1.bgc) p)

/-- clearRows, as a function. -/
def clearedRows (cfg : Config) : Nat → Nat → Canvas → Canvas
  | _, 0, p => p
  | r, n + 1, p => clearedRows cfg (r + 1) n (clearedCells cfg r 0 80 p)

/-- scrollCells, as a function. -/
def scrolledCells (cfg : Config) (r : Nat) : Nat → Nat → Canvas → Canvas
  | _, 0, p => p
  | c, n + 1, p => scrolledCells cfg r (c + 1) n (drawn cfg (r - 1) c (shadowAt p.1 r c) p)

/-- scrollRows, as a function. -/
def scrolledRows (cfg : Config) : Nat → Nat → Canvas → Canvas
  | _, 0, p => p
  | r, n + 1, p => scrolledRows cfg (r + 1) n (scrolledCells cfg r 0 80 p)

/-! ### The loops compute it -/

/-- The Terminal is replaced, nothing is drawn. -/
theorem Between.place (hB : Between E K) {p : Canvas} (h : K (painted x p) u) (hf : t.fgc = p.1.fgc)
    (hb : t.bgc = p.1.bgc) : K (painted x (t, p.2)) (u.setTerm (some t)) := by
  have ht := hB.term (t := t) h (.inr ⟨p.1, rfl, hf, hb⟩)
  exact ht

theorem showCell_ends (hB : Between E K) {r c : Nat} {cell : GlyphCell} {p : Canvas} (hr : r < 25) (hc : c < 80)
    (h : K (painted x p) u) : Ends E (K (painted x (drawn x.cfg r c cell p))) (showCell r c cell u) := by
  have ha := hB.agree h
  have ho : cellOffset c r < 2000 := by simp only [cellOffset]; omega
  simp only [showCell, withTerminal, ha.2.2.2, painted_term, putCell, ho, if_true, andThen_next, ends_next]
  have hs := hB.store (c := cell) h ho
  have ht := hB.term (t := withShadow p.1 r c cell) hs (.inr ⟨p.1, rfl, rfl, rfl⟩)
  exact ht

theorem clearCells_ends (hB : Between E K) {r : Nat} (hr : r < 25) (n : Nat) : ∀ (c : Nat) (p : Canvas) (u : State),
    c + n ≤ 80 → K (painted x p) u → Ends E (K (painted x (clearedCells x.cfg r c n p))) (clearCells r c n u) := by
  induction n with
  | zero => exact fun c p u _ h => h
  | succ n ih =>
    intro c p u hc h
    have ha := hB.agree h
    refine hB.thenStep (x := painted x (drawn x.cfg r c (mkcell x.cfg.space p.1.fgc p.1.bgc) p)) ?_
      fun v hv => ih (c + 1) _ v (by omega) hv
    simp only [clearCell, withTerminal, ha.2.2.2, painted_term, ha.1, painted_cfg]
    exact showCell_ends hB hr (by omega) h

theorem clearRows_ends (hB : Between E K) (n : Nat) : ∀ (r : Nat) (p : Canvas) (u : State),
    r + n ≤ 25 → K (painted x p) u → Ends E (K (painted x (clearedRows x.cfg r n p))) (clearRows r n u) := by
  induction n with
  | zero => exact fun r p u _ h => h
  | succ n ih =>
    intro r p u hr h
    exact (clearCells_ends hB (by omega) 80 0 p u (by omega) h).andThen fun v hv => ih (r + 1) _ v (by omega) hv

theorem scrollCells_ends (hB : Between E K) {r : Nat} (hr : r < 25) (n : Nat) : ∀ (c : Nat) (p : Canvas) (u : State),
    c + n ≤ 80 → K (painted x p) u → Ends E (K (painted x (scrolledCells x.cfg r c n p))) (scrollCells r c n u) := by
  induction n with
  | zero => exact fun c p u _ h => h
  | succ n ih =>
    intro c p u hc h
    have ha := hB.agree h
    refine hB.thenStep (x := painted x (drawn x.cfg (r - 1) c (shadowAt p.1 r c) p)) ?_
      fun v hv => ih (c + 1) _ v (by omega) hv
    simp only [scrollCell, withTerminal, ha.2.2.2, painted_term]
    exact showCell_ends hB (by omega) (by omega) h

theorem scrollRows_ends (hB : Between E K) (n : Nat) : ∀ (r : Nat) (p : Canvas) (u : State),
    r + n ≤ 25 → K (painted x p) u → Ends E (K (painted x (scrolledRows x.cfg r n p))) (scrollRows r n u) := by
  induction n with
  | zero => exact fun r p u _ h => h
  | succ n ih =>
    intro r p u hr h
    exact (scrollCells_ends hB (by omega) 80 0 p u (by omega) h).andThen fun v hv => ih (r + 1) _ v (by omega) hv

/-! ### What the drawing leaves of a canvas -/

/-- Cell k of memory shows what the grid holds. -/
def ShowsAt (x : State) (p : Canvas) (k : Nat) (hk : k < 2000) : Prop := vram (painted x p) k = some (p.1.shadow[k]'hk)

/-- What drawing inside the window keeps. -/
structure DrawnFrom (x : State) (p q : Canvas) : Prop where
  row : q.1.row = p.1.row
  col : q.1.col = p.1.col
  fgc : q.1.fgc = p.1.fgc
  bgc : q.1.bgc = p.1.bgc
  outside : ∀ a, ¬ inWindow x.cfg a → Memory.read x.cfg q.2 a = Memory.read x.cfg p.2 a
  memory : Memory.wf x.cfg p.2 = true → Memory.wf x.cfg q.2 = true
  shows : Memory.wf x.cfg p.2 = true → ∀ k (hk : k < 2000), ShowsAt x p k hk → ShowsAt x q k hk

theorem DrawnFrom.refl (p : Canvas) : DrawnFrom x p p :=
  ⟨rfl, rfl, rfl, rfl, fun _ _ => rfl, id, fun _ _ _ => id⟩

theorem DrawnFrom.trans {p q r : Canvas} (h : DrawnFrom x p q) (k : DrawnFrom x q r) : DrawnFrom x p r :=
  ⟨k.row.trans h.row, k.col.trans h.col, k.fgc.trans h.fgc, k.bgc.trans h.bgc,
   fun a ha => (k.outside a ha).trans (h.outside a ha), fun hw => k.memory (h.memory hw),
   fun hw i hi hs => k.shows (h.memory hw) i hi (h.shows hw i hi hs)⟩

theorem shadowIndex_val {r c : Nat} (hr : r < 25) (hc : c < 80) : (shadowIndex r c).val = r * 80 + c := by
  simp only [shadowIndex, Fin.ofNat]
  exact Nat.mod_eq_of_lt (by omega)

theorem withShadow_get {r c k : Nat} {cell : GlyphCell} (hr : r < 25) (hc : c < 80) (hk : k < 2000) :
    (withShadow t r c cell).shadow[k]'hk = if k = r * 80 + c then cell else t.shadow[k]'hk := by
  have hv := shadowIndex_val hr hc
  simp only [withShadow, hv, Vector.getElem_set, eq_comm]

theorem shadowAt_eq {r c : Nat} (hr : r < 25) (hc : c < 80) : shadowAt t r c = t.shadow[r * 80 + c]'(by omega) := by
  simp only [shadowAt, shadowIndex_val hr hc]

/-- The cell just drawn is shown. -/
theorem drawn_shows {r c : Nat} {cell : GlyphCell} {p : Canvas} (hr : r < 25) (hc : c < 80)
    (hw : Memory.wf x.cfg p.2 = true) : ShowsAt x (drawn x.cfg r c cell p) (r * 80 + c) (by omega) := by
  have h := vram_storeCell_same (s := x.setMem p.2) (off := cellOffset c r) (c := cell) hw
  have hg := withShadow_get (t := p.1) (cell := cell) hr hc (k := r * 80 + c) (by omega)
  rw [if_pos rfl] at hg
  rw [ShowsAt]
  exact h.trans (congrArg some hg.symm)

theorem drawn_from {r c : Nat} {cell : GlyphCell} {p : Canvas} (hr : r < 25) (hc : c < 80) :
    DrawnFrom x p (drawn x.cfg r c cell p) where
  row := rfl
  col := rfl
  fgc := rfl
  bgc := rfl
  outside a ha := by
    refine byteAt_storeCell_other (s := x.setMem p.2) (off := cellOffset c r) (c := cell) ?_
    simp only [inWindow, cellAddress, cellOffset, State.setMem_cfg] at ha ⊢
    omega
  memory hw := storeCell_wf (s := x.setMem p.2) (off := cellOffset c r) (c := cell) hw
  shows hw k hk hs := by
    by_cases h : k = r * 80 + c
    · subst h; exact drawn_shows hr hc hw
    · have h1 := vram_storeCell_other (s := x.setMem p.2) (off := cellOffset c r) (c := cell) (k := k) h
      have hg := withShadow_get (t := p.1) (cell := cell) hr hc hk
      rw [if_neg h] at hg
      rw [ShowsAt] at hs ⊢
      exact (h1.trans hs).trans (congrArg some hg.symm)

/-- n cells of a row cleared: what is kept, and what the grid holds. -/
theorem clearedCells_spec {r : Nat} (hr : r < 25) (n : Nat) : ∀ (c : Nat) (p : Canvas), c + n ≤ 80 →
    DrawnFrom x p (clearedCells x.cfg r c n p) ∧
    (∀ k (hk : k < 2000), (clearedCells x.cfg r c n p).1.shadow[k]'hk =
      if r * 80 + c ≤ k ∧ k < r * 80 + c + n then mkcell x.cfg.space p.1.fgc p.1.bgc else p.1.shadow[k]'hk) ∧
    (Memory.wf x.cfg p.2 = true → ∀ k (hk : k < 2000), r * 80 + c ≤ k ∧ k < r * 80 + c + n →
      ShowsAt x (clearedCells x.cfg r c n p) k hk) := by
  induction n with
  | zero =>
    intro c p _
    refine ⟨.refl _, fun k hk => ?_, fun _ k hk h => by omega⟩
    rw [if_neg (by omega)]; rfl
  | succ n ih =>
    intro c p hc
    have hd := drawn_from (x := x) (p := p) (cell := mkcell x.cfg.space p.1.fgc p.1.bgc) hr (show c < 80 by omega)
    obtain ⟨h1, h2, h3⟩ := ih (c + 1) (drawn x.cfg r c (mkcell x.cfg.space p.1.fgc p.1.bgc) p) (by omega)
    refine ⟨hd.trans h1, fun k hk => ?_, fun hw k hk h => ?_⟩
    · rw [clearedCells, h2 k hk]
      have hg := withShadow_get (t := p.1) (cell := mkcell x.cfg.space p.1.fgc p.1.bgc) hr (show c < 80 by omega) hk
      simp only [drawn, hg]
      split_ifs <;> first | rfl | omega
    · by_cases hk' : k = r * 80 + c
      · subst hk'
        exact h1.shows (hd.memory hw) _ hk (drawn_shows hr (by omega) hw)
      · exact h3 (hd.memory hw) k hk (by omega)

/-- n rows cleared. -/
theorem clearedRows_spec (n : Nat) : ∀ (r : Nat) (p : Canvas), r + n ≤ 25 →
    DrawnFrom x p (clearedRows x.cfg r n p) ∧
    (∀ k (hk : k < 2000), (clearedRows x.cfg r n p).1.shadow[k]'hk =
      if r * 80 ≤ k ∧ k < (r + n) * 80 then mkcell x.cfg.space p.1.fgc p.1.bgc else p.1.shadow[k]'hk) ∧
    (Memory.wf x.cfg p.2 = true → ∀ k (hk : k < 2000), r * 80 ≤ k ∧ k < (r + n) * 80 →
      ShowsAt x (clearedRows x.cfg r n p) k hk) := by
  induction n with
  | zero =>
    intro r p _
    refine ⟨.refl _, fun k hk => ?_, fun _ k hk h => by omega⟩
    rw [if_neg (by omega)]; rfl
  | succ n ih =>
    intro r p hr
    obtain ⟨c1, c2, c3⟩ := clearedCells_spec (x := x) (show r < 25 by omega) 80 0 p (by omega)
    obtain ⟨h1, h2, h3⟩ := ih (r + 1) (clearedCells x.cfg r 0 80 p) (by omega)
    refine ⟨c1.trans h1, fun k hk => ?_, fun hw k hk h => ?_⟩
    · rw [clearedRows, h2 k hk, c2 k hk, c1.fgc, c1.bgc]
      split_ifs <;> first | rfl | omega
    · by_cases hk' : k < (r + 1) * 80
      · exact h1.shows (c1.memory hw) _ hk (c3 hw k hk (by omega))
      · exact h3 (c1.memory hw) k hk (by omega)

/-- n cells of row r copied into the row above. -/
theorem scrolledCells_spec {r : Nat} (h0 : 1 ≤ r) (hr : r < 25) (n : Nat) : ∀ (c : Nat) (p : Canvas), (hcn : c + n ≤ 80) →
    DrawnFrom x p (scrolledCells x.cfg r c n p) ∧
    (∀ k (hk : k < 2000), (scrolledCells x.cfg r c n p).1.shadow[k]'hk =
      if h : (r - 1) * 80 + c ≤ k ∧ k < (r - 1) * 80 + c + n then p.1.shadow[k + 80]'(by omega)
      else p.1.shadow[k]'hk) ∧
    (Memory.wf x.cfg p.2 = true → ∀ k (hk : k < 2000), (r - 1) * 80 + c ≤ k ∧ k < (r - 1) * 80 + c + n →
      ShowsAt x (scrolledCells x.cfg r c n p) k hk) := by
  induction n with
  | zero =>
    intro c p _
    refine ⟨.refl _, fun k hk => ?_, fun _ k hk h => by omega⟩
    rw [dif_neg (by omega)]; rfl
  | succ n ih =>
    intro c p hc
    have hd := drawn_from (x := x) (p := p) (cell := shadowAt p.1 r c) (show r - 1 < 25 by omega)
      (show c < 80 by omega)
    obtain ⟨h1, h2, h3⟩ := ih (c + 1) (drawn x.cfg (r - 1) c (shadowAt p.1 r c) p) (by omega)
    refine ⟨hd.trans h1, fun k hk => ?_, fun hw k hk h => ?_⟩
    · rw [scrolledCells, h2 k hk]
      have hg := fun j hj => withShadow_get (t := p.1) (cell := shadowAt p.1 r c) (show r - 1 < 25 by omega)
        (show c < 80 by omega) (k := j) hj
      simp only [drawn, hg]
      split_ifs <;> first | rfl | omega | skip
      rename_i hk1 hk2 hk3
      subst hk2
      rw [shadowAt_eq hr (by omega)]
      congr 1
      omega
    · by_cases hk' : k = (r - 1) * 80 + c
      · subst hk'
        exact h1.shows (hd.memory hw) _ hk (drawn_shows (by omega) (by omega) hw)
      · exact h3 (hd.memory hw) k hk (by omega)

/-- n rows from row r on copied upwards. -/
theorem scrolledRows_spec (n : Nat) : ∀ (r : Nat) (p : Canvas), (h0 : 1 ≤ r) → (hrn : r + n ≤ 25) →
    DrawnFrom x p (scrolledRows x.cfg r n p) ∧
    (∀ k (hk : k < 2000), (scrolledRows x.cfg r n p).1.shadow[k]'hk =
      if h : (r - 1) * 80 ≤ k ∧ k < (r - 1 + n) * 80 then p.1.shadow[k + 80]'(by omega) else p.1.shadow[k]'hk) ∧
    (Memory.wf x.cfg p.2 = true → ∀ k (hk : k < 2000), (r - 1) * 80 ≤ k ∧ k < (r - 1 + n) * 80 →
      ShowsAt x (scrolledRows x.cfg r n p) k hk) := by
  induction n with
  | zero =>
    intro r p _ _
    refine ⟨.refl _, fun k hk => ?_, fun _ k hk h => by omega⟩
    rw [dif_neg (by omega)]; rfl
  | succ n ih =>
    intro r p h0 hr
    obtain ⟨c1, c2, c3⟩ := scrolledCells_spec (x := x) h0 (show r < 25 by omega) 80 0 p (by omega)
    obtain ⟨h1, h2, h3⟩ := ih (r + 1) (scrolledCells x.cfg r 0 80 p) (by omega) (by omega)
    refine ⟨c1.trans h1, fun k hk => ?_, fun hw k hk h => ?_⟩
    · rw [scrolledRows, h2 k hk]
      simp only [c2]
      split_ifs <;> first | rfl | omega
    · by_cases hk' : k < (r - 1 + 1) * 80
      · exact h1.shows (c1.memory hw) _ hk (c3 hw k hk (by omega))
      · exact h3 (c1.memory hw) k hk (by omega)

/-- The whole scroll of R84: the grid moves up by a row, the last row is blank, and the screen shows all of it. -/
theorem scrolled_spec (p : Canvas) :
    DrawnFrom x p (clearedCells x.cfg 24 0 80 (scrolledRows x.cfg 1 24 p)) ∧
    (clearedCells x.cfg 24 0 80 (scrolledRows x.cfg 1 24 p)).1.shadow =
      scrolledGrid (mkcell x.cfg.space p.1.fgc p.1.bgc) p.1.shadow ∧
    (Memory.wf x.cfg p.2 = true → ∀ k (hk : k < 2000),
      ShowsAt x (clearedCells x.cfg 24 0 80 (scrolledRows x.cfg 1 24 p)) k hk) := by
  obtain ⟨h1, h2, h3⟩ := scrolledRows_spec (x := x) 24 1 p (by omega) (by omega)
  obtain ⟨c1, c2, c3⟩ := clearedCells_spec (x := x) (show 24 < 25 by omega) 80 0 (scrolledRows x.cfg 1 24 p) (by omega)
  refine ⟨h1.trans c1, ?_, fun hw k hk => ?_⟩
  · refine Vector.ext fun k hk => ?_
    rw [c2 k hk, h2 k hk, h1.fgc, h1.bgc]
    simp only [scrolledGrid, Vector.getElem_ofFn]
    split_ifs <;> first | rfl | omega
  · by_cases hk' : k < 1920
    · exact c1.shows (h1.memory hw) k hk (h3 hw k hk (by omega))
    · exact c3 (h1.memory hw) k hk (by omega)

end Sys2Proof.Machine
end

