-- ==== Sys2Proof/Laws/Terminal.lean ====
section
/-! SUPPORT. What each Terminal operation makes of a state, whatever falls between its steps. -/

namespace Sys2Proof.Machine

variable {E : Prop} {K : State → State → Prop} {s u x : State} {t : Terminal}

/-- What a Terminal operation keeps of a canvas. -/
structure RedrawnFrom (x : State) (p q : Canvas) : Prop where
  fgc : q.1.fgc = p.1.fgc
  bgc : q.1.bgc = p.1.bgc
  outside : ∀ a, ¬ inWindow x.cfg a → Memory.read x.cfg q.2 a = Memory.read x.cfg p.2 a
  memory : Memory.wf x.cfg p.2 = true → Memory.wf x.cfg q.2 = true
  shows : Memory.wf x.cfg p.2 = true → ∀ k (hk : k < 2000), ShowsAt x p k hk → ShowsAt x q k hk

theorem RedrawnFrom.trans {p q r : Canvas} (h : RedrawnFrom x p q) (k : RedrawnFrom x q r) : RedrawnFrom x p r :=
  ⟨k.fgc.trans h.fgc, k.bgc.trans h.bgc, fun a ha => (k.outside a ha).trans (h.outside a ha),
   fun hw => k.memory (h.memory hw), fun hw i hi hs => k.shows (h.memory hw) i hi (h.shows hw i hi hs)⟩

theorem DrawnFrom.redrawn {p q : Canvas} (h : DrawnFrom x p q) : RedrawnFrom x p q :=
  ⟨h.fgc, h.bgc, h.outside, h.memory, h.shows⟩

/-- The cursor moves, nothing is drawn. -/
theorem redrawn_move {p : Canvas} (r : Fin 25) (c : Nat) :
    RedrawnFrom x p ({ p.1 with row := r, col := c }, p.2) :=
  ⟨rfl, rfl, fun _ _ => rfl, id, fun _ _ _ => id⟩

/-! ### TERM.ADDLINE -/

/-- The cursor at the start of its row. -/
def returned (q : Canvas) : Canvas := ({ q.1 with col := 0 }, q.2)

theorem carriageReturn_ends (hB : Between E K) {q : Canvas} (h : K (painted x q) u) :
    K (painted x (returned q)) (carriageReturn u) := by
  have ha := hB.agree h
  simp only [carriageReturn, ha.2.2.2, painted_term, Option.map_some]
  exact hB.place h rfl rfl

/-- TERM.ADDLINE, as a function of the canvas. -/
def lineDrawn (cfg : Config) (p : Canvas) : Canvas :=
  if p.1.row ≠ 24 then ({ p.1 with row := p.1.row + 1, col := 0 }, p.2)
  else returned (clearedCells cfg 24 0 80 (scrolledRows cfg 1 24 p))

theorem lineDrawn_spec (p : Canvas) :
    RedrawnFrom x p (lineDrawn x.cfg p) ∧
    (lineDrawn x.cfg p).1 = lineAdded (mkcell x.cfg.space p.1.fgc p.1.bgc) p.1 ∧
    (p.1.row = 24 → Memory.wf x.cfg p.2 = true → ∀ k (hk : k < 2000), ShowsAt x (lineDrawn x.cfg p) k hk) := by
  unfold lineDrawn lineAdded
  split
  · rename_i h
    have hr : p.1.row.val + 1 < 25 := by
      have := p.1.row.isLt
      have : p.1.row.val ≠ 24 := fun hh => h (Fin.ext hh)
      omega
    refine ⟨redrawn_move _ _, ?_, fun h24 => absurd h24 h⟩
    rw [dif_pos hr]
    have : p.1.row + 1 = ⟨p.1.row.val + 1, hr⟩ := by
      apply Fin.ext
      rw [Fin.val_add_one_of_lt' (by simpa using hr)]
    rw [this]
  · rename_i h
    have h24 : p.1.row = 24 := by simpa using h
    obtain ⟨h1, h2, hs⟩ := scrolled_spec (x := x) p
    generalize clearedCells x.cfg 24 0 80 (scrolledRows x.cfg 1 24 p) = q at h1 h2 hs ⊢
    have hm : RedrawnFrom x q (returned q) := redrawn_move _ _
    refine ⟨h1.redrawn.trans hm, ?_, fun _ hw k hk => hm.shows (h1.memory hw) k hk (hs hw k hk)⟩
    rw [dif_neg (by rw [h24]; decide)]
    obtain ⟨⟨row, col, fgc, bgc, shadow⟩, m⟩ := q
    obtain ⟨h3, h4, h5, h6, -, -, -⟩ := h1
    clear hs hm
    simp_all [returned]

theorem addLine_ends (hB : Between E K) {p : Canvas} (h : K (painted x p) u) :
    Ends E (K (painted x (lineDrawn x.cfg p))) (addLine u) := by
  have ha := hB.agree h
  simp only [addLine, withTerminal, ha.2.2.2, painted_term]
  unfold lineDrawn
  split
  · rename_i hr
    simp only [ends_next, carriageReturn, State.setTerm_term, Option.map_some, State.setTerm_setTerm]
    exact hB.place h rfl rfl
  · refine Ends.andThen (P := K (painted x (clearedCells x.cfg 24 0 80 (scrolledRows x.cfg 1 24 p)))) ?_ fun v hv => ?_
    · exact (scrollRows_ends hB 24 1 p u (by omega) h).andThen fun v hv =>
        clearCells_ends hB (by omega) 80 0 _ v (by omega) hv
    · exact carriageReturn_ends hB hv

/-! ### TERM.PUTCHAR -/

/-- TERM.PUTCHAR, as a function of the canvas. -/
def charDrawn (cfg : Config) (ch : Byte) (p : Canvas) : Canvas :=
  if ch = cfg.newline then lineDrawn cfg p
  else
    let q := drawn cfg p.1.row.val p.1.col (mkcell ch p.1.fgc p.1.bgc) p
    if 79 < p.1.col + 1 then lineDrawn cfg ({ q.1 with col := p.1.col + 1 }, q.2)
    else ({ q.1 with col := p.1.col + 1 }, q.2)

/-- The column TERM.ADDLINE starts from is lost (R84). -/
theorem lineAdded_col (bl : GlyphCell) (c : Nat) : lineAdded bl { t with col := c } = lineAdded bl t := by
  unfold lineAdded
  split <;> rfl

theorem charDrawn_spec (ch : Byte) (p : Canvas) (hc : p.1.col < 80) :
    RedrawnFrom x p (charDrawn x.cfg ch p) ∧ (charDrawn x.cfg ch p).1 = charPut x.cfg ch p.1 := by
  unfold charDrawn charPut
  split
  · exact ⟨(lineDrawn_spec p).1, (lineDrawn_spec p).2.1⟩
  · have hd := drawn_from (x := x) (p := p) (cell := mkcell ch p.1.fgc p.1.bgc) p.1.row.isLt hc
    have hg : (drawn x.cfg p.1.row.val p.1.col (mkcell ch p.1.fgc p.1.bgc) p).1 =
        { p.1 with shadow := p.1.shadow.setIfInBounds (p.1.row.val * 80 + p.1.col) (mkcell ch p.1.fgc p.1.bgc) } := by
      have hv := shadowIndex_val p.1.row.isLt hc
      have hlt : p.1.row.val * 80 + p.1.col < 2000 := by
        have := p.1.row.isLt; omega
      simp only [drawn, withShadow, hv]
      congr 1
      refine Vector.ext fun k hk => ?_
      simp [Vector.getElem_set, Vector.getElem_setIfInBounds]
    have hm := hd.redrawn.trans (redrawn_move p.1.row (p.1.col + 1))
    split
    · rename_i hcol
      obtain ⟨h1, h2, -⟩ := lineDrawn_spec (x := x)
        ({ (drawn x.cfg p.1.row.val p.1.col (mkcell ch p.1.fgc p.1.bgc) p).1 with col := p.1.col + 1 },
          (drawn x.cfg p.1.row.val p.1.col (mkcell ch p.1.fgc p.1.bgc) p).2)
      refine ⟨hm.trans h1, ?_⟩
      rw [h2, if_neg (by omega)]
      simp only [hg]
      exact lineAdded_col (t := { p.1 with
        shadow := p.1.shadow.setIfInBounds (p.1.row.val * 80 + p.1.col) (mkcell ch p.1.fgc p.1.bgc) }) _ _
    · rename_i hcol
      refine ⟨hm, ?_⟩
      rw [if_pos (by omega)]
      simp only [hg]

/-- TERM.ADDLINE leaves column 0. -/
theorem lineAdded_col_lt (bl : GlyphCell) (t : Terminal) : (lineAdded bl t).col < 80 := by
  unfold lineAdded
  split <;> simp

/-- TERM.PUTCHAR leaves a column inside the grid (R35 b, R83). -/
theorem charPut_col_lt (cfg : Config) (ch : Byte) (t : Terminal) : (charPut cfg ch t).col < 80 := by
  unfold charPut
  split
  · exact lineAdded_col_lt _ _
  · dsimp only
    split
    · assumption
    · exact lineAdded_col_lt _ _

/-- The state TERM.PUTCHAR leaves where nothing falls into it. -/
def typed (ch : Byte) (s : State) : State :=
  match s.term with
  | some t =>
    let p := charDrawn s.cfg ch (t, s.mem)
    cursorSet p.1.col p.1.row.val (painted s p)
  | none => s

theorem syncCursor_ends (hB : Between E K) {p : Canvas} (h : K (painted x p) u) :
    Ends E (K (cursorSet p.1.col p.1.row.val (painted x p))) (syncCursor u) := by
  have ha := hB.agree h
  simp only [syncCursor, withTerminal, ha.2.2.2, painted_term]
  exact setCursor_ends hB h _ _

theorem putChar_ends (hB : Between E K) (ch : Byte) (ht : s.term = some t) (hc : t.col < 80) (h : K s u) :
    Ends E (K (typed ch s)) (putChar ch u) := by
  have hp : K (painted s (t, s.mem)) u := by rw [painted_self ht]; exact h
  have ha := hB.agree hp
  have hcfg : u.cfg = s.cfg := ha.1
  simp only [putChar, withTerminal, ha.2.2.2, painted_term, typed, ht, charDrawn, hcfg]
  split
  · exact (addLine_ends hB hp).andThen fun v hv => syncCursor_ends hB hv
  · refine hB.thenStep (showCell_ends hB t.row.isLt hc hp) fun v hv => ?_
    have hav := hB.agree hv
    refine Ends.andThen (P := K (painted s _)) ?_ fun w hw => syncCursor_ends hB hw
    simp only [advanceColumn, withTerminal, hav.2.2.2, painted_term]
    have hcol : (drawn s.cfg t.row.val t.col (mkcell ch t.fgc t.bgc) (t, s.mem)).1.col = t.col := rfl
    rw [hcol]
    have hpl := hB.place (t := { (drawn s.cfg t.row.val t.col (mkcell ch t.fgc t.bgc) (t, s.mem)).1 with
      col := t.col + 1 }) hv rfl rfl
    split
    · exact addLine_ends hB hpl
    · exact hpl

/-- Everything TERM.PUTCHAR makes of a state (R83). -/
theorem typed_spec (ch : Byte) (ht : s.term = some t) (hc : t.col < 80) : ∃ m,
    typed ch s = cursorSet (charPut s.cfg ch t).col (charPut s.cfg ch t).row.val
      (painted s (charPut s.cfg ch t, m)) ∧ RedrawnFrom s (t, s.mem) (charPut s.cfg ch t, m) := by
  obtain ⟨h1, h2⟩ := charDrawn_spec (x := s) ch (t, s.mem) hc
  refine ⟨(charDrawn s.cfg ch (t, s.mem)).2, ?_, ?_⟩
  · simp only [typed, ht]
    rw [← h2]
  · rw [← h2]; exact h1

theorem typed_term (ch : Byte) (ht : s.term = some t) (hc : t.col < 80) :
    (typed ch s).term = some (charPut s.cfg ch t) := by
  obtain ⟨m, h, -⟩ := typed_spec ch ht hc
  rw [h]
  simp [cursorSet]

theorem typed_cfg (ch : Byte) : (typed ch s).cfg = s.cfg := by
  unfold typed
  split <;> simp [cursorSet]

/-- What an earlier operation returned does not matter. -/
theorem typed_setResult (ch : Byte) (r : Result) : typed ch (s.setResult r) = (typed ch s).setResult r := by
  unfold typed
  simp only [State.setResult_term]
  split <;> rfl

/-- What TERM.PUTCHAR stores where it does not scroll (R83): nothing for NEWLINE, one cell for a character. -/
theorem typed_stored (ch : Byte) (ht : s.term = some t) :
    (ch = s.cfg.newline → t.row ≠ 24 → (typed ch s).mem = s.mem) ∧
    (ch ≠ s.cfg.newline → t.row ≠ 24 ∨ t.col + 1 < 80 →
      (typed ch s).mem = (storeCell (t.row.val * 80 + t.col) (mkcell ch t.fgc t.bgc) s).mem) := by
  have hm : (typed ch s).mem = (charDrawn s.cfg ch (t, s.mem)).2 := by
    unfold typed
    simp only [ht]
    rfl
  rw [hm]
  refine ⟨fun hn hr => ?_, fun hn hr => ?_⟩
  · rw [charDrawn, if_pos hn, lineDrawn, if_pos hr]
  · rw [charDrawn, if_neg hn]
    dsimp only
    split
    · rw [lineDrawn, if_pos (by exact hr.resolve_right (by omega))]
      rfl
    · rfl

/-! ### TERM.WRITE -/

/-- The state TERM.WRITE leaves where nothing falls into it. -/
def typedAll (text : List Byte) (s : State) : State := text.foldl (fun s ch => typed ch s) s

theorem typedAll_setResult (text : List Byte) (r : Result) :
    ∀ s, typedAll text (s.setResult r) = (typedAll text s).setResult r := by
  induction text with
  | nil => exact fun _ => rfl
  | cons ch rest ih => exact fun s => (congrArg (typedAll rest) (typed_setResult ch r)).trans (ih (typed ch s))

theorem writeText_ends (hB : Between E K) (text : List Byte) : ∀ (s u : State) (t : Terminal),
    s.term = some t → t.col < 80 → K s u → Ends E (K (typedAll text s)) (writeText text u) := by
  induction text with
  | nil => exact fun s u t _ _ h => h
  | cons ch rest ih =>
    intro s u t ht hc h
    exact hB.thenStep (putChar_ends hB ch ht hc h) fun v hv =>
      ih _ v _ (typed_term ch ht hc) (charPut_col_lt s.cfg ch t) hv

/-! ### TERM.INIT -/

/-- The Terminal TERM.INIT leaves (R81). -/
def blankTerminal (cfg : Config) : Terminal := ⟨0, 0, fgDefault, bgDefault, Vector.replicate 2000 (blank cfg)⟩

/-- The cursor at the top left. -/
def homeOf (q : Canvas) : Canvas := ({ q.1 with row := 0, col := 0 }, q.2)

theorem homeCursor_ends (hB : Between E K) {q : Canvas} (h : K (painted x q) u) :
    K (painted x (homeOf q)) (homeCursor u) := by
  have ha := hB.agree h
  simp only [homeCursor, ha.2.2.2, painted_term, Option.map_some]
  exact hB.place h rfl rfl

/-- The canvas TERM.INIT leaves. -/
def homed (s : State) : Canvas := homeOf (clearedRows s.cfg 0 25 (freshTerminal s, s.mem))

theorem freshTerminal_colours (s : State) : (freshTerminal s).fgc = fgDefault ∧ (freshTerminal s).bgc = bgDefault := by
  unfold freshTerminal
  split <;> exact ⟨rfl, rfl⟩

theorem construct_ends (hB : Between E K) (h : K s u) : Ends E (K (painted s (homed s))) (construct u) := by
  have ha := hB.agree h
  have hf : freshTerminal u = freshTerminal s := by simp only [freshTerminal, ha.1, ha.2.2.2]
  have hk : K (painted s (freshTerminal s, s.mem)) (u.setTerm (some (freshTerminal u))) := by
    have := hB.term (t := freshTerminal s) h (.inl (freshTerminal_colours s))
    rw [hf]
    exact this
  exact (clearRows_ends hB 25 0 _ _ (by omega) hk).andThen fun v hv => homeCursor_ends hB hv

/-- Everything TERM.INIT makes of a canvas: a blank grid, shown cell for cell (R81). -/
theorem homed_spec (s : State) :
    (homed s).1 = blankTerminal s.cfg ∧
    (∀ a, ¬ inWindow s.cfg a → Memory.read s.cfg (homed s).2 a = Memory.read s.cfg s.mem a) ∧
    (Memory.wf s.cfg s.mem = true → Memory.wf s.cfg (homed s).2 = true ∧
      ∀ k (hk : k < 2000), ShowsAt s (homed s) k hk) := by
  obtain ⟨h1, h2, h3⟩ := clearedRows_spec (x := s) 25 0 (freshTerminal s, s.mem) (by omega)
  obtain ⟨hf, hb⟩ := freshTerminal_colours s
  have hs : (clearedRows s.cfg 0 25 (freshTerminal s, s.mem)).1.shadow = Vector.replicate 2000 (blank s.cfg) := by
    refine Vector.ext fun k hk => ?_
    rw [h2 k hk, if_pos (by omega), Vector.getElem_replicate, hf, hb]
    rfl
  unfold homed
  generalize clearedRows s.cfg 0 25 (freshTerminal s, s.mem) = q at h1 h3 hs ⊢
  refine ⟨?_, h1.outside, fun hw => ⟨h1.memory hw, fun k hk => h3 hw k hk (by omega)⟩⟩
  simp only [homeOf, blankTerminal, hs, h1.fgc, h1.bgc, hf, hb]

/-! ### The grid and the screen -/

/-- Mirrored, on a canvas. -/
theorem mirrored_painted {p : Canvas} : Mirrored (painted x p) ↔ ∀ k (hk : k < 2000), ShowsAt x p k hk := by
  constructor
  · exact fun h k hk => h p.1 rfl ⟨k, hk⟩
  · rintro h t ht ⟨k, hk⟩
    cases Option.some.inj (ht.symm.trans (painted_term (x := x) p)) with
    | refl => exact h k hk

theorem mirrored_congr (hc : u.cfg = s.cfg) (hm : u.mem = s.mem) (ht : u.term = s.term) : Mirrored u ↔ Mirrored s := by
  unfold Mirrored
  rw [ht]
  refine forall_congr' fun t => imp_congr_right fun _ => forall_congr' fun off => ?_
  rw [vram_congr hc hm]

theorem ForegroundKept.mirrored (h : ForegroundKept s u) : Mirrored u ↔ Mirrored s := mirrored_congr h.cfg h.mem h.term

/-- What a Terminal operation draws it shows. -/
theorem mirrored_redrawn {q : Canvas} (ht : s.term = some t) (hr : RedrawnFrom s (t, s.mem) q)
    (hw : Memory.wf s.cfg s.mem = true) (hm : Mirrored s) : Mirrored (painted s q) := by
  have hp : Mirrored (painted s (t, s.mem)) := by rw [painted_self ht]; exact hm
  exact mirrored_painted.2 fun k hk => hr.shows hw k hk (mirrored_painted.1 hp k hk)

/-- TERM.PUTCHAR keeps grid and screen the same (R35 a, R83). -/
theorem mirrored_typed (ch : Byte) (ht : s.term = some t) (hc : t.col < 80) (hw : Memory.wf s.cfg s.mem = true)
    (hm : Mirrored s) : Mirrored (typed ch s) := by
  obtain ⟨m, h1, h2⟩ := typed_spec ch ht hc
  rw [h1]
  exact (mirrored_congr (s := painted s (charPut s.cfg ch t, m)) rfl rfl rfl).2 (mirrored_redrawn ht h2 hw hm)

/-- Where TERM.PUTCHAR scrolls the screen shows the new grid, whatever it showed before (R84, R148). -/
theorem mirrored_typed_scroll (ch : Byte) (ht : s.term = some t) (hc : t.col < 80) (hr : t.row = 24)
    (hs : ch = s.cfg.newline ∨ t.col + 1 = 80) (hw : Memory.wf s.cfg s.mem = true) : Mirrored (typed ch s) := by
  have hk : ∀ k (hk : k < 2000), ShowsAt s (charDrawn s.cfg ch (t, s.mem)) k hk := by
    unfold charDrawn
    split
    · exact (lineDrawn_spec (x := s) (t, s.mem)).2.2 hr hw
    · rename_i hn
      dsimp only
      rw [if_pos (by have := hs.resolve_left hn; omega)]
      have hd := drawn_from (x := s) (p := (t, s.mem)) (cell := mkcell ch t.fgc t.bgc) t.row.isLt hc
      exact (lineDrawn_spec (x := s) ({ (drawn s.cfg t.row.val t.col (mkcell ch t.fgc t.bgc) (t, s.mem)).1 with
        col := t.col + 1 }, (drawn s.cfg t.row.val t.col (mkcell ch t.fgc t.bgc) (t, s.mem)).2)).2.2 hr (hd.memory hw)
  have hm := mirrored_painted.2 hk
  unfold typed
  simp only [ht]
  exact (mirrored_congr (s := painted s (charDrawn s.cfg ch (t, s.mem))) rfl rfl rfl).2 hm

theorem typed_memory (ch : Byte) (ht : s.term = some t) (hc : t.col < 80) (hw : Memory.wf s.cfg s.mem = true) :
    Memory.wf s.cfg (typed ch s).mem = true := by
  obtain ⟨m, h1, h2⟩ := typed_spec ch ht hc
  rw [h1]
  exact h2.memory hw

/-- TERM.PUTCHAR that answered had a Terminal. -/
theorem putChar_term {ch : Byte} (h : putChar ch s = .next u) : ∃ t, s.term = some t := by
  unfold putChar withTerminal at h
  split at h
  · rename_i t ht; exact ⟨t, ht⟩
  · simp at h

theorem addLine_term (h : addLine s = .next u) : ∃ t, s.term = some t := by
  unfold addLine withTerminal at h
  split at h
  · rename_i t ht; exact ⟨t, ht⟩
  · simp at h

/-- A text typed character by character: what it makes of the state (R82). -/
structure TypedAll (text : List Byte) (s : State) (t : Terminal) : Prop where
  shape : ∃ m c l, l.length = 4 * text.length ∧ typedAll text s =
    { s with mem := m, crtc := c, iotrace := s.iotrace ++ l,
             term := some (text.foldl (fun t ch => charPut s.cfg ch t) t) }
  empty : text = [] → typedAll text s = s
  cursor : text ≠ [] → CursorSynced (typedAll text s)
  memory : Memory.wf s.cfg s.mem = true → Memory.wf s.cfg (typedAll text s).mem = true
  shows : Memory.wf s.cfg s.mem = true → Mirrored s → Mirrored (typedAll text s)
  outside : ∀ a, ¬ inWindow s.cfg a → Memory.read s.cfg (typedAll text s).mem a = Memory.read s.cfg s.mem a

theorem typedAll_spec (text : List Byte) : ∀ (s : State) (t : Terminal), s.term = some t → t.col < 80 →
    TypedAll text s t := by
  induction text with
  | nil =>
    intro s t ht _
    refine ⟨⟨s.mem, s.crtc, [], rfl, ?_⟩, fun _ => rfl, fun h => absurd rfl h, id, fun _ => id, fun _ _ => rfl⟩
    simp [typedAll, ← ht]
  | cons ch rest ih =>
    intro s t ht hc
    obtain ⟨m, h1, h2⟩ := typed_spec ch ht hc
    have hi := ih (typed ch s) _ (typed_term ch ht hc) (charPut_col_lt s.cfg ch t)
    have hcfg : (typed ch s).cfg = s.cfg := typed_cfg ch
    have hmem : (typed ch s).mem = m := by rw [h1]; rfl
    have htr : (typed ch s).iotrace =
        s.iotrace ++ cursorTrace s.cfg (charPut s.cfg ch t).col (charPut s.cfg ch t).row.val := by rw [h1]; rfl
    obtain ⟨⟨m', cr, l, e2, e1⟩, e3, e4, e5, e6, e7⟩ := hi
    rw [hcfg] at e1 e5 e6 e7
    refine ⟨⟨m', cr, cursorTrace s.cfg (charPut s.cfg ch t).col (charPut s.cfg ch t).row.val ++ l, ?_, ?_⟩, by simp, ?_,
      fun hw => e5 (typed_memory ch ht hc hw), fun hw hm => e6 (typed_memory ch ht hc hw) (mirrored_typed ch ht hc hw hm),
      fun a ha => (e7 a ha).trans (by rw [hmem]; exact h2.outside a ha)⟩
    · simp [cursorTrace, e2]; omega
    · show typedAll rest (typed ch s) = _
      rw [e1, htr, h1, List.append_assoc]
      rfl
    · intro _
      by_cases hr : rest = []
      · subst hr
        have hone : typedAll [ch] s = typed ch s := rfl
        rw [hone]
        intro t' ht'
        rw [typed_term ch ht hc] at ht'
        cases ht'
        rw [h1]
        exact ⟨rfl, rfl⟩
      · exact e4 hr

theorem typedAll_cfg (text : List Byte) : ∀ s, (typedAll text s).cfg = s.cfg := by
  induction text with
  | nil => exact fun _ => rfl
  | cons a l ih => exact fun s => (ih (typed a s)).trans (typed_cfg a)

/-! ### Where a character leaves the cursor -/

theorem charPut_position {cfg : Config} {ch : Byte} (h : ch ≠ cfg.newline) :
    (t.col + 1 < 80 → (charPut cfg ch t).row = t.row ∧ (charPut cfg ch t).col = t.col + 1) ∧
    (t.col = 79 → (charPut cfg ch t).col = 0 ∧
      (∀ hr : t.row.val + 1 < 25, (charPut cfg ch t).row = ⟨t.row.val + 1, hr⟩) ∧
      (t.row.val = 24 → (charPut cfg ch t).row = t.row)) := by
  constructor
  · intro hc; simp [charPut, h, hc]
  · intro hc
    refine ⟨?_, ?_, ?_⟩ <;> intros <;> simp_all [charPut, lineAdded]
    split <;> rfl

/-- n characters move the cursor n cells on (R85 d). -/
theorem charPut_positions {cfg : Config} (text : List Byte) : ∀ t : Terminal, (∀ ch ∈ text, ch ≠ cfg.newline) →
    t.col < 80 → t.row.val * 80 + t.col + text.length < 2000 →
    (text.foldl (fun t ch => charPut cfg ch t) t).row.val * 80 +
      (text.foldl (fun t ch => charPut cfg ch t) t).col = t.row.val * 80 + t.col + text.length := by
  induction text with
  | nil => exact fun t _ _ _ => rfl
  | cons ch rest ih =>
    intro t hn hcol hl
    simp only [List.length_cons] at hl
    have hp := charPut_position (t := t) (hn ch (by simp))
    have step : (charPut cfg ch t).row.val * 80 + (charPut cfg ch t).col = t.row.val * 80 + t.col + 1 := by
      by_cases hc : t.col + 1 < 80
      · obtain ⟨a, b⟩ := hp.1 hc; rw [a, b]; omega
      · obtain ⟨a, b, -⟩ := hp.2 (by omega)
        rw [a, b (by omega)]; simp only; omega
    have := ih (charPut cfg ch t) (fun c hc => hn c (by simp [hc])) (charPut_col_lt cfg ch t) (by omega)
    simp only [List.foldl_cons, List.length_cons]
    rw [this]; omega

end Sys2Proof.Machine
end

