-- ==== Sys2Proof/Laws/Invariant.lean ====
section
/-! SUPPORT. Each piece an operation is made of keeps the machine's invariant. -/

namespace Sys2Proof.Machine

variable {k : Prop} {s t u : State} {b : Byte} {c : Chip} {q : Pic} {l : Line} {within : List EnvAct}

/-- What holds of a run at every boundary, inside operations too: soundness, and where k says so a ring that is filled in
order. -/
structure Held (k : Prop) (s : State) : Prop extends Sound s where
  queue : k → QueueSound s

theorem Held.inv (h : Held k s) (hc : CursorInGrid s) : Inv s := ⟨h.toSound, hc⟩

/-- The same Terminal, the same column. -/
theorem CursorInGrid.congr (h : CursorInGrid s) (ht : t.term = s.term) : CursorInGrid t := by
  unfold CursorInGrid
  rw [ht]
  exact h

theorem Held.storeCell (h : Held k s) (off : Nat) (cell : GlyphCell) : Held k (storeCell off cell s) :=
  { h with memory := storeCell_wf h.memory }

theorem Held.writeBytes (h : Held k s) (a : Nat) (bs : List Byte) :
    Held k (s.setMem (Memory.writeBytes s.cfg a bs s.mem)) :=
  { h with memory := Memory.writeBytes_wf h.memory }

theorem Held.setCrtc (h : Held k s) (v : Crtc) : Held k (s.setCrtc v) := { h with }
theorem Held.setIotrace (h : Held k s) (v : List IoEntry) : Held k (s.setIotrace v) := { h with }
theorem Held.setSched (h : Held k s) (v : List Act) : Held k (s.setSched v) := { h with }
theorem Held.setKeys (h : Held k s) (v : List Byte) : Held k (s.setKeys v) := { h with }
theorem Held.setKbd (h : Held k s) (v : KbdLatch) : Held k (s.setKbd v) := { h with }
theorem Held.setHalted (h : Held k s) (v : Bool) : Held k (s.setHalted v) := { h with }
theorem Held.setResult (h : Held k s) (v : Result) : Held k (s.setResult v) := { h with }
theorem Held.setStream (h : Held k s) (v : List Byte) : Held k (s.setStream v) := { h with }
theorem Held.setFgpos (h : Held k s) (v : Nat) : Held k (s.setFgpos v) := { h with }

theorem Held.logIo (h : Held k s) (e : IoEntry) : Held k (logIo e s) := h.setIotrace _

theorem Held.setTerm (h : Held k s) {t : Terminal} (hc : SameColours s t) : Held k (s.setTerm (some t)) :=
  { h with
    colours := by
      intro t' ht
      cases Option.some.inj ht
      rcases hc with hc | ⟨t₀, ht₀, hf, hb⟩
      · exact hc
      · have := h.colours t₀ ht₀
        exact ⟨hf.trans this.1, hb.trans this.2⟩ }

theorem Held.loadTable (h : Held k s) : Held k (loadTable s) :=
  { h with
    enabled := fun hi => by
      have := h.enabled hi
      simp only [setupDone, Bool.and_eq_true] at this
      simp [setupDone, Machine.loadTable, this]
    table := fun t ht => (Option.some.inj ht).symm }

theorem Held.enable (h : Held k s) (hs : setupDone s = true) : Held k (s.setIntFlag true) := { h with enabled := fun _ => hs }

theorem Held.disable (h : Held k s) : Held k (s.setIntFlag false) := { h with enabled := fun hf => Bool.noConfusion hf }

theorem Held.ringPut (h : Held k s) (e : KeyEvent) : Held k (ringPut e s) := { h with queue := fun hk => (h.queue hk).put e }

theorem Held.read (h : Held k s) (hs : (slot s s.rd).isSome = true) : Held k (s.setRd (advance s.rd)) :=
  { h with queue := fun hk => (h.queue hk).read hs }

/-- A chip's reaction keeps the invariant. -/
theorem Held.react (h : Held k s) (hq : ChipReacts s.intFlag (pic s c) q) : Held k (setPic c q s) := by
  have hset : ∀ hi : s.intFlag = true, setupDone (setPic c q s) = true := by
    intro hi
    have hd := h.enabled hi
    simp only [setupDone, Bool.and_eq_true] at hd
    obtain ⟨⟨⟨⟨h1, h2⟩, h3⟩, h4⟩, h5⟩ := hd
    cases c
    · obtain ⟨r1, -, r3⟩ := hq.ready hi h.master h2
      simp [setupDone, h1, h3, h5, r1, r3 h4]
    · obtain ⟨r1, -, r3⟩ := hq.ready hi h.slave h3
      simp [setupDone, h1, h2, h4, r1, r3 h5]
  cases c with
  | master =>
    exact { h with
      master := hq.sound h.master
      enabled := hset
      service := ⟨hq.insvc h.service.1, h.service.2⟩ }
  | slave =>
    exact { h with
      slave := hq.sound h.slave
      enabled := hset
      service := ⟨h.service.1, hq.insvc h.service.2.1, hq.irr.trans h.service.2.2⟩ }

/-- A port write that is accepted keeps the invariant. -/
theorem Held.portWrite {p : Port} (h : Held k s) (hw : portWrite p b s = .next t) : Held k t := by
  rcases portWrite_reacts hw with ⟨v, rfl⟩ | ⟨c, q, rfl, hq⟩
  · exact (h.logIo _).setCrtc v
  · exact (h.logIo _).react (by rw [pic_logIo]; exact hq)

/-- The environment's actions keep the invariant. -/
theorem Held.envAct (h : Held k s) (e : EnvAct) : Held k (envAct e s) := by
  obtain ⟨x, k, ks, he⟩ := envAct_shape e s
  rw [he]
  exact { h with
    master := ⟨h.master.configured, h.master.afterBase, h.master.afterWiring, h.master.masked⟩
    service := h.service }

theorem deliverable_some (h : deliverable s = some l) :
    s.intFlag = true ∧ s.ctx = .fg ∧ s.fault = none ∧ requests s.picM l = true := by
  unfold deliverable at h
  split at h
  · rename_i hc
    simp only [Bool.and_eq_true, decide_eq_true_eq, Option.isNone_iff_eq_none] at hc
    exact ⟨hc.1.1, hc.1.2, hc.2, List.find?_some h⟩
  · simp at h

/-- An interrupt served keeps the invariant. -/
theorem Held.interrupt (h : Held k s) (hd : deliverable s = some l) (b : Byte) (within : List EnvAct) :
    Held k (interruptResult l b within s) := by
  have hf := interruptResult_kept (l := l) (b := b) (within := within) (s := s)
  have hs := interruptResult_served l b within s
  have hr := hs.ring
  have hset := h.enabled (deliverable_some hd).1
  generalize interruptResult l b within s = t at *
  refine ⟨⟨?_, ?_, hs.ctx, hf.work.trans h.noWork, ?_, ?_, ?_, ?_, ?_, ?_, ?_⟩, ?_⟩
  · rw [hf.cfg]; exact h.config
  · rw [hf.cfg, hf.mem]; exact h.memory
  · rw [hf.fault, hf.refusal]; exact h.running
  · rw [hs.picM]
    exact ⟨h.master.configured, h.master.afterBase, h.master.afterWiring, h.master.masked⟩
  · rw [hs.picS]
    exact ⟨h.slave.configured, h.slave.afterBase, h.slave.afterWiring, h.slave.masked⟩
  · intro _
    simp only [setupDone, hf.idtr, hs.picM, hs.picS] at hset ⊢
    exact hset
  · rw [hs.picM, hs.picS]
    obtain ⟨s1, s2, s3⟩ := h.service
    refine ⟨?_, ?_, s3⟩
    · show acknowledge (setBit s.picM.insvc l) = 0
      rw [s1]; exact acknowledge_setBit l
    · show acknowledge s.picS.insvc = 0
      rw [s2]; exact acknowledge_zero
  · intro tr htr
    rw [hf.cfg]
    exact h.table tr (by rw [← hf.idtr]; exact htr)
  · rw [hf.term]; exact h.colours
  · exact fun hk => ((h.queue hk).put _).congr hr hf.rd hs.wr

/-- deliver keeps the invariant. -/
theorem Held.deliver (h : Held k s) (hd : deliver within s = .next t) : Held k t := by
  obtain ⟨-, rfl⟩ | ⟨l, b, hl, rfl⟩ := deliver_next h.config hd
  · exact h
  · exact h.interrupt hl b within

/-- Whatever falls on a boundary keeps the invariant. -/
theorem Held.runActs {acts : List Act} (h : Held k s) (hr : runActs acts s = .next t) : Held k t := by
  induction acts generalizing s with
  | nil => cases hr; exact h.setSched _
  | cons a rest ih =>
    cases a with
    | go => cases hr; exact h.setSched _
    | env e => exact ih (h.envAct e) hr
    | deliver within =>
      obtain ⟨u, hu, ht⟩ := andThen_eq_next.1 hr
      exact ih ((h.setSched rest).deliver hu) ht

theorem Held.boundary (h : Held k s) (hb : boundary s = .next t) : Held k t := h.runActs hb

/-- The comparison that carries the invariant along. -/
theorem between_held : Between True fun x u => ForegroundKept x u ∧ Held k u where
  config h := by rw [← h.1.cfg]; exact h.2.config
  agree h := ⟨h.1.cfg, h.1.mem, h.1.crtc, h.1.term⟩
  bound h := ends_true.2 fun _ ha => ⟨h.1.trans (boundary_kept h.2.config ha), h.2.boundary ha⟩
  store h ho := ⟨(between_any.store ⟨h.1, by rw [← h.1.cfg]; exact h.2.config⟩ ho).1, h.2.storeCell _ _⟩
  term {x u t} h ht := by
    refine ⟨(between_any.term ⟨h.1, by rw [← h.1.cfg]; exact h.2.config⟩ ht).1, h.2.setTerm ?_⟩
    unfold SameColours at ht ⊢
    rw [h.1.term]
    exact ht
  crtc h := ⟨(between_any.crtc ⟨h.1, by rw [← h.1.cfg]; exact h.2.config⟩).1, h.2.setCrtc _⟩
  log h := ⟨(between_any.log ⟨h.1, by rw [← h.1.cfg]; exact h.2.config⟩).1, h.2.setIotrace _⟩

/-! ### Whole pieces of operations -/

/-- What every piece of an operation keeps: what holds at every boundary, the column's bound and the parameters. -/
structure Keeps (k : Prop) (s t : State) : Prop where
  held : Held k t
  cursor : CursorInGrid t
  cfg : t.cfg = s.cfg

theorem Keeps.trans {x : State} (h : Keeps k s t) (g : Keeps k t x) : Keeps k s x := ⟨g.held, g.cursor, g.cfg.trans h.cfg⟩

theorem Keeps.finish {r : Result} {o : Out State} (h : ∀ v, o = .next v → Keeps k s v) (e : finish r o = .next t) :
    Keeps k s t := by
  obtain ⟨v, hv, rfl⟩ := finish_eq_next.1 e
  exact ⟨(h v hv).held.setResult r, (h v hv).cursor, (h v hv).cfg⟩

/-- What keeps the foreground's own state keeps the column. -/
theorem Keeps.of_kept (h : Held k t) (hc : CursorInGrid s) (hk : ForegroundKept s t) : Keeps k s t :=
  ⟨h, hc.congr hk.term, hk.cfg⟩

theorem boundary_keeps (h : Held k s) (hc : CursorInGrid s) (hb : boundary s = .next t) : Keeps k s t :=
  .of_kept (h.boundary hb) hc (boundary_kept h.config hb)

theorem portWrite_keeps {p : Port} (h : Held k s) (hc : CursorInGrid s) (hw : portWrite p b s = .next t) :
    Keeps k s t := by
  have ht := h.portWrite hw
  rcases portWrite_reacts hw with ⟨v, rfl⟩ | ⟨c, q, rfl, -⟩
  · exact ⟨ht, hc, rfl⟩
  · cases c <;> exact ⟨ht, hc, rfl⟩

theorem portWrites_keeps {l : List (Port × Byte)} (h : Held k s) (hc : CursorInGrid s) (hw : portWrites l s = .next t) :
    Keeps k s t := by
  induction l generalizing s with
  | nil => cases hw; exact ⟨h, hc, rfl⟩
  | cons p l ih =>
    obtain ⟨u, hu, hw⟩ := andThen_eq_next.1 hw
    obtain ⟨v, hv, hw⟩ := andThen_eq_next.1 hw
    have k1 := portWrite_keeps h hc hu
    have k2 := boundary_keeps k1.held k1.cursor hv
    exact (k1.trans k2).trans (ih k2.held k2.cursor hw)

/-- Q.INIT's writes: the ring they leave is sound where nothing is delivered between them (R88). -/
theorem initQueue_keeps (h : Held k s) (hc : CursorInGrid s) (hi : k → s.intFlag = false)
    (e : initQueue s = .next t) : Keeps k s t := by
  have hb : ∀ v : State, Held False v → Ends True (Held False) (boundary v) := fun v hv =>
    ends_true.2 fun w hw => hv.boundary hw
  have hs : Held False t := ends_true.1 (initQueue_ends (P := fun _ => Held False)
    (hb (beginQueue s) { h with queue := False.elim })
    (fun u hu => hb (u.setWr 0) { hu with queue := False.elim })
    (fun i u _ hu => hb (clearSlot _ u) { hu with queue := False.elim })) t e
  have hf := initQueue_kept h.config e
  refine ⟨{ hs with queue := fun hk => ?_ }, hc.congr hf.term, hf.cfg⟩
  obtain ⟨u, hu, -, h2, h3, h4⟩ := initQueue_masked (hi hk)
  cases Host.Outcome.next.inj (e.symm.trans hu) with
  | refl => exact queueSound_empty h2 h3 h4

theorem queueIsEmpty_keeps {p : Bool × State} (h : Held k s) (hc : CursorInGrid s) (e : queueIsEmpty s = .next p) :
    Keeps k s p.2 := by
  obtain ⟨u, hu, e⟩ := andThen_eq_next.1 e
  cases e
  exact boundary_keeps h hc hu

theorem queueRead_keeps {p : KeyEvent × State} (h : Held k s) (hc : CursorInGrid s) (e : queueRead s = .next p) :
    Keeps k s p.2 := by
  unfold queueRead at e
  split at e
  · simp at e
  · rename_i ev hev
    obtain ⟨u, hu, e⟩ := andThen_eq_next.1 e
    cases e
    have hsome : (slot s s.rd).isSome = true := by
      rw [show slot s s.rd = some ev from hev]; rfl
    have kb := boundary_keeps h hc hu
    refine ⟨kb.held.read ?_, kb.cursor, kb.cfg⟩
    rw [(boundary_kept h.config hu).rd]
    exact boundary_slot h.config hu hsome

theorem putChar_keeps {ch : Byte} (h : Held k s) (hc : CursorInGrid s) (e : putChar ch s = .next t) : Keeps k s t := by
  obtain ⟨tm, ht⟩ := putChar_term e
  obtain ⟨hk, hh⟩ := ends_true.1 (putChar_ends (between_held (k := k)) ch ht (hc tm ht) ⟨.refl _, h⟩) t e
  refine ⟨hh, fun u hu => ?_, hk.cfg.trans (typed_cfg ch)⟩
  rw [hk.term, typed_term ch ht (hc tm ht)] at hu
  cases hu
  exact charPut_col_lt s.cfg ch tm

theorem putCell_keeps {cell : GlyphCell} {x y : Nat} (h : Held k s) (hc : CursorInGrid s)
    (e : putCell cell x y s = .next t) : Keeps k s t := by
  unfold putCell at e
  split at e
  · cases e; exact ⟨h.storeCell _ _, hc, rfl⟩
  · simp at e

theorem mainTurn_keeps (h : Held k s) (hc : CursorInGrid s) (e : mainTurn s = .next t) : Keeps k s t := by
  unfold mainTurn at e
  obtain ⟨p, hp, e⟩ := andThen_eq_next.1 e
  have k1 := queueIsEmpty_keeps h hc hp
  obtain ⟨w, hw, e⟩ := andThen_eq_next.1 e
  have k2 := k1.trans (boundary_keeps k1.held k1.cursor hw)
  split at e
  · cases e; exact ⟨k2.held.setHalted _, k2.cursor, k2.cfg⟩
  · obtain ⟨q, hq, e⟩ := andThen_eq_next.1 e
    have k3 := k2.trans (queueRead_keeps k2.held k2.cursor hq)
    obtain ⟨y, hy, e⟩ := andThen_eq_next.1 e
    have k4 := k3.trans (boundary_keeps k3.held k3.cursor hy)
    unfold forwardEvent at e
    split at e
    · exact k4.trans (putChar_keeps k4.held k4.cursor e)
    · cases e; exact k4

/-- The empty ring of reset. -/
theorem queueSound_reset : QueueSound State.reset := by
  right
  refine ⟨Fin.le_refl _, fun i => ?_⟩
  simp [State.reset]

end Sys2Proof.Machine
end

