-- ==== Sys2Proof/Laws/Fetch.lean ====
section
/-! SUPPORT. What a step is, case by case: whose turn it is, and what a foreground's turn can be. -/

namespace Sys2Proof.Machine

variable {s t u : State}

/-- Between steps of a machine that runs, the schedule decides. -/
theorem turn_scheduled (hf : s.fault = none) (hr : s.refusal = none) (hw : s.work = []) (hc : s.ctx = .fg) :
    turn s = scheduledTurn foregroundTurn s := by
  simp only [turn, hf, hr, hw, hc]

theorem Sound.turn (h : Sound s) : turn s = scheduledTurn foregroundTurn s :=
  turn_scheduled h.running.1 h.running.2 h.noWork h.foreground

/-- A fault leaves the schedule in charge and its agent without a step (R111). -/
theorem turn_stopped {c : FaultCode} (hf : s.fault = some c) : turn s = scheduledTurn (stoppedTurn c) s := by
  simp only [turn, hf]

/-- Nothing of the environment's and no delivery comes before the foreground's turn once the schedule is over. -/
structure Quiet (s : State) : Prop where
  sched : s.sched = []
  keys : s.keys = [] ∨ kbdFull s = true
  deliverable : deliverable s = none

/-- Everything a turn can be that the schedule decides. -/
theorem scheduledTurn_cases (f : State → Turn) (s : State) :
    (∃ acts, s.sched = .go :: acts ∧ scheduledTurn f s = f (s.setSched acts)) ∨
    (∃ e acts, s.sched = .env e :: acts ∧ scheduledTurn f s = .settled (.next (envAct e (s.setSched acts)))) ∨
    (∃ within acts, s.sched = .deliver within :: acts ∧
      scheduledTurn f s = .settled (deliver within (s.setSched acts))) ∨
    (s.sched = [] ∧ scheduledTurn f s = .settled (.next (presentKey s))) ∨
    (∃ l, s.sched = [] ∧ deliverable s = some l ∧ scheduledTurn f s = .settled (takeInterrupt l [] s)) ∨
    (Quiet s ∧ scheduledTurn f s = f s) := by
  unfold scheduledTurn
  split
  · rename_i hs
    unfold unscheduledTurn
    split
    · exact .inr (.inr (.inr (.inl ⟨hs, rfl⟩)))
    · rename_i hk
      cases hd : deliverable s with
      | some l => exact .inr (.inr (.inr (.inr (.inl ⟨l, hs, rfl, rfl⟩))))
      | none =>
        refine .inr (.inr (.inr (.inr (.inr ⟨⟨hs, ?_, hd⟩, rfl⟩))))
        cases hkeys : s.keys <;> cases hfull : kbdFull s <;> simp_all
  · exact .inl ⟨_, ‹_›, rfl⟩
  · exact .inr (.inl ⟨_, _, ‹_›, rfl⟩)
  · exact .inr (.inr (.inl ⟨_, _, ‹_›, rfl⟩))

/-- With nothing else to happen it is the agent's own turn. -/
theorem Quiet.turn (h : Quiet s) (f : State → Turn) : scheduledTurn f s = f s := by
  have : (!s.keys.isEmpty && !kbdFull s) = false := by rcases h.keys with h | h <;> simp [h]
  simp only [scheduledTurn, h.sched, unscheduledTurn, this, h.deliverable, Bool.false_eq_true, if_false]

/-- The foreground's turn, with what it leaves of the stream. -/
theorem ForegroundTurn.turn (h : ForegroundTurn s t) :
    turn s = foregroundTurn t ∧ t.halted = false ∧ t.stream = s.stream ∧ t.mainLoop = s.mainLoop := by
  have ht := turn_scheduled h.running.1 h.running.2 h.noWork h.context
  rcases h.next with ⟨acts, hs, rfl⟩ | ⟨hs, hk, hd, rfl⟩
  · refine ⟨?_, h.awake, rfl, rfl⟩
    rw [ht, scheduledTurn, hs]; rfl
  · refine ⟨?_, h.awake, rfl, rfl⟩
    rw [ht, Quiet.turn ⟨hs, hk, hd⟩]

/-- An awake foreground at the head of a stream that decodes. -/
theorem foregroundTurn_stream {i : Instr} {rest : List Byte} (hh : t.halted = false)
    (hd : decode t.stream = .ok (i, rest)) :
    foregroundTurn t =
      if i.contexts.inStream then .stream i rest t else .settled (refuse .wrongContext t) := by
  unfold foregroundTurn
  rw [hh, if_neg Bool.false_ne_true]
  cases hst : t.stream with
  | nil => rw [hst] at hd; simp [decode] at hd
  | cons b bs => rw [hst] at hd; simp only [hd]

/-- An awake foreground after its stream. -/
theorem foregroundTurn_loop (hh : t.halted = false) (hs : t.stream = []) (hl : t.mainLoop = true) :
    foregroundTurn t = .stream .mainStep [] t := by
  unfold foregroundTurn
  rw [hh, if_neg Bool.false_ne_true, hs]
  simp only [hl, if_true]

/-- A halted foreground. -/
theorem foregroundTurn_halted (hh : t.halted = true) :
    foregroundTurn t = if t.intFlag then .settled (.next t) else .settled (.fault (.stuckHalt t)) := by
  unfold foregroundTurn
  rw [hh, if_pos rfl]

/-- Everything a foreground's turn can be. -/
theorem foregroundTurn_cases (t : State) : (∃ o, foregroundTurn t = .settled o ∧ ∀ v, o = .next v → v = t) ∨
    ∃ i rest, foregroundTurn t = .stream i rest t ∧ i.contexts.inStream = true := by
  unfold foregroundTurn
  split
  · split
    · exact .inl ⟨_, rfl, fun v hv => by cases hv; rfl⟩
    · exact .inl ⟨_, rfl, fun v hv => by cases hv⟩
  · split
    · split
      · exact .inr ⟨_, _, rfl, rfl⟩
      · exact .inl ⟨_, rfl, fun v hv => by cases hv; rfl⟩
    · split
      · exact .inl ⟨_, rfl, fun v hv => by simp at hv⟩
      · split_ifs with h
        · exact .inr ⟨_, _, rfl, h⟩
        · exact .inl ⟨_, rfl, fun v hv => by simp at hv⟩

/-- A code outside the table is no operation (R66, R68 a). -/
theorem opcodeOf_unknown : ∀ code : Byte,
    code ∉ ([0x00, 0x01, 0x10, 0x11, 0x12, 0x20, 0x21, 0x22, 0x23, 0x30, 0x40, 0x41, 0x42, 0x43, 0x50, 0x51, 0x52, 0x53,
      0x54, 0x55, 0x60, 0x61, 0x62, 0x63] : List Byte) → opcodeOf code = none := by decide +kernel

end Sys2Proof.Machine
end

