-- ==== Sys2Proof/Laws/Booted.lean ====
section
/-! SUPPORT. On a console that has booted nothing that falls between the steps of an operation stops it: what the
environment and a delivered interrupt keep of Running. -/

namespace Sys2Proof.Machine

variable {s t x : State} {b : Byte} {l : Line} {within : List EnvAct}

/-- The master's pending lines and the latch, with the timer silent. -/
structure KeysOnly (s : State) : Prop where
  timerSilent : s.cfg.envTimerAsserts = false
  onlyKeyboard : ∀ l : Line, s.picM.irr.getLsbD l.val = true → l = s.cfg.kbdLine
  latch : s.picM.irr.getLsbD s.cfg.kbdLine.val = true → kbdFull s = true

theorem KeysOnly.envAct (h : KeysOnly s) (e : EnvAct) : KeysOnly (envAct e s) := by
  cases e with
  | tick =>
    have : Machine.envAct .tick s = s := if_neg (by rw [h.timerSilent]; exact Bool.false_ne_true)
    rw [this]; exact h
  | key =>
    show KeysOnly (presentKey s)
    unfold presentKey
    split
    · exact h
    · split
      · exact h
      · refine ⟨h.timerSilent, fun l hl => ?_, fun _ => rfl⟩
        have hl' : (setBit s.picM.irr s.cfg.kbdLine).getLsbD l.val = true := hl
        rw [getLsbD_setBit, Bool.or_eq_true, decide_eq_true_eq] at hl'
        exact hl'.elim (h.onlyKeyboard l) id

theorem KeysOnly.envActs (es : List EnvAct) (h : KeysOnly s) : KeysOnly (envActs es s) := by
  induction es generalizing s with
  | nil => exact h
  | cons e es ih => exact ih (h.envAct e)

theorem Running.held (h : Running s) : Held True s := ⟨h.toSound, fun _ => h.queue⟩

theorem Booted.inv (h : Booted s) : Inv s := ⟨h.toSound, h.cursor⟩

theorem Running.keysOnly (h : Running s) : KeysOnly s := ⟨h.timerSilent, h.onlyKeyboard, h.latch⟩

/-- The vector the keyboard's line presents, and its place in the table. -/
theorem Running.vector (h : Running s) : vectorOf s s.cfg.kbdLine = s.cfg.kbdVector.toNat := by
  rw [(Config.kbdVector_eq h.config).1]
  simp only [vectorOf, h.routed.1, Option.getD_some]

theorem Running.inTable (h : Running s) : vectorInTable s s.cfg.kbdVector.toNat = true := by
  have h1 := Config.kbdVector_eq h.config
  have h2 := Config.idtLimit_toNat h.config
  simp only [vectorInTable, h.loaded, Bool.and_eq_true, decide_eq_true_eq]
  omega

theorem Running.configured (h : Running s) : s.picM.configured = true ∧ s.picS.configured = true := by
  have := h.enabled h.interruptsOn
  simp only [setupDone, Bool.and_eq_true] at this
  exact ⟨this.1.1.1.2, this.1.1.2⟩

/-- The fields an interrupt leaves, as far as Running asks. -/
theorem Running.of_kept (h : Running s) (hi : Held True t) (hk : ForegroundKept s t) (hon : t.intFlag = true)
    (hp : t.picM.base = s.picM.base ∧ t.picM.imr = s.picM.imr) (hq : KeysOnly t) : Running t where
  toSound := hi.toSound
  queue := hi.queue trivial
  interruptsOn := hon
  built := by rw [hk.term]; exact h.built
  timerSilent := hq.timerSilent
  loaded := by rw [hk.idtr, hk.cfg]; exact h.loaded
  live := by rw [idtEntry_congr hk.cfg hk.mem, hk.cfg]; exact h.live
  routed := by rw [hp.1, hp.2, hk.cfg]; exact h.routed
  onlyKeyboard := hq.onlyKeyboard
  latch := hq.latch
  looping := by rw [hk.stream, hk.mainLoop]; exact h.looping

theorem Running.envAct (h : Running s) (e : EnvAct) : Running (envAct e s) := by
  refine h.of_kept (h.held.envAct e) (envAct_kept e s) ?_ ?_ (h.keysOnly.envAct e) <;>
    (obtain ⟨y, k, ks, he⟩ := envAct_shape e s; rw [he])
  · exact h.interruptsOn
  · exact ⟨rfl, rfl⟩

theorem Running.setSched (h : Running s) (acts : List Act) : Running (s.setSched acts) := { h with }

/-- A request that can be delivered is the keyboard's, and a byte is there. -/
theorem Running.deliverable (h : Running s) (hd : deliverable s = some l) : l = s.cfg.kbdLine ∧ ∃ b, s.kbd = .full b := by
  have hr := (deliverable_some hd).2.2.2
  simp only [requests, Bool.and_eq_true] at hr
  have hl := h.onlyKeyboard l hr.1.1
  have hf := h.latch (hl ▸ hr.1.1)
  refine ⟨hl, ?_⟩
  unfold kbdFull at hf
  split at hf
  · rename_i b hb; exact ⟨b, hb⟩
  · simp at hf
  · simp at hf

/-- The interrupt is served, and the console is still booted. -/
theorem Running.interrupt (h : Running s) (hd : Machine.deliverable s = some l) (within : List EnvAct) : ∃ b,
    s.kbd = .full b ∧ takeInterrupt l within s = .next (interruptResult l b within s) ∧
    Running (interruptResult l b within s) := by
  obtain ⟨hl, b, hb⟩ := h.deliverable hd
  refine ⟨b, hb, ?_, ?_⟩
  · refine takeInterrupt_run h.config ?_ ?_ hb h.configured.1 h.configured.2
    · rw [hl, h.vector]; exact h.inTable
    · rw [hl, h.vector]; exact h.live
  · have hs := interruptResult_served l b within s
    refine h.of_kept (h.held.interrupt hd b within) interruptResult_kept hs.intFlag ?_ ?_
    · rw [hs.picM]; exact ⟨rfl, rfl⟩
    · have hk : KeysOnly (byteTaken b within (entered l s)) := by
        refine KeysOnly.envActs within ⟨h.timerSilent, fun k hk => ?_, fun hk => ?_⟩
        · have hk' : (clearBit s.picM.irr l).getLsbD k.val = true := hk
          rw [getLsbD_clearBit, Bool.and_eq_true] at hk'
          exact h.onlyKeyboard k hk'.1
        · have hk' : (clearBit s.picM.irr l).getLsbD s.cfg.kbdLine.val = true := hk
          rw [getLsbD_clearBit, hl] at hk'
          simp at hk'
      have hc : (byteTaken b within (entered l s)).cfg = s.cfg := (entered_kept.trans byteTaken_kept).cfg
      have hc' := (interruptResult_kept (l := l) (b := b) (within := within) (s := s)).cfg
      refine ⟨?_, ?_, ?_⟩
      · rw [hc']; exact h.timerSilent
      · rw [hc', hs.picM, ← hc]; exact hk.onlyKeyboard
      · rw [hc', hs.picM, ← hc]
        intro hi
        have := hk.latch hi
        unfold kbdFull at this ⊢
        rw [hs.kbd]; exact this

theorem Running.deliver (h : Running s) (within : List EnvAct) :
    ∃ t, deliver within s = .next t ∧ Running t ∧ ForegroundKept s t := by
  unfold Machine.deliver
  cases hd : Machine.deliverable s with
  | none => exact ⟨s, rfl, h, .refl s⟩
  | some l =>
    obtain ⟨b, -, ht, hb⟩ := h.interrupt hd within
    exact ⟨_, ht, hb, interruptResult_kept⟩

theorem Running.runActs (acts : List Act) (h : Running s) :
    ∃ t, runActs acts s = .next t ∧ Running t ∧ ForegroundKept s t := by
  induction acts generalizing s with
  | nil => exact ⟨_, rfl, h.setSched _, setSched_kept⟩
  | cons a acts ih =>
    cases a with
    | go => exact ⟨_, rfl, h.setSched _, setSched_kept⟩
    | env e =>
      obtain ⟨t, ht, hb, hk⟩ := ih (h.envAct e)
      exact ⟨t, ht, hb, (envAct_kept e s).trans hk⟩
    | deliver within =>
      obtain ⟨u, hu, hbu, hku⟩ := (h.setSched acts).deliver within
      obtain ⟨t, ht, hb, hk⟩ := ih hbu
      refine ⟨t, ?_, hb, (setSched_kept.trans hku).trans hk⟩
      rw [Machine.runActs, hu, andThen_next]
      exact ht

theorem Running.boundary (h : Running s) : ∃ t, boundary s = .next t ∧ Running t ∧ ForegroundKept s t := h.runActs s.sched

/-- The comparison that carries Running along: nothing stops the operation. -/
theorem between_running : Between False fun x u => ForegroundKept x u ∧ Running u where
  config h := by rw [← h.1.cfg]; exact h.2.config
  agree h := ⟨h.1.cfg, h.1.mem, h.1.crtc, h.1.term⟩
  bound h := by
    obtain ⟨t, ht, hb, hk⟩ := h.2.boundary
    exact ends_of_completes ht ⟨h.1.trans hk, hb⟩
  store {x u off c} h ho := by
    have hi := between_held.store (c := c) ⟨h.1, h.2.held⟩ ho
    have hv := Config.kbdVector_eq h.2.config
    exact ⟨hi.1, { h.2 with
      memory := hi.2.memory
      live := (idtEntry_storeCell h.2.config ho hv.2.1).trans h.2.live }⟩
  term {x u t} h ht := by
    have hi := between_held.term ⟨h.1, h.2.held⟩ ht
    exact ⟨hi.1, { h.2 with colours := hi.2.colours, built := rfl }⟩
  crtc {x u v} h := ⟨(between_held.crtc (v := v) ⟨h.1, h.2.held⟩).1, { h.2 with }⟩
  log {x u l} h := ⟨(between_held.log (l := l) ⟨h.1, h.2.held⟩).1, { h.2 with }⟩

/-! ### Pieces of the loop -/

theorem Running.setResult (h : Running s) (r : Result) : Running (s.setResult r) := { h with }

theorem Running.setHalted (h : Running s) (v : Bool) : Running (s.setHalted v) := { h with }

theorem Running.read (h : Running s) (hs : (slot s s.rd).isSome = true) : Running (s.setRd (advance s.rd)) :=
  { h with queue := h.queue.read hs }

theorem Running.retire (h : Running s) : Running (retire [] s) := { h with looping := ⟨rfl, h.looping.2⟩ }

/-- What keeps the foreground's own state keeps the console booted. -/
theorem Booted.of_running (h : Booted s) (hr : Running t) (hk : ForegroundKept s t) : Booted t :=
  ⟨hr, h.cursor.congr hk.term⟩

/-- TERM.PUTCHAR on a booted console completes, whatever falls into it. -/
theorem Booted.putChar (h : Booted s) (ch : Byte) :
    ∃ t, putChar ch s = .next t ∧ Booted t ∧ (Mirrored s → Mirrored t) := by
  obtain ⟨tm, ht⟩ := Option.isSome_iff_exists.1 h.built
  obtain ⟨u, hu, hk, hb⟩ := (putChar_ends between_running ch ht (h.cursor tm ht)
    ⟨.refl _, h.toRunning⟩).completes
  refine ⟨u, hu, ⟨hb, fun v hv => ?_⟩, fun hm => hk.mirrored.2 (mirrored_typed ch ht (h.cursor tm ht) h.memory hm)⟩
  rw [hk.term, typed_term ch ht (h.cursor tm ht)] at hv
  cases hv
  exact charPut_col_lt s.cfg ch tm

/-- A pending keyboard line is the one that is delivered. -/
theorem Running.pending (h : Running s) (hi : s.picM.irr.getLsbD s.cfg.kbdLine.val = true) :
    Machine.deliverable s = some s.cfg.kbdLine := by
  have hr : requests s.picM s.cfg.kbdLine = true :=
    requests_iff.2 ⟨hi, ⟨_, h.routed.2, Config.kbdLine_open h.config⟩, fun j _ => by rw [h.service.1]; simp⟩
  have hc : (s.intFlag && decide (s.ctx = .fg) && s.fault.isNone) = true := by
    simp [h.interruptsOn, h.foreground, h.running.1]
  have hf : ∃ l, Machine.deliverable s = some l := by
    unfold Machine.deliverable
    rw [if_pos hc]
    exact Option.isSome_iff_exists.1 (List.find?_isSome.2 ⟨s.cfg.kbdLine, mem_lines _, hr⟩)
  obtain ⟨l, hl⟩ := hf
  rw [hl, (h.deliverable hl).1]

/-- One pending byte served on a booted console, with nothing of the environment's inside the handler. -/
structure OneServed (b : Byte) (s t : State) : Prop where
  taken : takeInterrupt s.cfg.kbdLine [] s = .next t
  booted : Booted t
  kept : ForegroundKept s t
  wr : t.wr = s.wr + 1
  keys : t.keys = s.keys
  latch : kbdFull t = false
  sched : t.sched = s.sched
  halted : t.halted = false
  mods : t.mods = modupdate s.cfg s.mods b
  ring : ∀ i, slot t i = if i = s.wr then some (byteEvent b s) else slot s i

theorem Booted.served (h : Booted s) (hi : s.picM.irr.getLsbD s.cfg.kbdLine.val = true) (hb : s.kbd = .full b) :
    ∃ t, OneServed b s t := by
  obtain ⟨b', hb', h1, h2⟩ := h.interrupt (h.pending hi) []
  cases KbdLatch.full.inj (hb.symm.trans hb') with
  | refl =>
    have sv := interruptResult_served s.cfg.kbdLine b [] s
    refine ⟨_, h1, h.of_running h2 interruptResult_kept, interruptResult_kept, sv.wr, ?_, ?_, sv.sched, sv.halted, sv.mods, fun i => ?_⟩
    · rw [sv.keys]; simp [byteTaken, Machine.envActs, logIo, entered, enterIsr, takeRequest]
    · unfold kbdFull; rw [sv.kbd]; simp [byteTaken, Machine.envActs, logIo]
    · rw [← slot_ringPut]
      simp only [slot, sv.ring]

end Sys2Proof.Machine
end

