-- ==== Sys2Proof/Laws/PerInstr.lean ====
section
/-! SUPPORT. What is said of every instruction as syntax, one lemma per constructor: its bytes, in the space it stands in, are
read back as that instruction, with whatever follows left over. -/

namespace Sys2Proof.Laws.RoundTrip

/-- The bytes of the instruction are read back as it. -/
def Statement (i : Instr) : Prop :=
  ∀ (cfg : Config) (rest : List Byte), cfg.wf = true → WellFormed i = true →
    decodeIn cfg i.space (encode cfg i ++ rest) = .ok (i, rest)

/-- An operation's bytes: its code, then operands that are read back. -/
theorem operation {i : Instr} (o : Opcode) {ops : List Byte} {cfg : Config} {rest : List Byte}
    (hs : i.space = .operation) (he : encode cfg i = o.code :: ops) (hr : readOperands o (ops ++ rest) = .ok (i, rest)) :
    decodeIn cfg i.space (encode cfg i ++ rest) = .ok (i, rest) := by
  rw [hs, he]
  exact (decode_code o).trans hr

/-- The operations that have operands. -/
theorem operands (rest : List Byte) :
    (∀ port b, readOperands .outb ((putWord16 port ++ [b]) ++ rest) = .ok (.outb port b, rest)) ∧
    (∀ port, readOperands .inb (putWord16 port ++ rest) = .ok (.inb port, rest)) ∧
    (∀ ch fg bg x y, readOperands .putglyphCfb ((ch :: (bg ++ fg) :: (putNat x ++ putNat y)) ++ rest) =
      .ok (.putglyphCfb ch fg bg x y, rest)) ∧
    (∀ cell x y, readOperands .putglyphCell ((putWord16 cell ++ (putNat x ++ putNat y)) ++ rest) =
      .ok (.putglyphCell cell x y, rest)) ∧
    (∀ x y, readOperands .setcursor ((putNat x ++ putNat y) ++ rest) = .ok (.setcursor x y, rest)) ∧
    (∀ text, readOperands .termWrite (putText text ++ rest) = .ok (.termWrite text, rest)) ∧
    (∀ sc p ls rs c a, readOperands .kbdDecode ((sc :: putFlags ⟨p, ls, rs, c, a⟩) ++ rest) =
      .ok (.kbdDecode sc p ls rs c a, rest)) ∧
    (∀ e : KeyEvent, readOperands .qPut ((e.ch :: putFlags ⟨e.pressed, e.lshift, e.rshift, e.ctrl, e.alt⟩) ++ rest) =
      .ok (.qPut e, rest)) ∧
    (∀ a, readOperands .idtBuild (putWord32 a ++ rest) = .ok (.idtBuild a, rest)) := by
  simp [readOperands, nibble_low, nibble_high]

theorem outb (port : Port) (b : Byte) : Statement (.outb port b) :=
  fun _ rest _ _ => operation .outb rfl rfl ((operands rest).1 port b)

theorem inb (port : Port) : Statement (.inb port) :=
  fun _ rest _ _ => operation .inb rfl rfl ((operands rest).2.1 port)

theorem putglyphCfb (ch : Byte) (fg : Colour) (bg : Colour) (x : Nat) (y : Nat) : Statement (.putglyphCfb ch fg bg x y) :=
  fun _ rest _ _ => operation .putglyphCfb rfl rfl ((operands rest).2.2.1 ch fg bg x y)

theorem putglyphCell (cell : GlyphCell) (x : Nat) (y : Nat) : Statement (.putglyphCell cell x y) :=
  fun _ rest _ _ => operation .putglyphCell rfl rfl ((operands rest).2.2.2.1 cell x y)

theorem setcursor (x : Nat) (y : Nat) : Statement (.setcursor x y) :=
  fun _ rest _ _ => operation .setcursor rfl rfl ((operands rest).2.2.2.2.1 x y)

theorem termInit : Statement .termInit :=
  fun _ _ _ _ => operation .termInit rfl rfl rfl

theorem termWrite (text : List Byte) : Statement (.termWrite text) :=
  fun _ rest _ _ => operation .termWrite rfl rfl ((operands rest).2.2.2.2.2.1 text)

theorem termPutchar (ch : Byte) : Statement (.termPutchar ch) :=
  fun _ _ _ _ => operation .termPutchar rfl rfl rfl

theorem termAddline : Statement .termAddline :=
  fun _ _ _ _ => operation .termAddline rfl rfl rfl

theorem kbdDecode (sc : Byte) (pressed : Bool) (ls : Bool) (rs : Bool) (ctrl : Bool) (alt : Bool) : Statement (.kbdDecode sc pressed ls rs ctrl alt) :=
  fun _ rest _ _ => operation .kbdDecode rfl rfl ((operands rest).2.2.2.2.2.2.1 sc pressed ls rs ctrl alt)

theorem qInit : Statement .qInit :=
  fun _ _ _ _ => operation .qInit rfl rfl rfl

theorem qPut (e : KeyEvent) : Statement (.qPut e) :=
  fun _ rest _ _ => operation .qPut rfl rfl ((operands rest).2.2.2.2.2.2.2.1 e)

theorem qRead : Statement .qRead :=
  fun _ _ _ _ => operation .qRead rfl rfl rfl

theorem qIsempty : Statement .qIsempty :=
  fun _ _ _ _ => operation .qIsempty rfl rfl rfl

theorem idtBuild (a : Address) : Statement (.idtBuild a) :=
  fun _ rest _ _ => operation .idtBuild rfl rfl ((operands rest).2.2.2.2.2.2.2.2 a)

theorem idtLoad : Statement .idtLoad :=
  fun _ _ _ _ => operation .idtLoad rfl rfl rfl

theorem picInit : Statement .picInit :=
  fun _ _ _ _ => operation .picInit rfl rfl rfl

theorem picSetmask : Statement .picSetmask :=
  fun _ _ _ _ => operation .picSetmask rfl rfl rfl

theorem picEoi : Statement .picEoi :=
  fun _ _ _ _ => operation .picEoi rfl rfl rfl

theorem kbdIsr : Statement .kbdIsr :=
  fun _ _ _ _ => operation .kbdIsr rfl rfl rfl

theorem intEnable : Statement .intEnable :=
  fun _ _ _ _ => operation .intEnable rfl rfl rfl

theorem intDisable : Statement .intDisable :=
  fun _ _ _ _ => operation .intDisable rfl rfl rfl

theorem halt : Statement .halt :=
  fun _ _ _ _ => operation .halt rfl rfl rfl

theorem mainStep : Statement .mainStep :=
  fun _ _ _ _ => operation .mainStep rfl rfl rfl

theorem crtcSelHi : Statement .crtcSelHi := fun _ _ _ _ => if_pos rfl

theorem crtcDataHi (v : Byte) : Statement (.crtcDataHi v) := fun _ _ _ _ => rfl

theorem crtcSelLo : Statement .crtcSelLo :=
  fun _ _ h _ => (if_neg (Ne.symm (Config.selects_ne h))).trans (if_pos rfl)

theorem crtcDataLo (v : Byte) : Statement (.crtcDataLo v) := fun _ _ _ _ => rfl

theorem picIcw1 (c : Chip) : Statement (.picIcw1 c) := fun _ _ _ _ => if_pos rfl

theorem picIcw2M (v : Byte) : Statement (.picIcw2M v) := fun _ _ _ _ => rfl

theorem picIcw2S (v : Byte) : Statement (.picIcw2S v) := fun _ _ _ _ => rfl

theorem picIcw3M (v : Byte) : Statement (.picIcw3M v) := fun _ _ _ _ => rfl

theorem picIcw3S (v : Byte) : Statement (.picIcw3S v) := fun _ _ _ _ => rfl

theorem picIcw4 (c : Chip) (v : Byte) : Statement (.picIcw4 c v) :=
  match c with
  | .master => fun _ _ _ _ => rfl
  | .slave => fun _ _ _ _ => rfl

theorem picMaskM (v : Byte) : Statement (.picMaskM v) := fun _ _ _ _ => rfl

theorem picMaskS (v : Byte) : Statement (.picMaskS v) := fun _ _ _ _ => rfl

theorem picEoiByte (c : Chip) : Statement (.picEoiByte c) :=
  fun _ _ h _ => (if_neg (Ne.symm (Config.icw1_ne_eoi h))).trans (if_pos rfl)

theorem scPress (k : KeyCode) : Statement (.scPress k) :=
  fun _ rest _ _ => congrArg (fun i => Except.ok (i, rest)) (press_low k)

theorem scRelease (k : KeyCode) : Statement (.scRelease k) :=
  fun _ rest _ _ => congrArg (fun i => Except.ok (i, rest)) (release_low k)

theorem cell (bg : Colour) (fg : Colour) (ch : Byte) : Statement (.cell bg fg ch) := by
  intro cfg rest _ _
  simp [Instr.space, decodeIn, encode, cell_slices]

theorem attr (bg : Colour) (fg : Colour) : Statement (.attr bg fg) := by
  intro cfg rest _ _
  simp [Instr.space, decodeIn, encode, nibble_low, nibble_high]

theorem desc (offHi : BitVec 16) (attrWord : BitVec 16) (selector : BitVec 16) (offLo : BitVec 16) : Statement (.desc offHi attrWord selector offLo) := by
  intro cfg rest _ hw
  simp [Instr.space, decodeIn, encode, decodeDescriptor_live hw]

theorem descEmpty : Statement .descEmpty := by
  intro cfg rest _ _
  simp [Instr.space, decodeIn, encode, decodeDescriptor]

end Sys2Proof.Laws.RoundTrip
end

