-- ==== Sys2Proof/Laws/Setup.lean ====
section
/-! SUPPORT. The two port-write sequences of the set-up, undisturbed: what PIC.INIT's eight bytes and PIC.SETMASK's two make
of the chips (R63, R64). -/

namespace Sys2Proof.Machine

variable {s : State} {l : List IoEntry} {m q m' q' : Pic} {p : Port} {b : Byte} {f : State → Out State}

/-- The state with both chips replaced and entries added to IOTRACE. -/
def onChips (s : State) (l : List IoEntry) (m q : Pic) : State := ((s.setIotrace (s.iotrace ++ l)).setPicM m).setPicS q

theorem onChips_self (s : State) : s = onChips s [] s.picM s.picS := by
  simp [onChips, State.setIotrace, State.setPicM, State.setPicS]

/-- One port write of a sequence and the boundary behind it. -/
theorem onChips_step (hu : s.sched = [])
    (h : deviceByte p b (onChips s (l ++ [⟨.w, p, b⟩]) m q) = .next (onChips s (l ++ [⟨.w, p, b⟩]) m' q')) :
    thenStep (portWrite p b (onChips s l m q)) f = f (onChips s (l ++ [⟨.w, p, b⟩]) m' q') := by
  have e : logIo ⟨.w, p, b⟩ (onChips s l m q) = onChips s (l ++ [⟨.w, p, b⟩]) m q := by
    simp [logIo, onChips, State.setIotrace, State.setPicM, State.setPicS]
  rw [thenStep, portWrite, e, h, andThen_next, boundary_undisturbed (by exact hu), andThen_next]

/-! ### One byte, by its place -/

theorem master_start (hc : s.cfg.wf = true) (hi : s.intFlag = false) :
    deviceByte s.cfg.picMCmd s.cfg.icw1 (onChips s l m q) =
      .next (onChips s l { m with step := 3, configured := false, insvc := 0, imr := none } q) :=
  (deviceByte_command (s := onChips s l m q) (c := .master) hc).trans
    ((picCommandByte_icw1 (s := onChips s l m q)).trans (picStart_off hi))

theorem slave_start (hc : s.cfg.wf = true) (hi : s.intFlag = false) :
    deviceByte s.cfg.picSCmd s.cfg.icw1 (onChips s l m q) =
      .next (onChips s l m { q with step := 3, configured := false, insvc := 0, imr := none }) :=
  (deviceByte_command (s := onChips s l m q) (c := .slave) hc).trans
    ((picCommandByte_icw1 (s := onChips s l m q)).trans (picStart_off hi))

theorem master_data (hc : s.cfg.wf = true) :
    deviceByte s.cfg.picMData b (onChips s l m q) = picDataByte .master b (onChips s l m q) :=
  deviceByte_data (s := onChips s l m q) (c := .master) hc

theorem slave_data (hc : s.cfg.wf = true) :
    deviceByte s.cfg.picSData b (onChips s l m q) = picDataByte .slave b (onChips s l m q) :=
  deviceByte_data (s := onChips s l m q) (c := .slave) hc

theorem master_base (hc : s.cfg.wf = true) (h : m.step = 3) : deviceByte s.cfg.picMData b (onChips s l m q) =
    .next (onChips s l { m with base := some b, step := 2 } q) := (master_data hc).trans (picDataByte_base h)

theorem slave_base (hc : s.cfg.wf = true) (h : q.step = 3) : deviceByte s.cfg.picSData b (onChips s l m q) =
    .next (onChips s l m { q with base := some b, step := 2 }) :=
  (slave_data hc).trans (picDataByte_base (c := .slave) h)

theorem master_wiring (hc : s.cfg.wf = true) (h : m.step = 2) : deviceByte s.cfg.picMData b (onChips s l m q) =
    .next (onChips s l { m with icw3 := some b, step := 1 } q) := (master_data hc).trans (picDataByte_wiring h)

theorem slave_wiring (hc : s.cfg.wf = true) (h : q.step = 2) : deviceByte s.cfg.picSData b (onChips s l m q) =
    .next (onChips s l m { q with icw3 := some b, step := 1 }) :=
  (slave_data hc).trans (picDataByte_wiring (c := .slave) h)

theorem master_mode (hc : s.cfg.wf = true) (h : m.step = 1) : deviceByte s.cfg.picMData b (onChips s l m q) =
    .next (onChips s l { m with icw4 := some b, step := 0, configured := true } q) :=
  (master_data hc).trans (picDataByte_mode h)

theorem slave_mode (hc : s.cfg.wf = true) (h : q.step = 1) : deviceByte s.cfg.picSData b (onChips s l m q) =
    .next (onChips s l m { q with icw4 := some b, step := 0, configured := true }) :=
  (slave_data hc).trans (picDataByte_mode (c := .slave) h)

theorem master_mask (hc : s.cfg.wf = true) (h : m.step = 0) (hp : m.configured = true) :
    deviceByte s.cfg.picMData b (onChips s l m q) = .next (onChips s l { m with imr := some b } q) :=
  (master_data hc).trans ((picDataByte_mask (s := onChips s l m q) (c := .master) h).trans (picMask_on hp))

theorem slave_mask (hc : s.cfg.wf = true) (h : q.step = 0) (hp : q.configured = true) :
    deviceByte s.cfg.picSData b (onChips s l m q) = .next (onChips s l m { q with imr := some b }) :=
  (slave_data hc).trans ((picDataByte_mask (s := onChips s l m q) (c := .slave) h).trans (picMask_on (c := .slave) hp))

/-! ### The sequences -/

/-- A chip after its four initialisation bytes (R63). -/
def initialised (p : Pic) (base wiring mode : Byte) : Pic :=
  { p with configured := true, step := 0, base := some base, icw3 := some wiring, icw4 := some mode, imr := none, insvc := 0 }

/-- The entries a sequence of port writes leaves in IOTRACE. -/
def written (l : List (Port × Byte)) : List IoEntry := l.map fun p => ⟨.w, p.1, p.2⟩

theorem portWrites_init (hc : s.cfg.wf = true) (hi : s.intFlag = false) (hu : s.sched = []) :
    portWrites (initBytes s.cfg) s = .next (onChips s (written (initBytes s.cfg))
      (initialised s.picM s.cfg.icw2M s.cfg.icw3M s.cfg.icw4) (initialised s.picS s.cfg.icw2S s.cfg.icw3S s.cfg.icw4)) := by
  rw [congrArg (portWrites (initBytes s.cfg)) (onChips_self s)]
  simp only [initBytes, portWrites]
  rw [onChips_step hu (master_start hc hi), onChips_step hu (slave_start hc hi), onChips_step hu (master_base hc rfl),
    onChips_step hu (slave_base hc rfl), onChips_step hu (master_wiring hc rfl), onChips_step hu (slave_wiring hc rfl),
    onChips_step hu (master_mode hc rfl), onChips_step hu (slave_mode hc rfl)]
  rfl

theorem portWrites_mask (hc : s.cfg.wf = true) (hu : s.sched = []) (hm : s.picM.configured = true)
    (hs : s.picS.configured = true) (h1 : s.picM.step = 0) (h2 : s.picS.step = 0) :
    portWrites (maskBytes s.cfg) s = .next (onChips s (written (maskBytes s.cfg)) { s.picM with imr := some s.cfg.maskM }
      { s.picS with imr := some s.cfg.maskS }) := by
  rw [congrArg (portWrites (maskBytes s.cfg)) (onChips_self s)]
  simp only [maskBytes, portWrites]
  rw [onChips_step hu (master_mask hc h1 hm), onChips_step hu (slave_mask hc h2 hs)]
  rfl

/-! ### The table -/

theorem read_zeros {cfg : Config} {m : List Host.Cell} {a k n : Nat} (hw : Memory.wf cfg m = true) (h1 : a ≤ k)
    (h2 : k < a + n) : Memory.read cfg (Memory.writeBytes cfg a (List.replicate n 0) m) k = some 0 := by
  have := Memory.read_writeBytes (cfg := cfg) (a := a) (bs := List.replicate n (0 : Byte)) (i := k - a) hw
    (by simp; omega)
  rw [show a + (k - a) = k by omega] at this
  simpa using this

/-- Outside the live entry's eight bytes IDT.BUILD's table reads as the zeroed table (R94). -/
theorem read_buildTable_other {a : Address} {k : Nat}
    (h : k < descAddress s.cfg s.cfg.kbdVector.toNat ∨ descAddress s.cfg s.cfg.kbdVector.toNat + 8 ≤ k) :
    Memory.read s.cfg (buildTable a s).mem k = Memory.read s.cfg (zeroTable s).mem k :=
  Memory.read_writeBytes_other h

/-- The live entry's bytes (R94). -/
theorem read_buildTable_live {a : Address} {i : Nat} (hw : Memory.wf s.cfg s.mem = true) (hi : i < 8) :
    Memory.read s.cfg (buildTable a s).mem (descAddress s.cfg s.cfg.kbdVector.toNat + i) =
      some ((descBytes (mkdesc s.cfg a))[i]'hi) :=
  Memory.read_writeBytes (bs := descBytes (mkdesc s.cfg a)) (Memory.writeBytes_wf hw) hi

end Sys2Proof.Machine
end

