-- ==== Sys2Proof/Tests/Slice0.lean ====
section
/-! SUPPORT. The model's own tests: ill-formed terms refused, words written out from the spec's encodings, one step on a
small state, and for each statement a state and operands that meet its hypotheses. Expected values are the spec's: the
worked values of spec/95_test_vectors.md where an id V-… or P… is named, hand calculation from the rule named elsewhere. -/

namespace Sys2Proof.Tests

open Sys2Proof.Machine

/-! ### Helpers -/

/-- What is seen of the state an operation leaves. -/
def seen {α : Type} (f : State → α) : Out State → Option α
  | .next s => some (f s)
  | .fault _ => none
  | .refused _ => none

/-- The fault code an operation stops with. -/
def faultOf : Out State → Option FaultCode
  | .next _ => none
  | .fault r => r.left.fault
  | .refused _ => none

/-- The reason an operation is refused with. -/
def reasonOf : Out State → Option Reason
  | .next _ => none
  | .fault _ => none
  | .refused (.notModelled _) => none
  | .refused (.unknownOperation _ s) => s.refusal
  | .refused (.wrongContext s) => s.refusal
  | .refused (.portProtocol s) => s.refusal
  | .refused (.terminalNotConstructed s) => s.refusal
  | .refused (.queueReinit s) => s.refusal
  | .refused (.setupWithInterruptsOn s) => s.refusal
  | .refused (.enableBeforeSetup s) => s.refusal
  | .refused (.foreignDescriptor s) => s.refusal
  | .refused (.malformedWord _ s) => s.refusal

/-- The instruction read from bytes, and what is left over; none where the decoder refuses. -/
def readIn (sp : Space) (bs : List Byte) : Option (Instr × List Byte) := (decodeIn Config.default sp bs).toOption

/-- The instruction read from bytes of the stream. -/
def read (bs : List Byte) : Option (Instr × List Byte) := readIn .operation bs

/-- The parameters' defaults with one of them changed. -/
def altered (f : Config → Config) : Bool := (f Config.default).wf

/-! ### Ill-formed terms (spec/30_encoding.md R60, R67, R68; spec/00_scope.md R7) -/

theorem test_ill_formed_descriptor : WellFormed (.desc 0 0 0 0) = false := by decide
theorem test_well_formed_descriptor : WellFormed (.desc 0 0x8000 0 0) = true := by decide
/-- R67. -/
theorem test_legal_operand_values :
    (legalPort Config.default 0x80 = false) ∧
    (legalPort Config.default 0x60 = true) ∧
    (legalPosition 80 24 = false) ∧
    (legalPosition 79 25 = false) ∧
    (legalPosition 79 24 = true) := by
  decide

theorem test_ill_formed_parameters_ports_and_lines :
    (altered id = true) ∧
    (altered (fun c => { c with crtcData := 0x3D4 }) = false) ∧
    (altered (fun c => { c with cursorSelLo := 0x0E }) = false) ∧
    (altered (fun c => { c with eoiByte := 0x11 }) = false) ∧
    (altered (fun c => { c with icw2M := 0x21, kbdVector := 0x22 }) = false) ∧
    (altered (fun c => { c with icw2S := 0x27 }) = false) ∧
    (altered (fun c => { c with timerLine := 1, maskM := 0xF9 }) = false) ∧
    (altered (fun c => { c with maskM := 0xF9 }) = false) ∧
    (altered (fun c => { c with maskS := 0xFE }) = false) := by
  decide

theorem test_ill_formed_parameters_table_and_screen :
    (altered (fun c => { c with kbdVector := 0x22 }) = false) ∧
    (altered (fun c => { c with idtEntries := 257 }) = false) ∧
    (altered (fun c => { c with gateAttr := 0x0E00 }) = false) ∧
    (altered (fun c => { c with scRshift := 0x2A }) = false) ∧
    (altered (fun c => { c with videoBase := 0xB8001 }) = false) ∧
    (altered (fun c => { c with idtBase := 0xB8F9F }) = false) ∧
    (altered (fun c => { c with idtBase := 0xFFFFF801 }) = false) := by
  decide

/-! ### Words, family by family. Operation codes: R66. Operands in the model's layout (notes/assumptions/4.md). -/

theorem test_decode_portIo : read [0x00, 0xD4, 0x03, 0x0E] = some (.outb 0x3D4 0x0E, []) ∧
    read [0x01, 0x60, 0x00] = some (.inb 0x60, []) := by decide

theorem test_decode_screen : read [0x10, 0x58, 0x1F, 79, 24] = some (.putglyphCfb 0x58 15 1 79 24, []) ∧
    read [0x11, 0x34, 0x12, 5, 2] = some (.putglyphCell 0x1234 5 2, []) ∧
    read [0x12, 0xAC, 0x02, 0] = some (.setcursor 300 0, []) := by decide

theorem test_decode_terminal : read [0x20] = some (.termInit, []) ∧
    read [0x21, 3, 0x41, 0x42, 0x0A, 0x63] = some (.termWrite [0x41, 0x42, 0x0A], [0x63]) ∧
    read [0x22, 0x41] = some (.termPutchar 0x41, []) ∧ read [0x23] = some (.termAddline, []) := by decide

theorem test_decode_decoder : read [0x30, 0x9E, 0x0A] = some (.kbdDecode 0x9E false true false true false, []) := by
  decide

theorem test_decode_queue : read [0x40] = some (.qInit, []) ∧
    read [0x41, 0x61, 0x13] = some (.qPut ⟨0x61, true, true, false, false, true⟩, []) ∧
    read [0x42] = some (.qRead, []) ∧ read [0x43] = some (.qIsempty, []) := by decide

theorem test_decode_interrupt : read [0x50, 0x34, 0x12, 0x10, 0x00] = some (.idtBuild 0x00101234, []) ∧
    read [0x51] = some (.idtLoad, []) ∧ read [0x52] = some (.picInit, []) ∧ read [0x53] = some (.picSetmask, []) ∧
    read [0x54] = some (.picEoi, []) ∧ read [0x55] = some (.kbdIsr, []) := by decide

theorem test_decode_foreground : read [0x60] = some (.intEnable, []) ∧ read [0x61] = some (.intDisable, []) ∧
    read [0x62] = some (.halt, []) ∧ read [0x63] = some (.mainStep, []) := by decide

/-- R62. -/
theorem test_decode_cursor : readIn .crtcCommand [0b00001110] = some (.crtcSelHi, []) ∧
    readIn .crtcCommand [0b00001111] = some (.crtcSelLo, []) ∧ readIn .crtcCommand [0x0A] = none ∧
    readIn (.crtcData true) [0x07] = some (.crtcDataHi 0x07, []) ∧
    readIn (.crtcData false) [0xCF] = some (.crtcDataLo 0xCF, []) := by decide

/-- R63, R65. -/
theorem test_decode_pic_command : readIn (.picCommand .master) [0b00010001] = some (.picIcw1 .master, []) ∧
    readIn (.picCommand .slave) [0b00100000] = some (.picEoiByte .slave, []) ∧
    readIn (.picCommand .master) [0x12] = none := by decide

/-- R63, R64. -/
theorem test_decode_pic_data : readIn (.picData .master .icw2) [0x20] = some (.picIcw2M 0x20, []) ∧
    readIn (.picData .slave .icw2) [0x28] = some (.picIcw2S 0x28, []) ∧
    readIn (.picData .master .icw3) [0x04] = some (.picIcw3M 0x04, []) ∧
    readIn (.picData .slave .icw3) [0x02] = some (.picIcw3S 0x02, []) ∧
    readIn (.picData .master .icw4) [0x01] = some (.picIcw4 .master 0x01, []) ∧
    readIn (.picData .slave .icw4) [0x01] = some (.picIcw4 .slave 0x01, []) ∧
    readIn (.picData .master .mask) [0b11111000] = some (.picMaskM 0xF8, []) ∧
    readIn (.picData .slave .mask) [0xFF] = some (.picMaskS 0xFF, []) := by decide

/-- R58: bit 7 is the release bit. -/
theorem test_decode_scancode : readIn .scancode [0b00011110] = some (.scPress 0x1E, []) ∧
    readIn .scancode [0b10011110] = some (.scRelease 0x1E, []) := by decide

/-- R53: bg 15:12, fg 11:8, ch 7:0, low byte first (R40). -/
theorem test_decode_cell : readIn .cell [0b01011000, 0b00011111] = some (.cell 1 15 0x58, []) := by decide

/-- R54. -/
theorem test_decode_attr : readIn .attr [0b00010111] = some (.attr 1 7, []) := by decide

/-- R60: offset_hi 63:48, attr 47:32, selector 31:16, offset_lo 15:0. -/
theorem test_decode_descriptor : readIn .descriptor [0x34, 0x12, 0x08, 0x00, 0x00, 0x8E, 0x10, 0x00] =
      some (.desc 0x0010 0x8E00 0x0008 0x1234, []) ∧
    readIn .descriptor [0, 0, 0, 0, 0, 0, 0, 0] = some (.descEmpty, []) := by decide

/-- R68 (a); truncation and the two rejections of the model's own operand layout. -/
theorem test_decode_rejects : decode [0x02] = .error (.unknownOperation 0x02) ∧ decode [0x00, 0xD4] = .error .truncated ∧
    decode [0x30, 0x9E, 0x20] = .error .reservedFlagBits ∧ decode [0x12, 0x80, 0x00, 0] = .error .overlongNatural := by
  refine ⟨rfl, rfl, rfl, rfl⟩

/-! ### Words as the opcode table numbers them -/

theorem test_table_words :
    (decodeTableWord 16 0x1F58 = some (.cell 1 15 0x58)) ∧
    (decodeTableWord 8 0x63 = some .mainStep) ∧
    (decodeTableWord 8 0x9E = some (.scRelease 0x1E)) ∧
    (decodeTableWord 64 0x00108E0000081234 = some (.desc 0x0010 0x8E00 0x0008 0x1234)) := by
  decide

/-! ### Small states -/

/-- A chip after its set-up (R63, R64). -/
def chip (base wiring imr : Byte) : Pic := ⟨true, 0, some base, some wiring, some 0x01, some imr, 0, 0⟩

/-- The table's live entry at 0x1000 + 8*0x21, byte by byte (V-I1, V-I4); the entry's other bytes are 0. -/
def liveEntry : List Host.Cell := [(0x1108, 0x34), (0x1109, 0x12), (0x110A, 0x08), (0x110D, 0x8E), (0x110E, 0x10)]

/-- After INT.INSTALL. -/
def setUp : State :=
  { State.reset with mem := liveEntry, idtr := some ⟨0x1000, 0x07FF⟩, picM := chip 0x20 0x04 0xF8, picS := chip 0x28 0x02 0xFF }

/-- A blank Terminal at a position, over a screen that shows nothing yet. -/
def terminalAt (row : Fin 25) (col : Nat) : State :=
  { State.reset with term := some ⟨row, col, 7, 0, Vector.replicate 2000 0x0720⟩ }

/-- One event in the queue. -/
def oneEvent (e : KeyEvent) (s : State) : State := { s with ring := s.ring.set 0 (some e), wr := 1 }

/-- A letter pressed, and let go. -/
def letter : KeyEvent := ⟨0x61, true, false, false, false, false⟩
def letterUp : KeyEvent := ⟨0x61, false, false, false, false, false⟩

/-- A console that has booted, its screen still as after power-on. -/
def console : State :=
  { setUp with term := some ⟨0, 0, 7, 0, Vector.replicate 2000 0x0720⟩, intFlag := true, mainLoop := true, queueBuilt := true }

/-- The same with a byte latched and its request pending (R114). -/
def pending : State := latchKey 0x1E console

/-! ### One step each -/

/-- V-IO1; V-IO3. -/
theorem test_outb :
    (seen (·.crtc) (exec (.outb 0x3D4 0x0E) State.reset) = some ⟨some 0x0E, none, none⟩) ∧
    (reasonOf (exec (.outb 0x3D4 0x0A) State.reset) = some .portProtocol) := by
  decide

/-- V-IO14; V-IO15. -/
theorem test_inb :
    (seen (fun s => (s.result, s.kbd, s.iotrace)) (exec (.inb 0x60) { State.reset with kbd := .full 0x9E }) =
    some (.byte 0x9E, .read 0x9E, [⟨.r, 0x60, 0x9E⟩])) ∧
    (faultOf (exec (.inb 0x60) State.reset) = some .kbdLatchEmpty) := by
  decide

theorem test_putglyphCfb : seen (fun s => (s.result, vram s 1999)) (exec (.putglyphCfb 0x58 15 1 79 24) State.reset) =
    some (.cell 0x1F58, some 0x1F58) := by decide  -- V-S7

/-- V-S9; V-S12. -/
theorem test_putglyphCell :
    (seen (fun s => (vram s 80, vram s 79)) (exec (.putglyphCell 0x1234 80 0) State.reset) =
    some (some 0x1234, none)) ∧
    (faultOf (exec (.putglyphCell 0x1234 80 24) State.reset) = some (.outOfWindow 2000)) := by
  decide

/-- V-S16; V-S18. -/
theorem test_setcursor :
    (seen (·.iotrace) (exec (.setcursor 79 24) State.reset) =
    some [⟨.w, 0x3D4, 0x0E⟩, ⟨.w, 0x3D5, 0x07⟩, ⟨.w, 0x3D4, 0x0F⟩, ⟨.w, 0x3D5, 0xCF⟩]) ∧
    (seen (·.crtc) (exec (.setcursor 0 820) State.reset) =
    some ⟨some 0x0F, some 0x00, some 0x40⟩) := by
  decide

/-- V-T1. -/
theorem test_termInit : ∃ t, exec .termInit State.reset = .next t ∧ vram t 0 = some 0x0720 ∧ vram t 1999 = some 0x0720 := by
  obtain ⟨a, h, ha, -, -⟩ :=
    (construct_ends between_undisturbed (s := State.reset) ⟨rfl, Config.default_wf, rfl⟩).completes
  obtain ⟨h1, -, h3⟩ := homed_spec State.reset
  have hs : ∀ k (hk : k < 2000), vram (painted State.reset (homed State.reset)) k = some 0x0720 := by
    intro k hk
    have := (h3 rfl).2 k hk
    simp only [ShowsAt, h1, blankTerminal, Vector.getElem_replicate] at this
    exact this
  refine ⟨a.setResult .none, ?_, ?_, ?_⟩
  · exact (congrArg (finish .none) h).trans rfl
  · exact (vram_congr (congrArg State.cfg ha) (congrArg State.mem ha)).trans (hs 0 (by omega))
  · exact (vram_congr (congrArg State.cfg ha) (congrArg State.mem ha)).trans (hs 1999 (by omega))

theorem test_termPutchar_wraps : seen (fun s => (vram s 79, s.term.map fun t => (t.row, t.col), s.crtc.cursorLo))
    (exec (.termPutchar 0x5A) (terminalAt 0 79)) = some (some 0x075A, some (1, 0), some 0x50) := by decide  -- V-T3

theorem test_termPutchar_newline :
    seen (fun s => (s.mem, s.term.map fun t => (t.row, t.col), s.crtc.cursorHi, s.crtc.cursorLo))
    (exec (.termPutchar 0x0A) (terminalAt 3 17)) = some ([], some (4, 0), some 0x01, some 0x40) := by decide  -- V-T4

/-- P1; V-T11. -/
theorem test_termWrite :
    (seen (fun s => (vram s 0, vram s 1, s.term.map fun t => (t.row, t.col), s.iotrace.length))
    (exec (.termWrite [0x41, 0x42, 0x0A]) (terminalAt 0 0)) = some (some 0x0741, some 0x0742, some (1, 0), 12)) ∧
    (reasonOf (exec (.termWrite [0x41]) State.reset) = some .terminalNotConstructed) := by
  decide

theorem test_termAddline : seen (fun s => (s.term.map fun t => (t.row, t.col), s.mem, s.iotrace))
    (exec .termAddline (terminalAt 2 0)) = some (some (3, 0), [], []) := by decide  -- V-T14

/-- V-D2; V-D5. -/
theorem test_kbdDecode :
    (seen (·.result) (exec (.kbdDecode 0x9E false false false false false) State.reset) =
    some (.event letterUp)) ∧
    (seen (·.result) (exec (.kbdDecode 0x7F true false false false false) State.reset) =
    some (.event ⟨0, true, false, false, false, false⟩)) := by
  decide

/-- V-Q10; V-Q3. -/
theorem test_queue_put :
    (reasonOf (exec .qInit { State.reset with queueBuilt := true }) = some .queueReinit) ∧
    (seen (fun s => (s.wr, s.ring[1023])) (exec (.qPut letter) { State.reset with wr := 1023 }) =
    some (0, some letter)) := by
  decide +kernel

/-- R88, R44, R48: an interrupt that falls into Q.INIT behind its write of WR has its event cleared. -/
theorem test_queue_init : seen (fun s => (s.queueBuilt, s.rd, s.wr, s.ring[0], s.kbd))
    (exec .qInit { pending with queueBuilt := false, rd := 7, wr := 9, sched := [.go, .deliver []] }) =
    some (true, 0, 1, none, .read 0x1E) := by decide +kernel

/-- V-Q7; V-Q4; V-Q2. -/
theorem test_queue_take :
    (seen (fun s => (s.result, s.rd)) (exec .qRead (oneEvent letter State.reset)) =
    some (.event letter, 1)) ∧
    (faultOf (exec .qRead State.reset) = some (.unwrittenSlot 0)) ∧
    (seen (·.result) (exec .qIsempty (oneEvent letter State.reset)) = some (.bool false)) := by
  decide

/-- V-I4, over the 48 entries of V-X8. -/
theorem test_idtBuild : seen (fun s => (s.mem, idtEntry s 0x21, idtEntry s 0x20))
    (exec (.idtBuild 0x00101234) { State.reset with cfg := { Config.default with idtEntries := 48 } }) =
    some (liveEntry, some 0x00108E0000081234, some 0) := by decide +kernel

theorem test_idtLoad : seen (·.idtr) (exec .idtLoad State.reset) = some (some ⟨0x1000, 0x07FF⟩) := by decide  -- V-I5

/-- V-I7; V-I10. -/
theorem test_picInit :
    (seen (fun s => (s.picM, s.picS)) (exec .picInit State.reset) =
    some ({ chip 0x20 0x04 0 with imr := none }, { chip 0x28 0x02 0 with imr := none })) ∧
    (reasonOf (exec .picInit { State.reset with intFlag := true }) =
    some .setupWithInterruptsOn) := by
  decide

/-- V-I8; V-I12. -/
theorem test_picSetmask_picEoi :
    (seen (fun s => (s.picM.imr, s.picS.imr)) (exec .picSetmask setUp) = some (some 0xF8, some 0xFF)) ∧
    (seen (fun s => (s.picM.insvc, s.iotrace))
    (exec .picEoi { setUp with picM := { setUp.picM with insvc := 0b00000010 } }) =
    some (0, [⟨.w, 0x20, 0x20⟩, ⟨.w, 0xA0, 0x20⟩])) := by
  decide

theorem test_kbdIsr : seen (fun s => (s.mods, s.wr, s.ring[0])) (exec .kbdIsr { setUp with kbd := .full 0x2A }) =
    some (⟨true, false, false, false⟩, 1, some ⟨0, true, true, false, false, false⟩) := by decide  -- V-I13

/-- R104; V-F7. -/
theorem test_intEnable :
    (seen (·.intFlag) (exec .intEnable setUp) = some true) ∧
    (reasonOf (exec .intEnable State.reset) = some .enableBeforeSetup) := by
  decide

/-- R105; R106. -/
theorem test_intDisable_halt :
    (seen (·.intFlag) (exec .intDisable console) = some false) ∧
    (seen (·.halted) (exec .halt State.reset) = some true) := by
  decide

/-- V-F2; V-F3. -/
theorem test_mainStep :
    (seen (fun s => (s.rd, vram s 0, s.term.map fun t => (t.row, t.col)))
    (exec .mainStep (oneEvent letter (terminalAt 0 0))) = some (1, some 0x0761, some (0, 1))) ∧
    (seen (fun s => (s.rd, s.mem, s.iotrace)) (exec .mainStep (oneEvent letterUp (terminalAt 0 0))) =
    some (1, [], [])) := by
  decide

/-- R62, R75: the four cursor bytes, each where it stands. -/
theorem test_cursor_bytes :
    seen (·.crtc.index) (exec .crtcSelHi State.reset) = some (some 0x0E) ∧
    seen (·.crtc.index) (exec .crtcSelLo State.reset) = some (some 0x0F) ∧
    seen (·.crtc) (exec (.crtcDataHi 0x07) { State.reset with crtc := ⟨some 0x0E, none, none⟩ }) =
      some ⟨some 0x0E, some 0x07, none⟩ ∧
    seen (·.crtc) (exec (.crtcDataLo 0xCF) { State.reset with crtc := ⟨some 0x0F, none, none⟩ }) =
      some ⟨some 0x0F, none, some 0xCF⟩ := by decide

/-- V-IO2; V-IO12. -/
theorem test_device_refusals :
    (reasonOf (exec (.crtcDataHi 0x12) State.reset) = some .portProtocol) ∧
    (reasonOf (exec (.picIcw1 .master) console) = some .portProtocol) := by
  decide

/-- R63, V-IO5, V-IO6. -/
theorem test_pic_sequence :
    seen (·.picM) (exec (.picIcw1 .master) { setUp with picM := { setUp.picM with irr := 0x02 } }) =
      some ⟨false, 3, some 0x20, some 0x04, some 0x01, none, 0x02, 0⟩ ∧
    seen (·.picM.base) (exec (.picIcw2M 0x20) { State.reset with picM := { Pic.reset with step := 3 } }) = some (some 0x20) ∧
    seen (·.picS.base) (exec (.picIcw2S 0x28) { State.reset with picS := { Pic.reset with step := 3 } }) = some (some 0x28) ∧
    seen (·.picM.icw3) (exec (.picIcw3M 0x04) { State.reset with picM := { Pic.reset with step := 2 } }) = some (some 0x04) ∧
    seen (·.picS.icw3) (exec (.picIcw3S 0x02) { State.reset with picS := { Pic.reset with step := 2 } }) = some (some 0x02) ∧
    seen (·.picM) (exec (.picIcw4 .master 0x01) { State.reset with picM := { Pic.reset with step := 1 } }) =
      some { Pic.reset with step := 0, icw4 := some 0x01, configured := true } := by decide

theorem test_pic_masks : seen (·.picM.imr) (exec (.picMaskM 0xF8) setUp) = some (some 0xF8) ∧
    seen (·.picS.imr) (exec (.picMaskS 0xFF) setUp) = some (some 0xFF) ∧
    reasonOf (exec (.picMaskM 0xF8) State.reset) = some .portProtocol := by decide  -- V-IO7, V-IO4

theorem test_picEoiByte : seen (·.picM.insvc)
    (exec (.picEoiByte .master) { setUp with picM := { setUp.picM with insvc := 0b00000011 } }) = some 0b00000010 := by
  decide  -- V-IO9

/-- V-X3; V-X1. -/
theorem test_scancodes :
    (seen (fun s => (s.kbd, s.picM.irr, s.keys)) (exec (.scPress 0x1E) State.reset) =
    some (.full 0x1E, 0b00000010, [])) ∧
    (seen (fun s => (s.kbd, s.keys)) (exec (.scRelease 0x1E) { State.reset with kbd := .full 0x1E }) =
    some (.full 0x1E, [0x9E])) := by
  decide

theorem test_formats : seen (·.result) (exec (.cell 15 0 0xFF) State.reset) = some (.cell 0xF0FF) ∧
    seen (·.result) (exec (.attr 1 7) State.reset) = some (.byte 0x17) ∧
    seen (·.result) (exec (.desc 0x0010 0x8E00 0x0008 0x1234) State.reset) = some (.descriptor 0x00108E0000081234) ∧
    seen (·.result) (exec .descEmpty State.reset) = some (.descriptor 0) := by decide  -- V-S4, R54, V-I1, R60

/-! ### The machine's step -/

theorem test_step_placed :
    (seen (·.halted) (step (State.reset.withFetchWord 8 0x62)) = some true) ∧
    (seen (·.result) (step (State.reset.withFetchWord 16 0x1F58)) = some (.cell 0x1F58)) := by
  decide

/-- P7; V-IO17. -/
theorem test_step_refuses :
    (reasonOf (step { State.reset with stream := [0x7F] }) = some (.unknownOperation 0x7F)) ∧
    (reasonOf (step { State.reset with stream := [0x01, 0x60, 0x00] }) = some .wrongContext) := by
  decide

theorem test_step_delivers : seen (fun s => (s.picM, s.ring[0], s.intFlag, s.ctx)) (step pending) =
    some (chip 0x20 0x04 0xF8, some letter, true, .fg) := by decide  -- V-X2

/-- V-X4. -/
theorem test_step_timer :
    faultOf (step { console with cfg := { Config.default with envTimerAsserts := true },
                                 picM := { console.picM with irr := 0b00000001 } }) = some (.vectorNotPresent 0x20) := by
  decide

/-- R111: the five codes. -/
theorem test_fault_codes : [FaultCode.outOfWindow 0, .unwrittenSlot 0, .kbdLatchEmpty, .vectorNotPresent 0,
    .vectorOutOfTable 0].map faultNumber = [1, 2, 3, 4, 5] := by decide

/-- R111, R120: the environment goes on past a fault of the foreground's, and nothing is delivered. -/
theorem test_step_faulted :
    (seen (fun s => (s.kbd, s.fault)) (step { console with fault := some (.outOfWindow 2000), keys := [0x1E] }) =
    some (.full 0x1E, some (.outOfWindow 2000))) ∧
    (faultOf (step { pending with fault := some (.outOfWindow 2000) }) = some (.outOfWindow 2000)) := by
  decide

/-- R17, R111: a character in the last column, whose scroll is stopped by an interrupt without a vector, leaves COL = 80. -/
theorem test_column_80 : (match exec (.termPutchar 0x41) { console with
      cfg := { Config.default with envTimerAsserts := true }
      term := some ⟨24, 79, 7, 0, Vector.replicate 2000 0x0720⟩
      sched := [.go, .env .tick, .deliver []] } with
    | .fault (.vectorNotPresent v s) => (v, s.term.map (·.col))
    | _ => (0, none)) = (0x20, some 80) := by decide

/-- V-F8. -/
theorem test_step_stuck : step { console with halted := true, intFlag := false, sched := [.go] } =
    .fault (.stuckHalt { console with halted := true, intFlag := false, sched := [] }) := rfl

/-! ### Witnesses: a state and operands for the hypotheses of each statement, clause by clause -/

theorem console_inv : Inv console where
  config := Config.default_wf
  memory := by decide
  foreground := rfl
  noWork := rfl
  running := ⟨rfl, rfl⟩
  master := ⟨fun _ => ⟨rfl, rfl, rfl, rfl⟩, fun _ => rfl, fun _ => rfl, fun _ => rfl⟩
  slave := ⟨fun _ => ⟨rfl, rfl, rfl, rfl⟩, fun _ => rfl, fun _ => rfl, fun _ => rfl⟩
  enabled := fun _ => by decide
  service := ⟨rfl, rfl, rfl⟩
  table := fun t h => (Option.some.inj h).symm.trans (by decide)
  colours := fun t h => by cases Option.some.inj h; exact ⟨rfl, rfl⟩
  cursor := fun t h => by cases Option.some.inj h; exact Nat.zero_lt_succ _

theorem console_booted : Booted console where
  toSound := console_inv.toSound
  queue := queueSound_reset.congr rfl rfl rfl
  interruptsOn := rfl
  built := rfl
  timerSilent := rfl
  loaded := by decide
  live := by decide
  routed := ⟨rfl, rfl⟩
  onlyKeyboard := fun l h => absurd h (by simp [console, setUp, chip])
  latch := fun h => absurd h (by simp [console, setUp, chip])
  looping := ⟨rfl, rfl⟩
  cursor := console_inv.cursor

variable {s : State}

theorem booted_setKeys (h : Booted s) (ks : List Byte) : Booted (s.setKeys ks) :=
  { h with }

theorem booted_latchKey (h : Booted s) (hk : s.keys = []) (hf : kbdFull s = false) (b : Byte) : Booted (latchKey b s) := by
  have hp : presentKey (s.setKeys [b]) = latchKey b s := by
    have hf' : kbdFull (s.setKeys [b]) = false := hf
    have hs : s.setKeys [] = s := by rw [State.setKeys, ← hk]
    simp only [presentKey, State.setKeys_keys, hf', Bool.false_eq_true, if_false, State.setKeys_setKeys, hs]
  exact hp ▸ (booted_setKeys h [b]).of_running ((booted_setKeys h [b]).toRunning.envAct .key) (envAct_kept .key _)

theorem pending_booted : Booted pending := booted_latchKey console_booted rfl rfl 0x1E

/-- A console whose screen shows the Terminal's grid. -/
def shown : State := painted console (homed console)

theorem painted_homed_wf (h : Memory.wf s.cfg s.mem = true) :
    Memory.wf (painted s (homed s)).cfg (painted s (homed s)).mem = true := ((homed_spec s).2.2 h).1

theorem painted_homed_mirrored (h : Memory.wf s.cfg s.mem = true) : Mirrored (painted s (homed s)) :=
  mirrored_painted.2 ((homed_spec s).2.2 h).2

theorem painted_homed_booted (h : Booted s) : Booted (painted s (homed s)) := by
  obtain ⟨u, -, hu, hb⟩ := (construct_ends between_running (s := s) (u := s) ⟨.refl _, h.toRunning⟩).completes
  have hl := hb.live
  rw [hu.cfg] at hl
  refine { h with
    memory := ((homed_spec s).2.2 h.memory).1
    colours := fun t ht => ?_
    built := rfl
    live := (idtEntry_congr hu.cfg.symm hu.mem.symm).trans hl
    cursor := fun t ht => ?_ }
  all_goals
    have h' : (homed s).1 = t := Option.some.inj ht
    rw [← h', (homed_spec s).1]
  · exact ⟨rfl, rfl⟩
  · exact Nat.zero_lt_succ _

theorem shown_mirrored : Mirrored shown := painted_homed_mirrored console_inv.memory

theorem shown_memory : Memory.wf shown.cfg shown.mem = true := painted_homed_wf console_inv.memory

theorem shown_booted : Booted shown := painted_homed_booted console_booted

/-- On a booted console TERM.PUTCHAR and MAIN.STEP complete. -/
theorem booted_putchar (h : Booted s) (ch : Byte) : ∃ u, exec (.termPutchar ch) s = .next u := by
  obtain ⟨u, hu, -⟩ := h.putChar ch
  exact ⟨u.setResult .none, congrArg (finish .none) hu⟩

theorem idle_mainStep (hu : Undisturbed s) (he : s.rd = s.wr) : ∃ u, exec .mainStep s = .next u := by
  refine ⟨(haltForeground s).setResult .none, ?_⟩
  simp only [exec, execMainStep, mainTurn, queueIsEmpty, boundary_undisturbed hu, andThen_next, he, decide_true, if_true,
    finish_next]

theorem witness_DecodeEncodeAgree : Config.default.wf = true ∧ WellFormed (.desc 0 0x8000 0 0) = true :=
  ⟨Config.default_wf, rfl⟩

theorem witness_DecodedBytesAreTheEncoding :
    decodeIn Config.default .operation [0x12, 0xCF, 0x0F, 0, 0x63] = .ok (.setcursor 1999 0, [0x63]) := rfl

theorem witness_OffsetAndItsBytes : 79 < 80 ∧ 24 < 25 ∧ cellOffset 79 24 = 1999 ∧ cellOffset 0 820 = 65600 := by decide

/-- The display controller's protocol: high selected, low selected, neither. -/
def atHigh : State := { State.reset with crtc := ⟨some 0x0E, none, none⟩ }
def atLow : State := { State.reset with crtc := ⟨some 0x0F, none, none⟩ }

theorem witness_OutbDrivesCursorPorts : State.reset.cfg.wf = true ∧
    (0x0E = Config.default.cursorSelHi ∧ 0x0F = Config.default.cursorSelLo) ∧
    (0x10 ≠ Config.default.cursorSelHi ∧ 0x10 ≠ Config.default.cursorSelLo) ∧
    atHigh.crtc.index = some atHigh.cfg.cursorSelHi ∧ atLow.crtc.index = some atLow.cfg.cursorSelLo ∧
    (State.reset.crtc.index ≠ some Config.default.cursorSelHi ∧ State.reset.crtc.index ≠ some Config.default.cursorSelLo) :=
  ⟨Config.default_wf, by decide, by decide, rfl, rfl, by decide⟩

theorem witness_OutbDrivesControllerCommand (c : Chip) : setUp.cfg.wf = true ∧
    (0x11 = setUp.cfg.icw1 ∧ setUp.intFlag = false) ∧ (0x11 = console.cfg.icw1 ∧ console.intFlag = true) ∧
    (0x20 = setUp.cfg.eoiByte ∧ (pic setUp c).configured = true) ∧
    (0x20 = State.reset.cfg.eoiByte ∧ (pic State.reset c).configured = false) ∧
    (0x12 ≠ setUp.cfg.icw1 ∧ 0x21 ≠ setUp.cfg.eoiByte) :=
  ⟨Config.default_wf, ⟨rfl, rfl⟩, ⟨rfl, rfl⟩, ⟨rfl, by cases c <;> rfl⟩, ⟨rfl, by cases c <;> rfl⟩, by decide⟩

/-- Both chips at a place of their sequence. -/
def atStep (n : Fin 4) : State :=
  { State.reset with picM := { Pic.reset with step := n }, picS := { Pic.reset with step := n } }

theorem witness_OutbDrivesControllerData (c : Chip) : State.reset.cfg.wf = true ∧ (pic (atStep 3) c).step = 3 ∧
    (pic (atStep 2) c).step = 2 ∧ (pic (atStep 1) c).step = 1 ∧
    ((pic setUp c).step = 0 ∧ (pic setUp c).configured = true) ∧
    ((pic State.reset c).step = 0 ∧ (pic State.reset c).configured = false) := by
  refine ⟨Config.default_wf, ?_⟩
  cases c <;> exact ⟨rfl, rfl, rfl, ⟨rfl, rfl⟩, rfl, rfl⟩

theorem witness_OutbElsewhereRefused : State.reset.cfg.wf = true ∧ legalPort State.reset.cfg 0x0080 = false ∧
    legalPort State.reset.cfg 0xFFFF = false ∧ 0x60 = State.reset.cfg.kbdDataPort :=
  ⟨Config.default_wf, by decide, by decide, rfl⟩

theorem witness_OutbRunsTheDeviceRow :
    (portSpace atHigh 0x3D5 = some (.crtcData true) ∧ decodeIn atHigh.cfg (.crtcData true) [0x07] = .ok (.crtcDataHi 0x07, [])) ∧
    (portSpace (atStep 1) 0xA1 = some (.picData .slave .icw4) ∧
      decodeIn (atStep 1).cfg (.picData .slave .icw4) [0x01] = .ok (.picIcw4 .slave 0x01, [])) ∧
    portSpace State.reset 0x80 = none ∧ portSpace State.reset 0x3D5 = none := by
  refine ⟨⟨by decide, rfl⟩, ⟨by decide, rfl⟩, by decide, by decide⟩

theorem witness_DeviceRowsReact (c : Chip) :
    atHigh.crtc.index = some atHigh.cfg.cursorSelHi ∧ atLow.crtc.index = some atLow.cfg.cursorSelLo ∧
    State.reset.intFlag = false ∧ ((atStep 3).picM.step = 3 ∧ (atStep 3).picS.step = 3) ∧
    ((atStep 2).picM.step = 2 ∧ (atStep 2).picS.step = 2) ∧ (pic (atStep 1) c).step = 1 ∧
    (setUp.picM.step = 0 ∧ setUp.picM.configured = true) ∧ (setUp.picS.step = 0 ∧ setUp.picS.configured = true) ∧
    (pic setUp c).configured = true := by
  cases c <;> exact ⟨rfl, rfl, rfl, ⟨rfl, rfl⟩, ⟨rfl, rfl⟩, rfl, ⟨rfl, rfl⟩, ⟨rfl, rfl⟩, rfl⟩

theorem witness_MisplacedDeviceRowsRefused (c : Chip) :
    atLow.crtc.index ≠ some atLow.cfg.cursorSelHi ∧ atHigh.crtc.index ≠ some atHigh.cfg.cursorSelLo ∧
    console.intFlag = true ∧ ((atStep 2).picM.step ≠ 3 ∧ (atStep 2).picS.step ≠ 3) ∧
    ((atStep 3).picM.step ≠ 2 ∧ (atStep 1).picS.step ≠ 2) ∧ (pic (atStep 2) c).step ≠ 1 ∧ (pic State.reset c).step ≠ 1 ∧
    (atStep 1).picM.step ≠ 0 ∧ State.reset.picM.configured = false ∧ (atStep 3).picS.step ≠ 0 ∧
    State.reset.picS.configured = false ∧ (pic State.reset c).configured = false := by
  cases c <;> decide

theorem witness_EoiClearsTheLowestLine :
    (BitVec.getLsbD 0b00000011#8 (0 : Line).val = true ∧ ∀ j : Line, j < 0 → BitVec.getLsbD 0b00000011#8 j.val = false) ∧
    (BitVec.getLsbD 0b10000000#8 (7 : Line).val = true ∧ ∀ j : Line, j < 7 → BitVec.getLsbD 0b10000000#8 j.val = false) := by
  decide

theorem witness_InbTakesTheLatchedByte : pending.kbd = .full 0x1E ∧ kbdFull State.reset = false ∧
    kbdFull { pending with kbd := .read 0x1E } = false ∧ 0x61 ≠ State.reset.cfg.kbdDataPort :=
  ⟨rfl, rfl, rfl, by decide⟩

theorem witness_PutglyphStoresOneCell : Memory.wf State.reset.cfg State.reset.mem = true ∧ 24 * 80 + 79 < 2000 ∧
    0 * 80 + 1999 < 2000 := ⟨rfl, by decide, by decide⟩

theorem witness_PutglyphOutsideFaults : 2000 ≤ 24 * 80 + 80 ∧ 2000 ≤ 0 * 80 + 2000 ∧ 25 ≤ 25 := by decide

theorem witness_SetcursorSendsTheOffset : State.reset.cfg.wf = true ∧ Undisturbed State.reset := ⟨Config.default_wf, rfl⟩

theorem witness_TermInitBlanksTheScreen : State.reset.cfg.wf = true ∧ Memory.wf State.reset.cfg State.reset.mem = true ∧
    Undisturbed State.reset := ⟨Config.default_wf, rfl, rfl⟩

/-- TERM.PUTCHAR's and TERM.WRITE's hypotheses, the ones on the screen and on the place included. -/
theorem witness_TermPutcharWrites : (shown.cfg.wf = true ∧ Undisturbed shown ∧ shown.term = some (homed console).1 ∧
    (homed console).1.col < 80 ∧ Memory.wf shown.cfg shown.mem = true ∧ Mirrored shown ∧
    (homed console).1.row ≠ 24 ∧ (homed console).1.col + 1 < 80 ∧ 0x0A = shown.cfg.newline ∧ 0x41 ≠ shown.cfg.newline) ∧
    ((terminalAt 24 79).term = some ⟨24, 79, 7, 0, Vector.replicate 2000 0x0720⟩ ∧ 79 + 1 = 80 ∧
      Memory.wf (terminalAt 24 79).cfg (terminalAt 24 79).mem = true) ∧
    ¬ inWindow shown.cfg 0xB7FFF ∧ ¬ inWindow shown.cfg 0xB8FA0 := by
  have hh := (homed_spec console).1
  refine ⟨⟨shown_booted.config, rfl, rfl, ?_, shown_memory, shown_mirrored, ?_, ?_, rfl, by decide⟩,
    ⟨rfl, rfl, rfl⟩, by unfold inWindow; decide, by unfold inWindow; decide⟩ <;> rw [hh] <;> simp [blankTerminal]

theorem witness_TermAddlineMovesOrScrolls :
    (terminalAt 23 7).cfg.wf = true ∧ Undisturbed (terminalAt 23 7) ∧ (23 : Fin 25).val + 1 < 25 ∧
    (terminalAt 24 79).term = some ⟨24, 79, 7, 0, Vector.replicate 2000 0x0720⟩ ∧
    Memory.wf (terminalAt 24 79).cfg (terminalAt 24 79).mem = true :=
  ⟨Config.default_wf, rfl, by decide, rfl, rfl⟩

theorem witness_TermWriteIsCharByChar : shown.cfg.wf = true ∧ Undisturbed shown ∧ shown.term = some (homed console).1 ∧
    (homed console).1.col < 80 ∧ ([] : List Byte) = [] ∧ [0x41] ≠ ([] : List Byte) ∧ Mirrored shown :=
  ⟨shown_booted.config, rfl, rfl, shown_booted.cursor _ rfl, rfl, List.cons_ne_nil _ _, shown_mirrored⟩

theorem witness_CharactersWrapByColumn :
    (∀ n, ∀ ch ∈ List.replicate n (0x58 : Byte), ch ≠ Config.default.newline) ∧ (List.replicate 80 (0x58 : Byte)).length = 80 ∧
    (List.replicate 1999 (0x58 : Byte)).length < 2000 ∧ (List.replicate 2000 (0x58 : Byte)).length = 2000 ∧
    (23 : Fin 25).val + 1 < 25 := by
  refine ⟨fun n ch h => ?_, List.length_replicate, ?_, List.length_replicate, by decide⟩
  · rw [List.eq_of_mem_replicate h]
    decide
  · rw [List.length_replicate]; omega

theorem witness_TerminalMustBeConstructed : State.reset.term = none := rfl

theorem witness_ScreenMirrorsTheGrid : shown.cfg.wf = true ∧ Memory.wf shown.cfg shown.mem = true ∧ CursorInGrid shown ∧
    Mirrored shown ∧
    (∃ u, exec (.termPutchar 0x0A) shown = .next u) ∧ ∃ u, exec .mainStep shown = .next u :=
  ⟨shown_booted.config, shown_memory, shown_booted.cursor, shown_mirrored, booted_putchar shown_booted 0x0A, idle_mainStep rfl rfl⟩

theorem witness_DisplayIgnoresTheSchedule : pending.cfg.wf = true ∧ CursorInGrid pending ∧
    (∃ t, exec (.setcursor 79 24) { pending with sched := [.deliver [], .go, .env .tick] } = .next t ∧ t.wr = 1) ∧
    ∃ u, exec (.setcursor 79 24) { pending with sched := [] } = .next u :=
  ⟨Config.default_wf, pending_booted.cursor, ⟨_, rfl, by decide⟩, ⟨_, rfl⟩⟩

theorem witness_ModifierUpdate : Config.default.modifiersDistinct = true ∧
    BitVec.extractLsb' 0 7 (0x2A : Byte) = Config.default.scLshift ∧ BitVec.extractLsb' 0 7 (0xB6 : Byte) = Config.default.scRshift ∧
    BitVec.extractLsb' 0 7 (0x1D : Byte) = Config.default.scCtrl ∧ BitVec.extractLsb' 0 7 (0xB8 : Byte) = Config.default.scAlt ∧
    (BitVec.extractLsb' 0 7 (0xFF : Byte) ≠ Config.default.scLshift ∧ BitVec.extractLsb' 0 7 (0xFF : Byte) ≠ Config.default.scRshift ∧
      BitVec.extractLsb' 0 7 (0xFF : Byte) ≠ Config.default.scCtrl ∧ BitVec.extractLsb' 0 7 (0xFF : Byte) ≠ Config.default.scAlt) := by
  decide

theorem witness_LeftShiftDownThenUp : Config.default.modifiersDistinct = true ∧
    ∀ b ∈ ([0x36, 0x1E, 0xB6] : List Byte), b.extractLsb' 0 7 ≠ Config.default.scLshift := by decide

theorem witness_KbdIsrServesOneByte : pending.cfg.wf = true ∧ pending.kbd = .full 0x1E ∧ pending.picM.configured = true ∧
    pending.picS.configured = true ∧ kbdFull State.reset = false := ⟨Config.default_wf, rfl, rfl, rfl, rfl⟩

theorem witness_ScancodesArriveOrWait : (State.reset.keys = [] ∧ kbdFull State.reset = false) ∧ kbdFull pending = true ∧
    ({ State.reset with keys := [0x2A] }.keys = [0x2A] ∧ kbdFull { State.reset with keys := [0x2A] } = false) :=
  ⟨⟨rfl, rfl⟩, rfl, rfl, rfl⟩

theorem witness_QInitEmptiesOnce : State.reset.queueBuilt = false ∧ Undisturbed State.reset ∧ State.reset.intFlag = false ∧
    State.reset.cfg.wf = true ∧ (∃ t, exec .qInit State.reset = .next t) ∧ console.queueBuilt = true :=
  ⟨rfl, rfl, rfl, Config.default_wf, ⟨_, execQInit_undisturbed rfl rfl⟩, rfl⟩

theorem witness_QReadAndIsempty : Undisturbed State.reset ∧ slot (oneEvent letter State.reset) 0 = some letter ∧
    slot State.reset 1023 = none := ⟨rfl, by decide +kernel, by decide +kernel⟩

theorem witness_QueueKeepsItsHistory : Undisturbed (oneEvent letter State.reset) ∧ 0 < [letter].length ∧
    [letter].length ≤ 0 + 1024 ∧ (oneEvent letter State.reset).queueBuilt = false ∧
    QueueHistory [letter] 0 (oneEvent letter State.reset) := by
  refine ⟨rfl, by decide, by decide, rfl, rfl, rfl, fun i => ?_⟩
  simp only [oneEvent, Vector.getElem_set, State.reset, Vector.getElem_replicate, latest, List.length_singleton]
  split_ifs with h1 h2
  · rw [← h1]; rfl
  · omega
  · omega
  · rfl

theorem witness_QueueIsFifo : Undisturbed { State.reset with rd := 1023, wr := 1023 } ∧
    (List.replicate 1024 letter).length ≤ 1024 :=
  ⟨rfl, List.length_replicate.le⟩

theorem witness_IdtBuildMakesOneEntryLive : State.reset.cfg.wf = true ∧ Memory.wf State.reset.cfg State.reset.mem = true ∧
    State.reset.intFlag = false ∧ 255 < State.reset.cfg.idtEntries ∧ 255 ≠ State.reset.cfg.kbdVector.toNat ∧
    ¬ inTable State.reset.cfg 0x0FFF ∧ ¬ inTable State.reset.cfg 0x1800 :=
  ⟨Config.default_wf, rfl, rfl, by decide, by decide, by unfold inTable; decide, by unfold inTable; decide⟩

theorem witness_ProcessorOperations : State.reset.cfg.wf = true ∧ State.reset.intFlag = false ∧ setUp.idtr ≠ none ∧
    setUp.picM.configured = true ∧ setUp.picS.configured = true ∧ setUp.picM.imr ≠ none ∧ setUp.picS.imr ≠ none :=
  ⟨Config.default_wf, rfl, Option.some_ne_none _, rfl, rfl, Option.some_ne_none _, Option.some_ne_none _⟩

theorem witness_PicInitConfiguresBothChips : State.reset.cfg.wf = true ∧ State.reset.intFlag = false ∧
    Undisturbed State.reset := ⟨Config.default_wf, rfl, rfl⟩

theorem witness_PicMaskAndAcknowledge : setUp.cfg.wf = true ∧ setUp.picM.configured = true ∧ setUp.picS.configured = true ∧
    Undisturbed setUp ∧ setUp.picM.step = 0 ∧ setUp.picS.step = 0 := ⟨Config.default_wf, rfl, rfl, rfl, rfl, rfl⟩

theorem witness_SetupOrderIsEnforced : console.intFlag = true ∧
    (State.reset.idtr = none ∧ State.reset.picM.configured = false ∧ State.reset.picS.configured = false ∧
      State.reset.picM.imr = none ∧ State.reset.picS.imr = none) ∧ State.reset.cfg.wf = true ∧ State.reset.picM.step = 0 :=
  ⟨rfl, ⟨rfl, rfl, rfl, rfl, rfl⟩, Config.default_wf, rfl⟩

theorem witness_MainStepHaltsOrForwards : Undisturbed console ∧ console.rd = console.wr ∧
    ((oneEvent letterUp console).rd ≠ (oneEvent letterUp console).wr ∧ slot (oneEvent letterUp console) 0 = some letterUp ∧
      letterUp.pressed = false) ∧
    (slot (oneEvent { letter with ch := 0 } console) 0 = some { letter with ch := 0 } ∧ { letter with ch := 0 }.ch = 0) ∧
    (slot (oneEvent letter console) 0 = some letter ∧ letter.pressed = true ∧ letter.ch ≠ 0) :=
  ⟨rfl, rfl, ⟨by decide, by decide, rfl⟩, ⟨by decide, rfl⟩, by decide, rfl, by decide⟩

theorem witness_LostWakeupHappens : let s : State := pending.setSched [.go, .go, .deliver []]
    Booted s ∧ s.rd = s.wr ∧ s.halted = false ∧ s.kbd = .full 0x1E ∧ s.picM.irr.getLsbD s.cfg.kbdLine.val = true ∧
    s.keys = [] ∧ s.sched = [.go, .go, .deliver []] :=
  ⟨{ pending_booted with }, rfl, rfl, rfl, by decide, rfl, rfl⟩

theorem witness_HaltedAndMaskedIsStuck :
    let s : State := { console with halted := true }
    let m : State := { s with intFlag := false }
    (s.fault = none ∧ s.refusal = none ∧ s.work = [] ∧ s.ctx = .fg ∧ s.halted = true ∧ s.intFlag = true ∧ s.cfg.wf = true ∧
      s.sched = [] ∧ s.keys = [] ∧ kbdFull { pending with halted := true } = true ∧ deliverable s = none ∧
      { s with sched := [.go] }.sched = .go :: [] ∧ ∃ t, step { pending with halted := true } = .next t) ∧
    m.intFlag = false ∧ m.sched = [] ∧ m.keys = [] ∧ { m with sched := [.go] }.sched = .go :: [] ∧
    ∃ t, step { m with keys := [0x1E] } = .next t :=
  ⟨⟨rfl, rfl, rfl, rfl, rfl, rfl, Config.default_wf, rfl, rfl, rfl, by decide, rfl, _, rfl⟩, rfl, rfl, rfl, rfl, _, rfl⟩

theorem witness_DeliverableIsTheLowestReadyLine : (deliverable pending = some 1 ∧ pending.sched = [] ∧
      kbdFull pending = true) ∧ deliverable console = none ∧
    ({ pending with sched := [.deliver [.tick], .go] }.sched = .deliver [.tick] :: [.go] ∧ pending.fault = none ∧
      pending.refusal = none ∧ pending.work = [] ∧ pending.ctx = .fg) :=
  ⟨⟨by decide, rfl, rfl⟩, by decide, rfl, rfl, rfl, rfl, rfl⟩

theorem witness_InterruptIsServed : pending.cfg.wf = true ∧ pending.kbd = .full 0x1E ∧ pending.picM.configured = true ∧
    pending.picS.configured = true ∧ pending.picM.base = some 0x20 ∧ pending.idtr = some ⟨0x1000, 0x07FF⟩ ∧
    8 * ((0x20 : Byte).toNat + (1 : Line).val) + 7 ≤ (0x07FF : BitVec 16).toNat ∧
    (0x20 : Byte).toNat + (1 : Line).val < pending.cfg.idtEntries ∧
    idtEntry pending ((0x20 : Byte).toNat + (1 : Line).val) = some (mkdesc pending.cfg pending.cfg.handlerAddr) ∧
    { pending with keys := [0x9E] }.keys = 0x9E :: [] :=
  ⟨Config.default_wf, rfl, rfl, rfl, rfl, rfl, by decide, by decide, by decide, rfl⟩

theorem witness_DeliveryStopsAreAsWritten : pending.picM.base = some 0x20 ∧ { pending with idtr := none }.idtr = none ∧
    (270 : Nat) < 8 * ((0x20 : Byte).toNat + (1 : Line).val) + 7 ∧ pending.idtr = some ⟨0x1000, 0x07FF⟩ ∧
    8 * ((0x20 : Byte).toNat + (7 : Line).val) + 7 ≤ (0x07FF : BitVec 16).toNat ∧ idtEntry pending 0x20 = some 0 ∧
    (idtEntry { pending with cfg := { Config.default with handlerAddr := 0 } } 0x21 = some 0x00108E0000081234 ∧
      0x00108E0000081234 ≠ mkdesc { Config.default with handlerAddr := 0 } 0) :=
  ⟨rfl, rfl, by decide, rfl, by decide, by decide, by decide, by decide⟩

theorem witness_InterruptsKeepTheForeground : pending.cfg.wf = true ∧ (∃ t, takeInterrupt 1 [.key] pending = .next t) ∧
    ∃ t, boundary { pending with sched := [.deliver [.tick], .go] } = .next t ∧ t.wr = 1 :=
  ⟨Config.default_wf, ⟨_, rfl⟩, ⟨_, rfl, by decide⟩⟩

theorem witness_TickAssertsTheTimerLine : console.cfg.envTimerAsserts = false ∧
    ({ console with cfg := { Config.default with envTimerAsserts := true } } : State).cfg.envTimerAsserts = true ∧
    ({ console with keys := [0x9E] }.keys = 0x9E :: [] ∧ kbdFull { console with keys := [0x9E] } = false) ∧
    console.keys = [] ∧ kbdFull { pending with keys := [0x9E] } = true := ⟨rfl, rfl, ⟨rfl, rfl⟩, rfl, rfl⟩

theorem witness_StepRunsTheDecodedOperation :
    ForegroundTurn { State.reset with stream := [0x22, 0x41], sched := [.go] } { State.reset with stream := [0x22, 0x41] } ∧
    ForegroundTurn console console ∧ decode [0x22, 0x41] = .ok (.termPutchar 0x41, []) ∧
    (Instr.termPutchar 0x41).contexts.inStream = true ∧ console.stream = [] ∧ console.mainLoop = true :=
  ⟨⟨⟨rfl, rfl⟩, rfl, rfl, rfl, .inl ⟨[], rfl, rfl⟩⟩, ⟨⟨rfl, rfl⟩, rfl, rfl, rfl, .inr ⟨rfl, .inl rfl, by decide, rfl⟩⟩,
   rfl, rfl, rfl, rfl⟩

/-- A word handed in: the handler body for the handler's context, and for the foreground. -/
def handed (c : Ctx) : State := { pending with work := [⟨.operation, [0x55]⟩], ctx := c }

theorem witness_StepRunsTheWorkItem : (handed .isr).fault = none ∧ (handed .isr).refusal = none ∧
    (handed .isr).work = [⟨.operation, [0x55]⟩] ∧ decodeIn (handed .isr).cfg .operation [0x55] = .ok (.kbdIsr, []) ∧
    Instr.kbdIsr.contexts.isr = true ∧ ((handed .fg).ctx = .fg ∧ Instr.kbdIsr.contexts.fg = false) :=
  ⟨rfl, rfl, rfl, rfl, rfl, rfl, rfl⟩

theorem witness_IllegalStreamOperationsRefused :
    ForegroundTurn { State.reset with stream := [0x64], sched := [.go] } { State.reset with stream := [0x64] } ∧
    0x64 ∉ ([0x00, 0x01, 0x10, 0x11, 0x12, 0x20, 0x21, 0x22, 0x23, 0x30, 0x40, 0x41, 0x42, 0x43, 0x50, 0x51, 0x52, 0x53,
      0x54, 0x55, 0x60, 0x61, 0x62, 0x63] : List Byte) ∧
    ForegroundTurn { State.reset with stream := [0x23], sched := [.go] } { State.reset with stream := [0x23] } ∧
    decode [0x23] = .ok (.termAddline, []) :=
  ⟨⟨⟨rfl, rfl⟩, rfl, rfl, rfl, .inl ⟨[], rfl, rfl⟩⟩, by decide, ⟨⟨rfl, rfl⟩, rfl, rfl, rfl, .inl ⟨[], rfl, rfl⟩⟩, rfl⟩

theorem witness_StopsAreSticky : let s : State := { console with fault := some .kbdLatchEmpty }
    (s.fault = some .kbdLatchEmpty ∧ { s with sched := [.go] }.sched = .go :: [] ∧ s.sched = [] ∧ s.keys = [] ∧
      { s with sched := [.env .key, .go] }.sched = .env .key :: [.go] ∧
      { s with sched := [.deliver [], .go] }.sched = .deliver [] :: [.go] ∧
      ({ s with keys := [0x9E] }.keys = 0x9E :: [] ∧ kbdFull { s with keys := [0x9E] } = false) ∧
      ∃ t, step { s with keys := [0x9E] } = .next t) ∧
    ({ State.reset with refusal := some .wrongContext }.fault = none ∧
      { State.reset with refusal := some .wrongContext }.refusal = some .wrongContext) :=
  ⟨⟨rfl, rfl, rfl, rfl, rfl, rfl, ⟨rfl, rfl⟩, _, rfl⟩, rfl, rfl⟩

theorem witness_StepKeepsTheInvariant : Inv pending ∧ (∃ t, step pending = .next t) ∧ QueueSound pending ∧
    pending.queueBuilt = true ∧ Inv console ∧ ∃ t, step console = .next t :=
  ⟨pending_booted.inv, ⟨_, rfl⟩, pending_booted.queue, rfl, console_inv, ⟨_, rfl⟩⟩

theorem witness_BootReachesTheLoop : Config.default.wf = true ∧ Config.default.envTimerAsserts = false :=
  ⟨Config.default_wf, rfl⟩

theorem witness_BootedConsoleNeverStops : Booted shown ∧ Mirrored shown := ⟨shown_booted, shown_mirrored⟩

theorem mirrored_setKeys {s : State} {ks : List Byte} (h : Mirrored s) : Mirrored (s.setKeys ks) :=
  (mirrored_congr rfl rfl rfl).2 h

theorem keyed {s : State} {t : Terminal} {ks : List Byte} (h : s.term = some t ∧ s.rd = s.wr ∧ kbdFull s = false ∧ s.sched = []) :
    (s.setKeys ks).term = some t ∧ (s.setKeys ks).rd = (s.setKeys ks).wr ∧ kbdFull (s.setKeys ks) = false ∧
    (s.setKeys ks).sched = [] := h

theorem letter_mapped : scanTable Config.default 0x1E ≠ 0 := by decide

theorem keyed_mapped {s : State} {ks : List Byte} (h : s.cfg = Config.default) : scanTable (s.setKeys ks).cfg 0x1E ≠ 0 := by
  rw [State.setKeys_cfg, h]; exact letter_mapped

theorem witness_PressedKeyReachesTheScreen : let s : State := shown.setKeys [scancodeByte false 0x1E]
    Booted s ∧ (s.term = some (homed console).1 ∧ s.rd = s.wr ∧ kbdFull s = false ∧ s.sched = []) ∧
    scanTable s.cfg 0x1E ≠ 0 ∧ Mirrored s :=
  ⟨booted_setKeys shown_booted _, keyed ⟨rfl, rfl, rfl, rfl⟩, keyed_mapped rfl, mirrored_setKeys shown_mirrored⟩

end Sys2Proof.Tests
end

section
/-! Words written out at the default parameters: each is the encoding of what it stands for, so the round trip of
Laws/PerInstr.lean reads it back. -/

namespace Sys2Proof

open Laws

variable {i : Instr} {bs rest : List Byte} {b : Byte}

theorem decodeIn_default_of_encode (h : RoundTrip.Statement i) (hw : WellFormed i = true)
    (he : encode Config.default i ++ rest = bs) : decodeIn Config.default i.space bs = .ok (i, rest) :=
  he ▸ h Config.default rest Config.default_wf hw

theorem decode_default_of_encode (h : RoundTrip.Statement i) (hs : i.space = .operation) (hw : WellFormed i = true)
    (he : encode Config.default i ++ rest = bs) : decode bs = .ok (i, rest) := by
  have hd := decodeIn_default_of_encode h hw he
  rwa [hs] at hd

theorem decode_unknownOperation (h : opcodeOf b = none) : decode (b :: rest) = .error (.unknownOperation b) := by
  simp [decode, h]

/-- Settles O3: the fourteen words are encodings and are read back (the `rest` of the second is the next operation's code), and
0x02 is the code of no row of R66. -/
theorem specWordsDecode : Obligations.SpecWordsDecode := by
  unfold Obligations.SpecWordsDecode
  refine ⟨?termInit, ?mainStep, ?termPutchar, ?unknown, ?scRelease, ?scPress, ?cell, ?attr, ?desc, ?descEmpty,
    ?crtcSelHi, ?crtcSelLo, ?picIcw1, ?picEoiByte, ?picMaskM⟩
  case termInit => exact decode_default_of_encode RoundTrip.termInit rfl rfl rfl
  case mainStep => exact decode_default_of_encode RoundTrip.mainStep rfl rfl rfl
  case termPutchar => exact decode_default_of_encode (RoundTrip.termPutchar 0x41) rfl rfl rfl
  case unknown => exact decode_unknownOperation (by decide)
  case scRelease => exact decodeIn_default_of_encode (RoundTrip.scRelease 0x1E) rfl rfl
  case scPress => exact decodeIn_default_of_encode (RoundTrip.scPress 0x1E) rfl rfl
  case cell => exact decodeIn_default_of_encode (RoundTrip.cell 1 15 0x58) rfl rfl
  case attr => exact decodeIn_default_of_encode (RoundTrip.attr 0 7) rfl rfl
  case desc => exact decodeIn_default_of_encode (RoundTrip.desc 0x0010 0x8E00 0x0008 0x1234) rfl rfl
  case descEmpty => exact decodeIn_default_of_encode RoundTrip.descEmpty rfl rfl
  case crtcSelHi => exact decodeIn_default_of_encode RoundTrip.crtcSelHi rfl rfl
  case crtcSelLo => exact decodeIn_default_of_encode RoundTrip.crtcSelLo rfl rfl
  case picIcw1 => exact decodeIn_default_of_encode (RoundTrip.picIcw1 .master) rfl rfl
  case picEoiByte => exact decodeIn_default_of_encode (RoundTrip.picEoiByte .slave) rfl rfl
  case picMaskM => exact decodeIn_default_of_encode (RoundTrip.picMaskM 0xF8) rfl rfl

end Sys2Proof
end

section
/-! A step, from the turn it is. -/

namespace Sys2Proof.Machine

variable {s t : State} {o : Out State} {i : Instr} {rest : List Byte}

theorem step_of_settled (h : turn s = .settled o) : step s = o := by simp only [step, h]

theorem step_of_stream (h : turn s = .stream i rest t) :
    step s = andThen (exec i t) fun u => .next (retire rest u) := by simp only [step, h]

end Sys2Proof.Machine
end

section
/-! The invariant along a step (R35, R104, R118, R126): each operation of the stream keeps it, and so does whatever else the
schedule gives the step to. -/

namespace Sys2Proof.Machine

variable {k : Prop} {s t : State} {i : Instr}

/-- An operation that answered was not refused. -/
theorem not_refused {c : Prop} [Decidable c] {r : Reason} {o : Out State}
    (h : (if c then refuse r s else o) = .next t) : ¬ c ∧ o = .next t := by
  split at h
  · simp at h
  · exact ⟨‹_›, h⟩

/-! ### The pieces of Laws/Invariant.lean that the operations of the display lack -/

theorem setCursor_keeps {x y : Nat} (h : Held k s) (hc : CursorInGrid s) (e : setCursor x y s = .next t) :
    Keeps k s t := by
  obtain ⟨hk, ht⟩ := ends_true.1 (setCursor_ends (between_held (k := k)) (s := s) ⟨.refl s, h⟩ x y) t e
  exact ⟨ht, hc.congr hk.term, hk.cfg⟩

theorem construct_keeps (h : Held k s) (e : construct s = .next t) : Keeps k s t := by
  obtain ⟨hk, ht⟩ := ends_true.1 (construct_ends (between_held (k := k)) ⟨.refl s, h⟩) t e
  refine ⟨ht, fun tm htm => ?_, hk.cfg⟩
  rw [hk.term, painted_term, (homed_spec s).1] at htm
  cases htm
  exact Nat.zero_lt_succ _

/-- A text leaves a column inside the grid (R35 b, R82). -/
theorem foldl_charPut_col_lt (cfg : Config) (text : List Byte) : ∀ tm : Terminal, tm.col < 80 →
    (text.foldl (fun tm ch => charPut cfg ch tm) tm).col < 80 := by
  induction text with
  | nil => exact fun _ h => h
  | cons ch rest ih => exact fun tm _ => ih _ (charPut_col_lt cfg ch tm)

theorem typedAll_term {tm : Terminal} {text : List Byte} (ht : s.term = some tm) (hc : tm.col < 80) :
    (typedAll text s).term = some (text.foldl (fun tm ch => charPut s.cfg ch tm) tm) := by
  obtain ⟨m, c, l, -, hs⟩ := (typedAll_spec text s tm ht hc).shape
  rw [hs]

/-- What asked for the Terminal and answered had one (R80 e). -/
theorem withTerminal_next {f : Terminal → Out State} (e : withTerminal s f = .next t) :
    ∃ tm, s.term = some tm ∧ f tm = .next t := by
  unfold withTerminal at e
  split at e
  · exact ⟨_, ‹_›, e⟩
  · simp at e

theorem writeText_keeps {text : List Byte} {tm : Terminal} (h : Held k s) (hc : CursorInGrid s) (htm : s.term = some tm)
    (e : writeText text s = .next t) : Keeps k s t := by
  obtain ⟨hk, ht⟩ := ends_true.1 (writeText_ends (between_held (k := k)) text s s tm htm (hc tm htm) ⟨.refl s, h⟩) t e
  refine ⟨ht, fun u hu => ?_, hk.cfg.trans (typedAll_cfg text s)⟩
  rw [hk.term, typedAll_term htm (hc tm htm)] at hu
  cases hu
  exact foldl_charPut_col_lt s.cfg text tm (hc tm htm)

theorem Held.buildTable (h : Held k s) (a : Address) : Held k (buildTable a s) :=
  (h.writeBytes (descAddress s.cfg 0) _).writeBytes _ _

/-- Every operation of the stream that answers keeps what holds at every boundary; a ring filled in order stays so unless
Q.INIT runs for the first time with interrupts on. -/
theorem exec_keeps (hs : i.contexts.inStream = true) (h : Held k s) (hc : CursorInGrid s)
    (hq : k → s.queueBuilt = true ∨ s.intFlag = false) (e : exec i s = .next t) : Keeps k s t := by
  cases i
  case outb port b => exact Keeps.finish (fun _ hv => portWrite_keeps h hc hv) e
  case putglyphCfb ch fg bg x y => exact Keeps.finish (fun _ hv => putCell_keeps h hc hv) e
  case putglyphCell cell x y => exact Keeps.finish (fun _ hv => putCell_keeps h hc hv) e
  case setcursor x y => exact Keeps.finish (fun _ hv => setCursor_keeps h hc hv) e
  case termInit => exact Keeps.finish (fun _ hv => construct_keeps h hv) e
  case termWrite text =>
    refine Keeps.finish (fun v hv => ?_) e
    obtain ⟨tm, htm, hw⟩ := withTerminal_next hv
    exact writeText_keeps h hc htm hw
  case termPutchar ch => exact Keeps.finish (fun _ hv => putChar_keeps h hc hv) e
  case qInit =>
    obtain ⟨hb, e⟩ := not_refused e
    exact Keeps.finish (fun _ hv => initQueue_keeps h hc (fun hk => (hq hk).resolve_left hb) hv) e
  case qRead =>
    obtain ⟨p, hp, e⟩ := andThen_eq_next.1 e
    exact Keeps.finish (fun _ hv => Host.Outcome.next.inj hv ▸ queueRead_keeps h hc hp) e
  case qIsempty =>
    obtain ⟨p, hp, e⟩ := andThen_eq_next.1 e
    exact Keeps.finish (fun _ hv => Host.Outcome.next.inj hv ▸ queueIsEmpty_keeps h hc hp) e
  case idtBuild a =>
    exact Keeps.finish (fun _ hv => Host.Outcome.next.inj hv ▸ ⟨h.buildTable a, hc, rfl⟩) (not_refused e).2
  case idtLoad =>
    exact Keeps.finish (fun _ hv => Host.Outcome.next.inj hv ▸ ⟨h.loadTable, hc, rfl⟩) (not_refused e).2
  case picInit => exact Keeps.finish (fun _ hv => portWrites_keeps h hc hv) (not_refused e).2
  case picSetmask => exact Keeps.finish (fun _ hv => portWrites_keeps h hc hv) e
  case intEnable =>
    change execIntEnable s = .next t at e
    unfold execIntEnable at e
    split at e
    · rename_i hd
      exact Keeps.finish (fun _ hv => Host.Outcome.next.inj hv ▸ ⟨h.enable hd, hc, rfl⟩) e
    · simp at e
  case intDisable => exact Keeps.finish (fun _ hv => Host.Outcome.next.inj hv ▸ ⟨h.disable, hc, rfl⟩) e
  case halt => exact Keeps.finish (fun _ hv => Host.Outcome.next.inj hv ▸ ⟨h.setHalted true, hc, rfl⟩) e
  case mainStep => exact Keeps.finish (fun _ hv => mainTurn_keeps h hc hv) e
  all_goals exact Bool.noConfusion hs

theorem Keeps.refl (h : Held k s) (hc : CursorInGrid s) : Keeps k s s := ⟨h, hc, rfl⟩

theorem Keeps.retire (h : Keeps k s t) (rest : List Byte) : Keeps k s (retire rest t) :=
  ⟨(h.held.setStream rest).setFgpos _, h.cursor, h.cfg⟩

theorem envAct_keeps (h : Held k s) (hc : CursorInGrid s) (e : EnvAct) : Keeps k s (envAct e s) :=
  .of_kept (h.envAct e) hc (envAct_kept e s)

theorem deliver_keeps {within : List EnvAct} (h : Held k s) (hc : CursorInGrid s) (e : deliver within s = .next t) :
    Keeps k s t := .of_kept (h.deliver e) hc (deliver_kept h.config e)

/-- The foreground's turn at s, as the step of a state x whose schedule gives it (R14, R106, R107). -/
theorem foreground_keeps {x : State} (h : Held k s) (hc : CursorInGrid s)
    (hq : k → s.queueBuilt = true ∨ s.intFlag = false) (ht : turn x = foregroundTurn s) (e : step x = .next t) :
    Keeps k s t := by
  rcases foregroundTurn_cases s with ⟨o, ho, hv⟩ | ⟨i, rest, ho, hi⟩
  · rw [step_of_settled (ht.trans ho)] at e
    rw [hv t e]
    exact .refl h hc
  · rw [step_of_stream (ht.trans ho)] at e
    obtain ⟨u, hu, hr⟩ := andThen_eq_next.1 e
    cases hr
    exact (exec_keeps hi h hc hq hu).retire rest

/-- A step of anyone keeps what holds at every boundary (R35, R126). -/
theorem step_keeps (h : Held k s) (hc : CursorInGrid s) (hq : k → s.queueBuilt = true ∨ s.intFlag = false)
    (e : step s = .next t) : Keeps k s t := by
  have ht := h.turn
  have used (acts : List Act) : Keeps k s (s.setSched acts) := ⟨h.setSched acts, hc, rfl⟩
  rcases scheduledTurn_cases foregroundTurn s with ⟨acts, -, hs⟩ | ⟨ev, acts, -, hs⟩ | ⟨within, acts, -, hs⟩ | ⟨-, hs⟩ |
    ⟨l, -, hd, hs⟩ | ⟨-, hs⟩
  · exact (used acts).trans (foreground_keeps (h.setSched acts) hc hq (ht.trans hs) e)
  · rw [step_of_settled (ht.trans hs)] at e
    exact Host.Outcome.next.inj e ▸ (used acts).trans (envAct_keeps (h.setSched acts) hc ev)
  · rw [step_of_settled (ht.trans hs)] at e
    exact (used acts).trans (deliver_keeps (h.setSched acts) hc e)
  · rw [step_of_settled (ht.trans hs)] at e
    exact Host.Outcome.next.inj e ▸ envAct_keeps h hc .key
  · rw [step_of_settled (ht.trans hs)] at e
    refine deliver_keeps (within := []) h hc ?_
    rw [deliver, hd]
    exact e
  · exact foreground_keeps h hc hq (ht.trans hs) e

/-- Settles O57: `step_keeps`, carrying along that the ring is filled in order and that no Q.INIT can disturb it. -/
theorem stepKeepsTheInvariant : Obligations.StepKeepsTheInvariant := by
  unfold Obligations.StepKeepsTheInvariant
  intro s t h e
  have hk : Keeps (QueueSound s ∧ (s.queueBuilt = true ∨ s.intFlag = false)) s t :=
    step_keeps ⟨h.toSound, fun hk => hk.1⟩ h.cursor (fun hk => hk.2) e
  exact ⟨hk.held.inv hk.cursor, hk.cfg, fun hq hb => hk.held.queue ⟨hq, hb⟩⟩

end Sys2Proof.Machine
end

section
/-! The console after its boot (R139, R147): no step of anyone stops it. -/

namespace Sys2Proof.Machine

variable {s t u : State}

/-- t is a booted console, and shows its grid if s shows its own. -/
structure StaysBooted (s t : State) : Prop where
  booted : Booted t
  mirrored : Mirrored s → Mirrored t

theorem StaysBooted.trans (h : StaysBooted s t) (g : StaysBooted t u) : StaysBooted s u :=
  ⟨g.booted, g.mirrored ∘ h.mirrored⟩

/-- What leaves memory and the Terminal alone leaves grid and screen alone. -/
theorem StaysBooted.of_running (h : Booted s) (hr : Running t) (hc : t.cfg = s.cfg) (hm : t.mem = s.mem)
    (ht : t.term = s.term) : StaysBooted s t :=
  ⟨⟨hr, h.cursor.congr ht⟩, (mirrored_congr hc hm ht).2⟩

theorem StaysBooted.of_kept (h : Booted s) (hr : Running t) (hk : ForegroundKept s t) : StaysBooted s t :=
  .of_running h hr hk.cfg hk.mem hk.term

/-- The event MAIN.STEP has read is forwarded or dropped (R108). -/
theorem Booted.forwardEvent (h : Booted s) (e : KeyEvent) : Ends False (StaysBooted s) (forwardEvent e s) := by
  unfold Machine.forwardEvent
  split
  · obtain ⟨t, ht, hb, hm⟩ := h.putChar e.ch
    exact ends_of_completes ht ⟨hb, hm⟩
  · exact ⟨h, id⟩

/-- Whatever falls on a boundary the console stays booted, and the foreground's own state is as it was. -/
theorem Booted.boundary (h : Booted s) :
    Ends False (fun t => StaysBooted s t ∧ ForegroundKept s t) (boundary s) := by
  obtain ⟨t, ht, hr, hk⟩ := h.toRunning.boundary
  exact ends_of_completes ht ⟨.of_kept h hr hk, hk⟩

/-- Q.READ with an event in its slot (R90): it is there when RD advances too, whatever has fallen in between. -/
theorem Booted.queueRead (h : Booted s) (hs : (slot s s.rd).isSome = true) :
    Ends False (fun p => StaysBooted s p.2) (queueRead s) := by
  obtain ⟨e, he⟩ := Option.isSome_iff_exists.1 hs
  obtain ⟨u, hu, hr, hk⟩ := h.toRunning.boundary
  have hsu : (slot u u.rd).isSome = true := by
    rw [hk.rd]
    exact boundary_slot h.config hu hs
  have hq : Machine.queueRead s = .next (e, u.setRd (advance u.rd)) := by
    unfold Machine.queueRead
    rw [show readSlot s = some e from he]
    simp only [hu, andThen_next]
  exact ends_of_completes hq (.of_running h (hr.read hsu) hk.cfg hk.mem hk.term)

/-- One turn of the loop (R108): RD ≠ WR at the test says that an event is there to be read. -/
theorem Booted.mainTurn (h : Booted s) : Ends False (StaysBooted s) (mainTurn s) := by
  unfold Machine.mainTurn Machine.queueIsEmpty
  rw [andThen_assoc]
  refine h.boundary.andThen fun u ⟨hu, hku⟩ => ?_
  rw [andThen_next]
  obtain ⟨v, hv, hrv, hkv⟩ := hu.booted.toRunning.boundary
  have hsv : StaysBooted s v := hu.trans (.of_kept hu.booted hrv hkv)
  simp only [hv, andThen_next, decide_eq_true_eq]
  split
  · exact hsv.trans (.of_running hsv.booted (hrv.setHalted true) rfl rfl rfl)
  · rename_i hne
    have hev : (slot v v.rd).isSome = true := by
      rw [hkv.rd]
      refine boundary_slot hu.booted.config hv (hu.booted.queue.next ?_)
      rwa [hku.rd]
    refine (hsv.booted.queueRead hev).andThen fun p hp => ?_
    refine hp.booted.boundary.andThen fun w ⟨hw, _⟩ => ?_
    exact (hw.booted.forwardEvent p.1).mono fun x hx => hsv.trans (hp.trans (hw.trans hx))

/-- The loop is all a booted console's foreground runs; halted, it waits (R14, R107). -/
theorem Booted.foregroundStep {x : State} (h : Booted s) (ht : turn x = foregroundTurn s) :
    Ends False (StaysBooted s) (step x) := by
  cases hh : s.halted with
  | true =>
    rw [foregroundTurn_halted hh, h.interruptsOn, if_pos rfl] at ht
    rw [step_of_settled ht]
    exact ⟨h, id⟩
  | false =>
    rw [foregroundTurn_loop hh h.looping.1 h.looping.2] at ht
    rw [step_of_stream ht]
    refine Ends.andThen (P := StaysBooted s) ?_ fun u hu =>
      hu.trans (.of_running hu.booted hu.booted.toRunning.retire rfl rfl rfl)
    exact h.mainTurn.andThen fun u hu =>
      hu.trans (.of_running hu.booted (hu.booted.toRunning.setResult .none) rfl rfl rfl)

theorem Booted.deliver (h : Booted s) (within : List EnvAct) : Ends False (StaysBooted s) (deliver within s) := by
  obtain ⟨t, ht, hr, hk⟩ := h.toRunning.deliver within
  exact ends_of_completes ht (.of_kept h hr hk)

theorem Booted.envAct (h : Booted s) (e : EnvAct) : StaysBooted s (envAct e s) :=
  .of_kept h (h.toRunning.envAct e) (envAct_kept e s)

/-- A step of anyone on a booted console completes and leaves it booted. -/
theorem Booted.step (h : Booted s) : Ends False (StaysBooted s) (step s) := by
  have ht := h.toSound.turn
  have used (acts : List Act) : StaysBooted s (s.setSched acts) :=
    .of_running h (h.toRunning.setSched acts) rfl rfl rfl
  rcases scheduledTurn_cases foregroundTurn s with ⟨acts, -, hs⟩ | ⟨ev, acts, -, hs⟩ | ⟨within, acts, -, hs⟩ | ⟨-, hs⟩ |
    ⟨l, -, hd, hs⟩ | ⟨-, hs⟩
  · exact ((used acts).booted.foregroundStep (ht.trans hs)).mono fun t => (used acts).trans
  · rw [step_of_settled (ht.trans hs)]
    exact (used acts).trans ((used acts).booted.envAct ev)
  · rw [step_of_settled (ht.trans hs)]
    exact ((used acts).booted.deliver within).mono fun t => (used acts).trans
  · rw [step_of_settled (ht.trans hs)]
    exact h.envAct .key
  · rw [step_of_settled (ht.trans hs)]
    have := h.deliver []
    rwa [Machine.deliver, hd] at this
  · exact h.foregroundStep (ht.trans hs)

/-- Settles O59: a booted console's step ends where it stays booted (`Booted.step`), with no stop allowed. -/
theorem bootedConsoleNeverStops : Obligations.BootedConsoleNeverStops := by
  unfold Obligations.BootedConsoleNeverStops
  intro s h
  obtain ⟨t, ht, hs⟩ := h.step.completes
  exact ⟨t, ht, hs.booted, hs.mirrored⟩

end Sys2Proof.Machine
end

section
/-! TERM.PUTCHAR with nothing falling into it, and what every Terminal operation leaves of grid and screen (R35 a, R83, R85). -/

namespace Sys2Proof.Machine

variable {s u : State} {t : Terminal}

/-! ### TERM.PUTCHAR undisturbed -/

theorem putChar_undisturbed (ch : Byte) (hc : s.cfg.wf = true) (hu : Undisturbed s) (ht : s.term = some t)
    (hcol : t.col < 80) : putChar ch s = .next (typed ch s) := by
  obtain ⟨u, hu, rfl, -⟩ := (putChar_ends between_undisturbed ch ht hcol ⟨rfl, hc, hu⟩).completes
  exact hu

/-- Of the state TERM.PUTCHAR leaves only memory is not written out (R83). -/
theorem typed_eq (ch : Byte) (ht : s.term = some t) (hcol : t.col < 80) :
    typed ch s = { s with
      mem := (typed ch s).mem
      term := some (charPut s.cfg ch t)
      crtc := cursorAt s.cfg (charPut s.cfg ch t).col (charPut s.cfg ch t).row.val
      iotrace := s.iotrace ++ cursorTrace s.cfg (charPut s.cfg ch t).col (charPut s.cfg ch t).row.val } := by
  obtain ⟨m, hm, -⟩ := typed_spec ch ht hcol
  rw [hm]
  rfl

/-- TERM.PUTCHAR stores in the window only (R39, R83). -/
theorem typed_outside (ch : Byte) (ht : s.term = some t) (hcol : t.col < 80) {a : Nat} (ha : ¬ inWindow s.cfg a) :
    byteAt (typed ch s) a = byteAt s a := by
  obtain ⟨m, hm, hr⟩ := typed_spec ch ht hcol
  rw [hm]
  exact hr.outside a ha

/-- A character that scrolls nothing is a cell store, as memory sees it (R83). -/
theorem typed_stores_cell (ch : Byte) (ht : s.term = some t) (hn : ch ≠ s.cfg.newline)
    (hr : t.row ≠ 24 ∨ t.col + 1 < 80) :
    (Memory.wf s.cfg s.mem = true → vram (typed ch s) (t.row.val * 80 + t.col) = some (mkcell ch t.fgc t.bgc)) ∧
    ∀ a, a ≠ cellAddress s.cfg (t.row.val * 80 + t.col) → a ≠ cellAddress s.cfg (t.row.val * 80 + t.col) + 1 →
      byteAt (typed ch s) a = byteAt s a := by
  have hm := (typed_stored ch ht).2 hn hr
  have hcfg := typed_cfg (s := s) ch
  constructor
  · intro hw
    rw [vram_congr (s := storeCell (t.row.val * 80 + t.col) (mkcell ch t.fgc t.bgc) s) hcfg hm]
    exact vram_storeCell_same hw
  · intro a h0 h1
    rw [byteAt, hcfg, hm]
    exact byteAt_storeCell_other (by omega)

/-- What the operation returned does not show. -/
theorem mirrored_setResult {r : Result} : Mirrored (s.setResult r) ↔ Mirrored s := mirrored_congr rfl rfl rfl

/-- Settles O21: undisturbed TERM.PUTCHAR ends in `typed`, whose memory is told branch by branch. -/
theorem termPutcharWrites : Obligations.TermPutcharWrites := by
  unfold Obligations.TermPutcharWrites
  intro s t ch hc hu ht hcol
  refine ⟨(typed ch s).setResult .none, ?runs, ?state, ?newline, ?cell, ?scroll, ?mirrored, ?outside⟩
  case runs => exact congrArg (finish .none) (putChar_undisturbed ch hc hu ht hcol)
  case state => exact congrArg (State.setResult · .none) (typed_eq ch ht hcol)
  case newline => exact (typed_stored ch ht).1
  case cell => exact typed_stores_cell ch ht
  case scroll => exact fun hr hs hw => mirrored_setResult.2 (mirrored_typed_scroll ch ht hcol hr hs hw)
  case mirrored => exact fun hw hm => mirrored_setResult.2 (mirrored_typed ch ht hcol hw hm)
  case outside => exact fun a ha => typed_outside ch ht hcol ha

/-! ### Grid and screen under every schedule -/

/-- An operation whatever falls into it shows its grid where it does so undisturbed. -/
theorem mirrored_of_ends {x : State} {o : Out State} (h : Ends True (fun v => ForegroundKept x v ∧ x.cfg.wf = true) o)
    (e : o = .next u) (hm : Mirrored x) : Mirrored u := (ends_true.1 h u e).1.mirrored.2 hm

theorem mirrored_construct (hc : s.cfg.wf = true) (hw : Memory.wf s.cfg s.mem = true) (e : construct s = .next u) :
    Mirrored u :=
  mirrored_of_ends (construct_ends between_any ⟨.refl s, hc⟩) e (mirrored_painted.2 ((homed_spec s).2.2 hw).2)

theorem mirrored_putChar {ch : Byte} (hc : s.cfg.wf = true) (hw : Memory.wf s.cfg s.mem = true) (hcol : CursorInGrid s)
    (hm : Mirrored s) (e : putChar ch s = .next u) : Mirrored u := by
  obtain ⟨t, ht⟩ := putChar_term e
  exact mirrored_of_ends (putChar_ends between_any ch ht (hcol t ht) ⟨.refl s, hc⟩) e
    (mirrored_typed ch ht (hcol t ht) hw hm)

theorem mirrored_writeText {text : List Byte} (hc : s.cfg.wf = true) (hw : Memory.wf s.cfg s.mem = true)
    (ht : s.term = some t) (hcol : t.col < 80) (hm : Mirrored s) (e : writeText text s = .next u) : Mirrored u :=
  mirrored_of_ends (writeText_ends between_any text s s t ht hcol ⟨.refl s, hc⟩) e
    ((typedAll_spec text s t ht hcol).shows hw hm)

theorem mirrored_addLine (hc : s.cfg.wf = true) (hw : Memory.wf s.cfg s.mem = true) (hm : Mirrored s)
    (e : addLine s = .next u) : Mirrored u := by
  obtain ⟨t, ht⟩ := addLine_term e
  exact mirrored_of_ends (addLine_ends between_any (x := s) (p := (t, s.mem)) (by rw [painted_self ht]; exact ⟨.refl s, hc⟩))
    e (mirrored_redrawn ht (lineDrawn_spec (t, s.mem)).1 hw hm)

/-- The display's parameters, memory and Terminal are the same: what MAIN.STEP's steps on the queue leave alone. -/
structure SameDisplay (s t : State) : Prop where
  cfg : t.cfg = s.cfg
  mem : t.mem = s.mem
  term : t.term = s.term

theorem SameDisplay.trans {v : State} (h : SameDisplay s u) (g : SameDisplay u v) : SameDisplay s v :=
  ⟨g.cfg.trans h.cfg, g.mem.trans h.mem, g.term.trans h.term⟩

theorem SameDisplay.mirrored (h : SameDisplay s u) (hm : Mirrored s) : Mirrored u :=
  (mirrored_congr h.cfg h.mem h.term).2 hm

theorem sameDisplay_boundary (hc : s.cfg.wf = true) (e : boundary s = .next u) : SameDisplay s u :=
  ⟨(boundary_kept hc e).cfg, (boundary_kept hc e).mem, (boundary_kept hc e).term⟩

theorem sameDisplay_queueIsEmpty {p : Bool × State} (hc : s.cfg.wf = true) (e : queueIsEmpty s = .next p) :
    SameDisplay s p.2 := by
  obtain ⟨v, hv, e⟩ := andThen_eq_next.1 e
  cases e
  exact sameDisplay_boundary hc hv

theorem sameDisplay_queueRead {p : KeyEvent × State} (hc : s.cfg.wf = true) (e : queueRead s = .next p) :
    SameDisplay s p.2 := by
  unfold queueRead at e
  split at e
  · simp at e
  · obtain ⟨v, hv, e⟩ := andThen_eq_next.1 e
    cases e
    exact (sameDisplay_boundary hc hv).trans ⟨rfl, rfl, rfl⟩

/-- What MAIN.STEP does to the display it does last: it halts, or forwards the event it has read (R108). -/
theorem mainTurn_next (hc : s.cfg.wf = true) (e : mainTurn s = .next u) : ∃ v, SameDisplay s v ∧
    (u = haltForeground v ∨ ∃ ev, forwardEvent ev v = .next u) := by
  unfold mainTurn at e
  obtain ⟨p, hp, e⟩ := andThen_eq_next.1 e
  have h1 := sameDisplay_queueIsEmpty hc hp
  obtain ⟨v, hv, e⟩ := andThen_eq_next.1 e
  have h2 := h1.trans (sameDisplay_boundary (by rw [h1.cfg]; exact hc) hv)
  split at e
  · exact ⟨v, h2, .inl (Host.Outcome.next.inj e).symm⟩
  · obtain ⟨q, hq, e⟩ := andThen_eq_next.1 e
    have h3 := h2.trans (sameDisplay_queueRead (by rw [h2.cfg]; exact hc) hq)
    obtain ⟨w, hw, e⟩ := andThen_eq_next.1 e
    exact ⟨w, h3.trans (sameDisplay_boundary (by rw [h3.cfg]; exact hc) hw), .inr ⟨q.1, e⟩⟩

theorem mirrored_forwardEvent {ev : KeyEvent} (hc : s.cfg.wf = true) (hw : Memory.wf s.cfg s.mem = true)
    (hcol : CursorInGrid s) (hm : Mirrored s) (e : forwardEvent ev s = .next u) : Mirrored u := by
  unfold forwardEvent at e
  split at e
  · exact mirrored_putChar hc hw hcol hm e
  · exact Host.Outcome.next.inj e ▸ hm

theorem mirrored_mainTurn (hc : s.cfg.wf = true) (hw : Memory.wf s.cfg s.mem = true) (hcol : CursorInGrid s)
    (hm : Mirrored s) (e : mainTurn s = .next u) : Mirrored u := by
  obtain ⟨v, hv, rfl | ⟨ev, e⟩⟩ := mainTurn_next hc e
  · exact hv.mirrored hm
  · exact mirrored_forwardEvent (by rw [hv.cfg]; exact hc) (by rw [hv.cfg, hv.mem]; exact hw) (hcol.congr hv.term)
      (hv.mirrored hm) e

/-- An operation's result does not show. -/
theorem mirrored_finish {r : Result} {o : Out State} (h : ∀ v, o = .next v → Mirrored v) (e : finish r o = .next u) :
    Mirrored u := by
  obtain ⟨v, hv, rfl⟩ := finish_eq_next.1 e
  exact mirrored_setResult.2 (h v hv)

/-- Settles O26: whatever falls into it, an operation that completes has drawn what it draws undisturbed. -/
theorem screenMirrorsTheGrid : Obligations.ScreenMirrorsTheGrid := by
  unfold Obligations.ScreenMirrorsTheGrid
  intro s u i hc hw hcol e
  refine ⟨fun hi => ?_, fun hi hm => ?_⟩
  · subst hi
    exact mirrored_finish (fun v hv => mirrored_construct hc hw hv) e
  · rcases hi with ⟨ch, rfl⟩ | ⟨text, rfl⟩ | rfl | rfl
    · exact mirrored_finish (fun v hv => mirrored_putChar hc hw hcol hm hv) e
    · refine mirrored_finish (fun v hv => ?_) e
      obtain ⟨t, ht, hv⟩ := withTerminal_next hv
      exact mirrored_writeText hc hw ht (hcol t ht) hm hv
    · exact mirrored_finish (fun v hv => mirrored_addLine hc hw hm hv) e
    · exact mirrored_finish (fun v hv => mirrored_mainTurn hc hw hcol hm hv) e

end Sys2Proof.Machine
end

section
/-! The foreground's turn at its stream (R14, R66), and a machine that has stopped (R27, R111, R112). -/

namespace Sys2Proof.Machine

variable {s t : State} {f : State → Turn} {acts : List Act} {c : FaultCode}

/-! ### The stream -/

/-- Settles O51: the turn is the stream's operation, and `retire` is the stream going on and FGPOS advancing. -/
theorem stepRunsTheDecodedOperation : Obligations.StepRunsTheDecodedOperation := by
  unfold Obligations.StepRunsTheDecodedOperation
  intro s t h
  obtain ⟨ht, hawake, hstream, hloop⟩ := h.turn
  refine ⟨fun i rest hd hi => ?_, fun hs hl => ?_⟩
  · have hf := foregroundTurn_stream hawake (hstream.symm ▸ hd)
    rw [if_pos hi] at hf
    exact step_of_stream (ht.trans hf)
  · exact step_of_stream (ht.trans (foregroundTurn_loop hawake (hstream.trans hs) (hloop.trans hl)))

/-! ### What the head of the schedule gives -/

theorem scheduledTurn_go (h : s.sched = .go :: acts) : scheduledTurn f s = f (s.setSched acts) := by
  simp only [scheduledTurn, h]

theorem scheduledTurn_env {e : EnvAct} (h : s.sched = .env e :: acts) :
    scheduledTurn f s = .settled (.next (envAct e (s.setSched acts))) := by
  simp only [scheduledTurn, h]

theorem scheduledTurn_deliver {within : List EnvAct} (h : s.sched = .deliver within :: acts) :
    scheduledTurn f s = .settled (deliver within (s.setSched acts)) := by
  simp only [scheduledTurn, h]

/-- With nothing scheduled a byte that waits is presented as soon as the latch is empty (R114, R121). -/
theorem scheduledTurn_key {b : Byte} {rest : List Byte} (h : s.sched = []) (hk : s.keys = b :: rest)
    (hf : kbdFull s = false) : scheduledTurn f s = .settled (.next (presentKey s)) := by
  simp [scheduledTurn, h, unscheduledTurn, hk, hf]

/-! ### After a fault -/

/-- Nothing is delivered once a fault is set (R121). -/
theorem deliverable_of_fault (h : s.fault = some c) : deliverable s = none := by simp [deliverable, h]

theorem deliver_of_fault {within : List EnvAct} (h : s.fault = some c) : deliver within s = .next s := by
  simp only [deliver, deliverable_of_fault h]

/-- Only the latch, the waiting bytes, the master's request bits and the schedule have changed. -/
def OnlyEnvironment (s t : State) : Prop :=
  ∃ x k ks acts, t = (((s.setPicM { s.picM with irr := x }).setKbd k).setKeys ks).setSched acts

theorem OnlyEnvironment.kept (h : OnlyEnvironment s t) : ForegroundKept s t := by
  obtain ⟨x, k, ks, acts, rfl⟩ := h
  constructor <;> simp

/-- Nothing of the handler's has changed either (R99). -/
theorem OnlyEnvironment.handler (h : OnlyEnvironment s t) : t.ring = s.ring ∧ t.wr = s.wr ∧ t.mods = s.mods ∧
    t.ctx = s.ctx ∧ t.intFlag = s.intFlag ∧ t.halted = s.halted ∧ t.iotrace = s.iotrace := by
  obtain ⟨x, k, ks, acts, rfl⟩ := h
  simp

theorem onlyEnvironment_setSched (acts : List Act) : OnlyEnvironment s (s.setSched acts) :=
  ⟨s.picM.irr, s.kbd, s.keys, acts, rfl⟩

theorem onlyEnvironment_envAct (e : EnvAct) (acts : List Act) : OnlyEnvironment s (envAct e (s.setSched acts)) := by
  obtain ⟨x, k, ks, h⟩ := envAct_shape e (s.setSched acts)
  exact ⟨x, k, ks, acts, h⟩

/-- After a fault no step is anything but the environment's (R111, R120). -/
theorem step_of_fault (hf : s.fault = some c) (e : step s = .next t) : OnlyEnvironment s t := by
  have ht := turn_stopped hf
  rcases scheduledTurn_cases (stoppedTurn c) s with ⟨acts, -, hs⟩ | ⟨ev, acts, -, hs⟩ | ⟨within, acts, -, hs⟩ | ⟨-, hs⟩ |
    ⟨l, -, hd, -⟩ | ⟨-, hs⟩
  · rw [step_of_settled (ht.trans hs)] at e
    cases e
  · rw [step_of_settled (ht.trans hs)] at e
    cases e
    exact onlyEnvironment_envAct ev acts
  · rw [step_of_settled (ht.trans hs), deliver_of_fault (s := s.setSched acts) hf] at e
    cases e
    exact onlyEnvironment_setSched acts
  · rw [step_of_settled (ht.trans hs)] at e
    cases e
    exact onlyEnvironment_envAct .key s.sched
  · rw [deliverable_of_fault hf] at hd
    cases hd
  · rw [step_of_settled (ht.trans hs)] at e
    cases e

/-- Settles O54: after a fault by the head of the schedule, with `step_of_fault` for what no step changes; after a refusal
the turn is that refusal. -/
theorem stopsAreSticky : Obligations.StopsAreSticky := by
  unfold Obligations.StopsAreSticky
  intro s
  constructor
  · intro c hf
    have ht := turn_stopped hf
    refine ⟨?incomplete, ?go, ?idle, ?env, ?key, ?deliver, ?frame⟩
    case incomplete => exact fun h => nomatch hf.symm.trans h.noFault
    case go => exact fun acts hs => step_of_settled (ht.trans (scheduledTurn_go hs))
    case idle =>
      exact fun hs hk => step_of_settled (ht.trans (Quiet.turn ⟨hs, hk, deliverable_of_fault hf⟩ _))
    case env => exact fun e acts hs => step_of_settled (ht.trans (scheduledTurn_env hs))
    case key => exact fun b rest hs hk hl => step_of_settled (ht.trans (scheduledTurn_key hs hk hl))
    case deliver =>
      intro within acts hs
      rw [step_of_settled (ht.trans (scheduledTurn_deliver hs))]
      exact deliver_of_fault (s := s.setSched acts) hf
    case frame =>
      intro t e
      exact ⟨(step_of_fault hf e).kept, (step_of_fault hf e).handler⟩
  · intro r hf hr
    have ht : turn s = .settled (.refused (r.refusal s)) := by simp only [turn, hf, hr]
    exact ⟨step_of_settled ht, fun h => nomatch hr.symm.trans h.notRefused⟩

end Sys2Proof.Machine
end

section
/-! The state after reset (R36). -/

namespace Sys2Proof.Machine

variable {s : State} {cfg : Config} {a off v : Nat}

/-! ### Memory that nothing has written -/

theorem unlisted_window (hc : cfg.wf = true) (ha : inWindow cfg a) : Memory.unlisted cfg a = none := by
  have := Config.windows_apart hc
  unfold inWindow at ha
  exact if_neg (by omega)

theorem unlisted_table (ha : inTable cfg a) : Memory.unlisted cfg a = some 0 := if_pos ha

theorem byteAt_unwritten (hm : s.mem = []) : byteAt s a = Memory.unlisted s.cfg a := by rw [byteAt, hm]; rfl

/-- Video memory holds no value before its first write (R15, R36). -/
theorem vram_unwritten (hc : s.cfg.wf = true) (hm : s.mem = []) (ho : off < 2000) : vram s off = none := by
  have h : byteAt s (cellAddress s.cfg off) = none := by
    rw [byteAt_unwritten hm]
    exact unlisted_window hc (by unfold inWindow cellAddress; omega)
  unfold byteAt at h
  simp only [vram, h]

/-- The table is zeroed before its first write (R22, R36). -/
theorem idtEntry_unwritten (hm : s.mem = []) (hv : v < s.cfg.idtEntries) : idtEntry s v = some 0 := by
  have h : ∀ i < 8, Memory.read s.cfg s.mem (descAddress s.cfg v + i) = some 0 := fun i hi => by
    refine (byteAt_unwritten hm).trans (unlisted_table ?_)
    unfold inTable descAddress
    omega
  simp only [idtEntry, h 0 (by omega), h 1 (by omega), h 2 (by omega), h 3 (by omega), h 4 (by omega), h 5 (by omega),
    h 6 (by omega), h 7 (by omega)]
  rfl

/-- Settles O55: memory by what unwritten bytes read as, every other element by what `State.reset` writes out. -/
theorem resetState : Obligations.ResetState := by
  unfold Obligations.ResetState
  have hring : ∀ i : Fin 1024, State.reset.ring[i.val]'i.isLt = none := fun i => by simp [State.reset]
  exact ⟨fun off ho => vram_unwritten Config.default_wf rfl ho, rfl, rfl, rfl, hring, rfl, rfl,
    fun v hv => idtEntry_unwritten rfl hv, rfl, fun c => by cases c <;> rfl, rfl, rfl, rfl, rfl, rfl, rfl, rfl, rfl⟩

/-- A chip after reset is sound: it is in no sequence and has no mask (R24, R36). -/
theorem picSound_reset : PicSound Pic.reset where
  configured h := Bool.noConfusion h
  afterBase h := absurd h (by decide)
  afterWiring h := absurd h (by decide)
  masked h := Bool.noConfusion h

theorem sound_reset : Sound State.reset where
  config := Config.default_wf
  memory := rfl
  foreground := rfl
  noWork := rfl
  running := ⟨rfl, rfl⟩
  master := picSound_reset
  slave := picSound_reset
  enabled h := Bool.noConfusion h
  service := ⟨rfl, rfl, rfl⟩
  table _ h := nomatch h
  colours _ h := nomatch h

/-- Settles O56: reset is sound, and has neither a Terminal nor an event. -/
theorem resetMeetsTheInvariant : Obligations.ResetMeetsTheInvariant :=
  ⟨⟨sound_reset, fun _ h => nomatch h⟩, queueSound_reset⟩

end Sys2Proof.Machine
end

section
/-! What an interrupt cannot change for the foreground (R34, R48, R124), and that the display's operations
show none of it. -/

namespace Sys2Proof.Machine

variable {s t u x : State}

/-! ### What is served, passed or done leaves the foreground alone -/

theorem takeInterrupt_kept {l : Line} {within : List EnvAct} (hc : s.cfg.wf = true)
    (e : takeInterrupt l within s = .next t) : ForegroundKept s t := by
  obtain ⟨-, -, b, -, -, -, rfl⟩ := takeInterrupt_next hc e
  exact interruptResult_kept

/-- Settles O49: by what a served interrupt, a boundary and an action of the environment keep. -/
theorem interruptsKeepTheForeground : Obligations.InterruptsKeepTheForeground := by
  unfold Obligations.InterruptsKeepTheForeground
  exact fun s _ _ _ hc => ⟨takeInterrupt_kept hc, boundary_kept hc, fun e => envAct_kept e s⟩

/-! ### The display's operations under every schedule -/

theorem ForegroundKept.symm (h : ForegroundKept s t) : ForegroundKept t s :=
  ⟨h.cfg.symm, h.mem.symm, h.crtc.symm, h.term.symm, h.rd.symm, h.queueBuilt.symm, h.idtr.symm, h.fault.symm,
   h.refusal.symm, h.fgpos.symm, h.stream.symm, h.mainLoop.symm, h.work.symm, h.result.symm⟩

theorem ForegroundKept.setResult (h : ForegroundKept s t) (r : Result) :
    ForegroundKept (s.setResult r) (t.setResult r) := { h with result := rfl }

/-- PUTGLYPH.CELL's store, where it does not fault (R78). -/
theorem putCell_ends {K : State → State → Prop} (hB : Between True K) (h : K x u) (cell : GlyphCell) (c r : Nat) :
    Ends True (K (storeCell (cellOffset c r) cell x)) (putCell cell c r u) := by
  unfold putCell
  split
  · exact hB.store h ‹_›
  · trivial

/-- A run under the schedule and a run under none leave the foreground the same state where every run from a state the
foreground cannot tell from s leaves it that of one x. -/
theorem foregroundKept_of_ends {f : State → Out State} {r : Result} (hc : s.cfg.wf = true)
    (hf : ∀ v, ForegroundKept s v ∧ s.cfg.wf = true →
      Ends True (fun w => ForegroundKept x w ∧ x.cfg.wf = true) (f v))
    (e : finish r (f s) = .next t) (e' : finish r (f (s.setSched [])) = .next u) : ForegroundKept u t := by
  obtain ⟨v, hv, rfl⟩ := finish_eq_next.1 e
  obtain ⟨w, hw, rfl⟩ := finish_eq_next.1 e'
  have hxv : ForegroundKept x v := (ends_true.1 (hf s ⟨.refl s, hc⟩) v hv).1
  have hxw : ForegroundKept x w := (ends_true.1 (hf _ ⟨setSched_kept, hc⟩) w hw).1
  exact (hxw.symm.trans hxv).setResult r

/-- TERM.WRITE with a Terminal is its loop (R82). -/
theorem withTerminal_of_some {tm : Terminal} {f : Terminal → Out State} (h : s.term = some tm) :
    withTerminal s f = f tm := by
  rw [withTerminal, h]

/-- Settles O27: each operation's `_ends` lemma, at `between_any`, names the state both runs compare with; the
Terminal's operations have answered, so there is a Terminal. -/
theorem displayIgnoresTheSchedule : Obligations.DisplayIgnoresTheSchedule := by
  unfold Obligations.DisplayIgnoresTheSchedule
  intro s t u i hc hcol hi e e'
  rcases hi with ⟨ch, fg, bg, c, r, rfl⟩ | ⟨cell, c, r, rfl⟩ | ⟨c, r, rfl⟩ | rfl | ⟨text, rfl⟩ | ⟨ch, rfl⟩ | rfl
  · exact foregroundKept_of_ends hc (fun v h => putCell_ends between_any h (mkcell ch fg bg) c r) e e'
  · exact foregroundKept_of_ends hc (fun v h => putCell_ends between_any h cell c r) e e'
  · exact foregroundKept_of_ends hc (fun v h => setCursor_ends between_any h c r) e e'
  · exact foregroundKept_of_ends hc (fun v h => construct_ends between_any h) e e'
  · obtain ⟨v, hv, -⟩ := finish_eq_next.1 e
    obtain ⟨tm, htm, -⟩ := withTerminal_next hv
    refine foregroundKept_of_ends (x := typedAll text s) (f := fun v => withTerminal v fun _ => writeText text v) hc
      (fun v h => ?_) e e'
    rw [withTerminal_of_some (h.1.term.trans htm)]
    exact writeText_ends between_any text s v tm htm (hcol tm htm) h
  · obtain ⟨v, hv, -⟩ := finish_eq_next.1 e
    obtain ⟨tm, htm⟩ := putChar_term hv
    exact foregroundKept_of_ends hc (fun v h => putChar_ends between_any ch htm (hcol tm htm) h) e e'
  · obtain ⟨v, hv, -⟩ := finish_eq_next.1 e
    obtain ⟨tm, htm⟩ := addLine_term hv
    refine foregroundKept_of_ends (f := addLine) hc (fun v h => addLine_ends between_any (x := s) (p := (tm, s.mem)) ?_)
      e e'
    rwa [painted_self htm]

end Sys2Proof.Machine
end

section
/-! The decoder and the encoder of every space against each other (R53 to R68). -/

namespace Sys2Proof

open Laws

variable {cfg : Config} {sp : Space} {i : Instr} {b : Byte} {bs rest : List Byte}

/-- Every row's bytes are read back as the row. -/
theorem roundTrip_all : ∀ i : Instr, RoundTrip.Statement i
  | .outb port b => RoundTrip.outb port b
  | .inb port => RoundTrip.inb port
  | .putglyphCfb ch fg bg x y => RoundTrip.putglyphCfb ch fg bg x y
  | .putglyphCell cell x y => RoundTrip.putglyphCell cell x y
  | .setcursor x y => RoundTrip.setcursor x y
  | .termInit => RoundTrip.termInit
  | .termWrite text => RoundTrip.termWrite text
  | .termPutchar ch => RoundTrip.termPutchar ch
  | .termAddline => RoundTrip.termAddline
  | .kbdDecode sc pressed ls rs ctrl alt => RoundTrip.kbdDecode sc pressed ls rs ctrl alt
  | .qInit => RoundTrip.qInit
  | .qPut e => RoundTrip.qPut e
  | .qRead => RoundTrip.qRead
  | .qIsempty => RoundTrip.qIsempty
  | .idtBuild a => RoundTrip.idtBuild a
  | .idtLoad => RoundTrip.idtLoad
  | .picInit => RoundTrip.picInit
  | .picSetmask => RoundTrip.picSetmask
  | .picEoi => RoundTrip.picEoi
  | .kbdIsr => RoundTrip.kbdIsr
  | .intEnable => RoundTrip.intEnable
  | .intDisable => RoundTrip.intDisable
  | .halt => RoundTrip.halt
  | .mainStep => RoundTrip.mainStep
  | .crtcSelHi => RoundTrip.crtcSelHi
  | .crtcDataHi v => RoundTrip.crtcDataHi v
  | .crtcSelLo => RoundTrip.crtcSelLo
  | .crtcDataLo v => RoundTrip.crtcDataLo v
  | .picIcw1 c => RoundTrip.picIcw1 c
  | .picIcw2M v => RoundTrip.picIcw2M v
  | .picIcw2S v => RoundTrip.picIcw2S v
  | .picIcw3M v => RoundTrip.picIcw3M v
  | .picIcw3S v => RoundTrip.picIcw3S v
  | .picIcw4 c v => RoundTrip.picIcw4 c v
  | .picMaskM v => RoundTrip.picMaskM v
  | .picMaskS v => RoundTrip.picMaskS v
  | .picEoiByte c => RoundTrip.picEoiByte c
  | .scPress k => RoundTrip.scPress k
  | .scRelease k => RoundTrip.scRelease k
  | .cell bg fg ch => RoundTrip.cell bg fg ch
  | .attr bg fg => RoundTrip.attr bg fg
  | .desc offHi attrWord selector offLo => RoundTrip.desc offHi attrWord selector offLo
  | .descEmpty => RoundTrip.descEmpty

/-- Settles O1, row by row with the round trips of Laws/PerInstr.lean. -/
theorem decodeEncodeAgree : Obligations.DecodeEncodeAgree := by
  unfold Obligations.DecodeEncodeAgree
  exact fun cfg i rest => roundTrip_all i cfg rest

/-! ### What the decoder reads -/

/-- i stands in the space, is well formed, and its bytes are the first of bs, before rest. -/
structure Encodes (cfg : Config) (sp : Space) (bs : List Byte) (i : Instr) (rest : List Byte) : Prop where
  space : i.space = sp
  wellFormed : WellFormed i = true
  bytes : bs = encode cfg i ++ rest

/-- Only a row of the descriptors' space can be ill formed (R60, R68 d). -/
theorem wellFormed_of_space_ne (h : i.space ≠ .descriptor) : WellFormed i = true :=
  bne_iff_ne.2 fun hi => h (hi ▸ rfl)

/-- An operation with its code and its operands is encoded. -/
theorem Encodes.operation (hs : i.space = .operation) (hb : bs = encode cfg i ++ rest) :
    Encodes cfg .operation bs i rest :=
  ⟨hs, wellFormed_of_space_ne (by rw [hs]; decide), hb⟩

/-- An operation's operands are read from its encoding (R66, R67). -/
theorem readOperands_encodes {o : Opcode} (h : readOperands o bs = .ok (i, rest)) :
    Encodes cfg .operation (o.code :: bs) i rest := by
  cases o with
  | outb =>
    obtain ⟨port, bs₁, h₁, h⟩ := Read.next_eq_ok.1 h
    obtain ⟨b, bs₂, h₂, h⟩ := Read.next_eq_ok.1 h
    cases h
    exact .operation rfl (by rw [takeWord16_eq h₁, takeByte_eq h₂]; simp [encode])
  | inb =>
    obtain ⟨port, bs₁, h₁, h⟩ := Read.next_eq_ok.1 h
    cases h
    exact .operation rfl (by rw [takeWord16_eq h₁]; simp [encode])
  | putglyphCfb =>
    obtain ⟨ch, bs₁, h₁, h⟩ := Read.next_eq_ok.1 h
    obtain ⟨a, bs₂, h₂, h⟩ := Read.next_eq_ok.1 h
    obtain ⟨x, bs₃, h₃, h⟩ := Read.next_eq_ok.1 h
    obtain ⟨y, bs₄, h₄, h⟩ := Read.next_eq_ok.1 h
    cases h
    exact .operation rfl (by
      rw [takeByte_eq h₁, takeByte_eq h₂, takeNat_put_eq h₃, takeNat_put_eq h₄]
      simp [encode, nibbles])
  | putglyphCell =>
    obtain ⟨cell, bs₁, h₁, h⟩ := Read.next_eq_ok.1 h
    obtain ⟨x, bs₂, h₂, h⟩ := Read.next_eq_ok.1 h
    obtain ⟨y, bs₃, h₃, h⟩ := Read.next_eq_ok.1 h
    cases h
    exact .operation rfl (by rw [takeWord16_eq h₁, takeNat_put_eq h₂, takeNat_put_eq h₃]; simp [encode])
  | setcursor =>
    obtain ⟨x, bs₁, h₁, h⟩ := Read.next_eq_ok.1 h
    obtain ⟨y, bs₂, h₂, h⟩ := Read.next_eq_ok.1 h
    cases h
    exact .operation rfl (by rw [takeNat_put_eq h₁, takeNat_put_eq h₂]; simp [encode])
  | termWrite =>
    obtain ⟨text, bs₁, h₁, h⟩ := Read.next_eq_ok.1 h
    cases h
    exact .operation rfl (by rw [takeText_eq h₁]; simp [encode])
  | termPutchar =>
    obtain ⟨ch, bs₁, h₁, h⟩ := Read.next_eq_ok.1 h
    cases h
    exact .operation rfl (by rw [takeByte_eq h₁]; simp [encode])
  | kbdDecode =>
    obtain ⟨sc, bs₁, h₁, h⟩ := Read.next_eq_ok.1 h
    obtain ⟨f, bs₂, h₂, h⟩ := Read.next_eq_ok.1 h
    cases h
    exact .operation rfl (by rw [takeByte_eq h₁, takeFlags_eq h₂]; simp [encode])
  | qPut =>
    obtain ⟨ch, bs₁, h₁, h⟩ := Read.next_eq_ok.1 h
    obtain ⟨f, bs₂, h₂, h⟩ := Read.next_eq_ok.1 h
    cases h
    exact .operation rfl (by rw [takeByte_eq h₁, takeFlags_eq h₂]; simp [encode])
  | idtBuild =>
    obtain ⟨a, bs₁, h₁, h⟩ := Read.next_eq_ok.1 h
    cases h
    exact .operation rfl (by rw [takeWord32_eq h₁]; simp [encode])
  | termInit | termAddline | qInit | qRead | qIsempty | idtLoad | picInit | picSetmask | picEoi | kbdIsr | intEnable
  | intDisable | halt | mainStep =>
    cases h
    exact .operation rfl rfl

/-- The stream's decoder reads encodings of operations (R66). -/
theorem decode_encodes (h : decode bs = .ok (i, rest)) : Encodes cfg .operation bs i rest := by
  unfold decode at h
  split at h
  · cases h
  · rename_i code more
    split at h
    · cases h
    · rename_i o ho
      rw [code_of_opcodeOf ho]
      exact readOperands_encodes h

/-- A byte at a chip's data port is the row of its place (R63, R64). -/
theorem decodePicData_encodes (c : Chip) (p : PicSlot) :
    Encodes cfg (.picData c p) (b :: rest) (decodePicData c p b) rest := by
  cases c <;> cases p <;> exact ⟨rfl, rfl, rfl⟩

/-- A byte split at its release bit (R58). -/
theorem release_bit (b : Byte) :
    b = (if b.getLsbD 7 then (1 : BitVec 1) else 0) ++ b.extractLsb' 0 7 := by
  revert b; decide

/-- Every byte is a scancode (R58). -/
theorem decodeScancode_encodes : Encodes cfg .scancode (b :: rest) (decodeScancode b) rest := by
  have hb := release_bit b
  unfold decodeScancode
  split at hb
  · rename_i h7
    rw [if_pos h7]
    exact ⟨rfl, rfl, congrArg (· :: rest) hb⟩
  · rename_i h7
    rw [if_neg h7]
    exact ⟨rfl, rfl, congrArg (· :: rest) hb⟩

/-- A cell split into its three fields (R53). -/
theorem cell_join (w : GlyphCell) : w.extractLsb' 12 4 ++ w.extractLsb' 8 4 ++ w.extractLsb' 0 8 = w := by
  apply BitVec.eq_of_getLsbD_eq
  intro k hk
  have : k < 16 := hk
  simp only [BitVec.getLsbD_append, BitVec.getLsbD_extractLsb']
  interval_cases k <;> simp

/-- The low and the high word of a descriptor, each joined from its two fields (R60). -/
theorem descriptor_join (hi lo : BitVec 32) :
    (hi ++ lo : Descriptor).extractLsb' 16 16 ++ (hi ++ lo : Descriptor).extractLsb' 0 16 = lo ∧
    (hi ++ lo : Descriptor).extractLsb' 48 16 ++ (hi ++ lo : Descriptor).extractLsb' 32 16 = hi := by
  constructor <;>
  · apply BitVec.eq_of_getLsbD_eq
    intro k hk
    have : k < 32 := hk
    simp only [BitVec.getLsbD_append, BitVec.getLsbD_extractLsb']
    interval_cases k <;> simp

/-- Eight bytes in the table are DESC.EMPTY or a live descriptor (R60). -/
theorem decodeDescriptor_encodes (lo hi : BitVec 32) :
    Encodes cfg .descriptor (putWord32 lo ++ (putWord32 hi ++ rest)) (decodeDescriptor (hi ++ lo)) rest := by
  obtain ⟨hlo, hhi⟩ := descriptor_join hi lo
  unfold decodeDescriptor
  split
  · rename_i h0
    have h0' : ∀ k, (hi ++ lo : Descriptor).extractLsb' k 16 = 0 := fun k => by rw [h0]; exact BitVec.extractLsb'_zero
    rw [h0', h0'] at hlo hhi
    subst hlo hhi
    exact ⟨rfl, rfl, rfl⟩
  · rename_i h0
    refine ⟨rfl, bne_iff_ne.2 fun hd => h0 ?_, ?_⟩
    · obtain ⟨h48, h32, h16, h00⟩ := (Instr.desc.injEq ..).mp hd
      rw [h16, h00] at hlo
      rw [h48, h32] at hhi
      rw [← hlo, ← hhi]
      decide
    · rw [encode, hlo, hhi, List.append_assoc]

/-- The decoder of every space reads encodings. -/
theorem decodeIn_encodes (h : decodeIn cfg sp bs = .ok (i, rest)) : Encodes cfg sp bs i rest := by
  cases sp with
  | operation => exact decode_encodes h
  | crtcCommand =>
    obtain ⟨b, bs₁, h₁, h⟩ := Read.next_eq_ok.1 h
    rw [takeByte_eq h₁]
    split_ifs at h with hhi hlo
    · cases h
      exact ⟨rfl, rfl, by rw [hhi]; rfl⟩
    · cases h
      exact ⟨rfl, rfl, by rw [hlo]; rfl⟩
  | crtcData high =>
    obtain ⟨b, bs₁, h₁, h⟩ := Read.next_eq_ok.1 h
    rw [takeByte_eq h₁]
    cases high <;> cases h <;> exact ⟨rfl, rfl, rfl⟩
  | picCommand c =>
    obtain ⟨b, bs₁, h₁, h⟩ := Read.next_eq_ok.1 h
    rw [takeByte_eq h₁]
    split_ifs at h with hicw1 heoi
    · cases h
      exact ⟨rfl, rfl, by rw [hicw1]; rfl⟩
    · cases h
      exact ⟨rfl, rfl, by rw [heoi]; rfl⟩
  | picData c p =>
    obtain ⟨b, bs₁, h₁, h⟩ := Read.next_eq_ok.1 h
    cases h
    exact takeByte_eq h₁ ▸ decodePicData_encodes c p
  | scancode =>
    obtain ⟨b, bs₁, h₁, h⟩ := Read.next_eq_ok.1 h
    cases h
    exact takeByte_eq h₁ ▸ decodeScancode_encodes
  | cell =>
    obtain ⟨w, bs₁, h₁, h⟩ := Read.next_eq_ok.1 h
    cases h
    exact ⟨rfl, rfl, by rw [takeWord16_eq h₁, encode, cell_join]⟩
  | attr =>
    obtain ⟨b, bs₁, h₁, h⟩ := Read.next_eq_ok.1 h
    cases h
    exact ⟨rfl, rfl, by rw [takeByte_eq h₁, encode, nibbles]; rfl⟩
  | descriptor =>
    obtain ⟨lo, bs₁, h₁, h⟩ := Read.next_eq_ok.1 h
    obtain ⟨hi, bs₂, h₂, h⟩ := Read.next_eq_ok.1 h
    cases h
    rw [takeWord32_eq h₁, takeWord32_eq h₂]
    exact decodeDescriptor_encodes lo hi

/-- Settles O2, space by space. -/
theorem decodedBytesAreTheEncoding : Obligations.DecodedBytesAreTheEncoding := by
  unfold Obligations.DecodedBytesAreTheEncoding
  intro cfg sp bs i rest h
  have he := decodeIn_encodes h
  exact ⟨he.space, he.wellFormed, he.bytes⟩

end Sys2Proof
end

section
/-! Fields of cells, colour bytes, descriptors, scancode bytes and offsets (R53 to R60). -/

namespace Sys2Proof.Machine

/-- The colour byte is a cell's high byte (R54). -/
theorem mkcell_high (ch : Byte) (fg bg : Colour) : (mkcell ch fg bg).extractLsb' 8 8 = mkattr fg bg := by
  apply BitVec.eq_of_getLsbD_eq
  intro k hk
  simp only [mkcell, mkattr, BitVec.getLsbD_extractLsb', BitVec.getLsbD_append, hk, decide_true, Bool.true_and]
  rw [if_neg (by omega), show 8 + k - 8 = k by omega]

/-- Settles O4: by the nibbles of a byte and the byte's place in the cell. -/
theorem attributeByteFormat : Obligations.AttributeByteFormat := by
  unfold Obligations.AttributeByteFormat
  intro bg fg ch
  refine ⟨rfl, nibble_high bg fg, nibble_low bg fg, mkcell_high ch fg bg, ?top⟩
  case top => rw [mkattr, BitVec.getLsbD_append, if_neg (by decide)]

/-- A cell's value, field by field (R53). -/
theorem mkcell_toNat (ch : Byte) (fg bg : Colour) :
    (mkcell ch fg bg).toNat = ch.toNat + 256 * fg.toNat + 4096 * bg.toNat := by
  rw [mkcell, BitVec.toNat_append, BitVec.toNat_append, ← Nat.shiftLeft_add_eq_or_of_lt ch.isLt,
    ← Nat.shiftLeft_add_eq_or_of_lt fg.isLt]
  omega

/-- A descriptor as its two words. -/
theorem descriptorOf_words (h a sel l : BitVec 16) : descriptorOf h a sel l = h ++ a ++ (sel ++ l) := by
  rw [descriptorOf, BitVec.append_assoc]
  rfl

/-- Settles O5: by the slices of a cell and of a descriptor; a format's row is its result and nothing else. -/
theorem dataFormatsPack : Obligations.DataFormatsPack := by
  unfold Obligations.DataFormatsPack
  intro bg fg ch h a sel l s
  obtain ⟨hbg, hfg, hch⟩ := cell_slices bg fg ch
  obtain ⟨hh, ha, hs, hl⟩ := descriptor_slices h a sel l
  rw [← descriptorOf_words] at hh ha hs hl
  refine ⟨mkcell_toNat ch fg bg, hbg, hfg, hch, hh, ha, hs, hl, ?present, rfl, rfl, rfl, rfl⟩
  case present =>
    rw [descriptorOf, BitVec.getLsbD_append, if_neg (by decide), BitVec.getLsbD_append, if_neg (by decide),
      BitVec.getLsbD_append, if_pos (by decide)]

/-- Bits 6:0 of a byte, as a number (R58). -/
theorem keyCode_toNat (b : Byte) : (keyCode b).toNat = b.toNat % 128 := by
  simp [keyCode, BitVec.extractLsb'_toNat]

/-- The key-up byte is the key-down byte plus 0x80, and the key-down byte is the code (R58). -/
theorem scancodeByte_values : ∀ k : KeyCode,
    scancodeByte true k = scancodeByte false k + 0x80 ∧ (scancodeByte false k).toNat = k.toNat := by decide

/-- Settles O6: the model's own slices, and each key code's two bytes. -/
theorem scancodeByteFormat : Obligations.ScancodeByteFormat := by
  unfold Obligations.ScancodeByteFormat
  refine ⟨fun b => rfl, fun cfg b => ⟨rfl, rfl, ?_⟩, fun k => ?_⟩
  · simp only [scanTable, keyCode_toNat]
  · obtain ⟨hup, hdown⟩ := scancodeByte_values k
    exact ⟨hup, hdown, keyCode_scancodeByte true k, keyCode_scancodeByte false k⟩

/-- The two bytes of an offset (R57). -/
theorem highByte_toNat (x y : Nat) : (highByte (cursorOffset x y)).toNat = cellOffset x y / 256 % 256 := by
  simp only [highByte, cursorOffset, BitVec.extractLsb'_toNat, BitVec.toNat_ofNat, Nat.shiftRight_eq_div_pow]
  omega

theorem lowByte_toNat (x y : Nat) : (lowByte (cursorOffset x y)).toNat = cellOffset x y % 256 := by
  simp only [lowByte, cursorOffset, BitVec.extractLsb'_toNat, BitVec.toNat_ofNat, Nat.shiftRight_zero]
  omega

/-- Settles O7: by the two bytes as quotient and remainder of the offset. -/
theorem offsetAndItsBytes : Obligations.OffsetAndItsBytes := by
  unfold Obligations.OffsetAndItsBytes
  intro x y
  refine ⟨rfl, highByte_toNat x y, lowByte_toNat x y, fun hx hy => ?_⟩
  rw [highByte_toNat]
  unfold cellOffset
  have ho : y * 80 + x ≤ 1999 := by omega
  have hhi : (y * 80 + x) / 256 ≤ 7 := by omega
  exact ⟨ho, (Nat.mod_le _ _).trans hhi, by omega, by omega⟩

end Sys2Proof.Machine
end

section
/-! The port-byte rows: what each makes of its device, where it is refused, and that OUTB runs them
(R62 to R65, R68, R75). -/

namespace Sys2Proof.Machine

variable {s : State} {p : Port} {b v : Byte} {c : Chip} {sp : Space} {i : Instr} {rest : List Byte}

/-! ### Rows at their place, and outside it -/

/-- A chip's register is written and nothing is returned, in either order. -/
theorem setPic_setResult (q : Pic) (r : Result) : (setPic c q s).setResult r = setPic c q (s.setResult r) := by
  cases c <;> rfl

/-- Settles O13: each row at its place is the reaction of its device (Laws/Devices.lean). -/
theorem deviceRowsReact : Obligations.DeviceRowsReact := by
  unfold Obligations.DeviceRowsReact
  intro s c v
  refine ⟨rfl, rfl, ?crtcDataHi, ?crtcDataLo, ?picIcw1, ?picIcw2M, ?picIcw2S, ?picIcw3M, ?picIcw3S, ?picIcw4, ?picMaskM,
    ?picMaskS, ?picEoiByte⟩
  case crtcDataHi => exact fun h => if_pos h
  case crtcDataLo => exact fun h => if_pos h
  case picIcw1 =>
    intro h
    exact (congrArg (finish .none) (picStart_off h)).trans (congrArg _ (setPic_setResult _ _))
  case picIcw2M => exact fun h => if_pos h
  case picIcw2S => exact fun h => if_pos h
  case picIcw3M => exact fun h => if_pos h
  case picIcw3S => exact fun h => if_pos h
  case picIcw4 =>
    intro h
    exact (if_pos h).trans (congrArg _ (setPic_setResult _ _))
  case picMaskM => exact fun h hc => (if_pos h).trans (congrArg (finish .none) (picMask_on (c := .master) hc))
  case picMaskS => exact fun h hc => (if_pos h).trans (congrArg (finish .none) (picMask_on (c := .slave) hc))
  case picEoiByte =>
    intro h
    exact (congrArg (finish .none) (picAcknowledge_on h)).trans (congrArg _ (setPic_setResult _ _))

/-- A mask byte outside its sequence, or to a chip that is not configured (R75). -/
theorem maskRow_refused {k : Fin 4} (h : k ≠ 0 ∨ (pic s c).configured = false) :
    (if k = 0 then finish .none (picMask c v s) else refuse .portProtocol s) = refuse .portProtocol s := by
  split
  · rename_i hk
    rw [picMask_off (h.resolve_left (not_not_intro hk)), finish_refuse]
  · rfl

/-- Settles O14: the test of a row's place fails, or the device behind it refuses. -/
theorem misplacedDeviceRowsRefused : Obligations.MisplacedDeviceRowsRefused := by
  unfold Obligations.MisplacedDeviceRowsRefused
  intro s c v
  refine ⟨fun h => if_neg h, fun h => if_neg h, ?picIcw1, fun h => if_neg h, fun h => if_neg h, fun h => if_neg h,
    fun h => if_neg h, fun h => if_neg h, ?picMaskM, ?picMaskS, ?picEoiByte⟩
  case picIcw1 => exact fun h => congrArg (finish .none) (picStart_on h)
  case picMaskM => exact fun h => maskRow_refused (c := .master) h
  case picMaskS => exact fun h => maskRow_refused (c := .slave) h
  case picEoiByte => exact fun h => congrArg (finish .none) (picAcknowledge_off h)

/-! ### OUTB runs the row -/

/-- At CRTC_CMD the row a byte stands for is the device's reaction to it (R62). -/
theorem crtcCommandByte_row (h : decodeIn s.cfg .crtcCommand [b] = .ok (i, rest)) :
    exec i s = finish .none (crtcCommandByte b s) := by
  simp only [decodeIn, takeByte_cons, Read.next_ok] at h
  unfold crtcCommandByte
  split_ifs at h with hhi hlo
  · cases h
    rw [if_pos (.inl hhi), hhi]
    rfl
  · cases h
    rw [if_pos (.inr hlo), hlo]
    rfl

/-- A byte that is no row at CRTC_CMD is refused there. -/
theorem crtcCommandByte_noRow (h : ∀ i, decodeIn s.cfg .crtcCommand [b] ≠ .ok (i, [])) :
    crtcCommandByte b s = refuse .portProtocol s := by
  refine if_neg fun hb => ?_
  rcases hb with rfl | rfl
  · exact h _ (if_pos rfl)
  · by_cases he : s.cfg.cursorSelLo = s.cfg.cursorSelHi
    · exact h _ (if_pos he)
    · exact h _ ((if_neg he).trans (if_pos rfl))

/-- At a chip's command port the row a byte stands for is the chip's reaction to it (R63, R65). -/
theorem picCommandByte_row (h : decodeIn s.cfg (.picCommand c) [b] = .ok (i, rest)) :
    exec i s = finish .none (picCommandByte c b s) := by
  simp only [decodeIn, takeByte_cons, Read.next_ok] at h
  unfold picCommandByte
  split_ifs at h with hicw1 heoi
  · cases h
    rw [if_pos hicw1]
    rfl
  · cases h
    rw [if_neg hicw1, if_pos heoi]
    rfl

/-- A byte that is no row at a chip's command port is refused there. -/
theorem picCommandByte_noRow (h : ∀ i, decodeIn s.cfg (.picCommand c) [b] ≠ .ok (i, [])) :
    picCommandByte c b s = refuse .portProtocol s := by
  have hicw1 : b ≠ s.cfg.icw1 := fun he => h _ (if_pos he)
  exact picCommandByte_other hicw1 fun he => h _ ((if_neg hicw1).trans (if_pos he))

/-- At a chip's data port every byte is the row of its place in the chip's sequence (R63, R64). -/
theorem picDataByte_row : exec (decodePicData c (picSlot (pic s c)) b) s = finish .none (picDataByte c b s) := by
  unfold picSlot
  split_ifs with h3 h2 h1
  · rw [picDataByte_base h3]
    cases c <;> exact if_pos h3
  · rw [picDataByte_wiring h2]
    cases c <;> exact if_pos h2
  · rw [picDataByte_mode h1]
    cases c <;> exact if_pos h1
  · have h0 : (pic s c).step = 0 := by omega
    rw [picDataByte_mask h0]
    cases c <;> exact if_pos h0

/-- A byte at a port stands for the row that is the reaction of the device behind the port (R75). -/
theorem deviceByte_row (hp : portSpace s p = some sp) (hd : decodeIn s.cfg sp [b] = .ok (i, [])) :
    exec i s = finish .none (deviceByte p b s) := by
  unfold portSpace at hp
  unfold deviceByte
  split_ifs at hp ⊢ with h1 h2 hhi hlo h3 h4 h5 h6
  · cases hp
    exact crtcCommandByte_row hd
  · cases hp
    cases hd
    exact (if_pos hhi).trans (congrArg (finish .none) (if_pos hhi).symm)
  · cases hp
    cases hd
    exact (if_pos hlo).trans (congrArg (finish .none) ((if_neg hhi).trans (if_pos hlo)).symm)
  · cases hp
    exact picCommandByte_row hd
  · cases hp
    exact picCommandByte_row hd
  · cases hp
    cases hd
    exact picDataByte_row (c := .master)
  · cases hp
    cases hd
    exact picDataByte_row (c := .slave)

/-- A byte at a port where no row of the table stands is refused by whatever is behind the port (R75). -/
theorem deviceByte_noRow (h : ∀ sp i, portSpace s p = some sp → decodeIn s.cfg sp [b] ≠ .ok (i, [])) :
    deviceByte p b s = refuse .portProtocol s := by
  unfold portSpace at h
  unfold deviceByte
  split_ifs at h ⊢ with h1 h2 hhi hlo h3 h4 h5 h6
  · exact crtcCommandByte_noRow fun i => h _ i rfl
  · exact absurd rfl (h _ _ rfl)
  · exact absurd rfl (h _ _ rfl)
  · exact (if_neg hhi).trans (if_neg hlo)
  · exact picCommandByte_noRow fun i => h _ i rfl
  · exact picCommandByte_noRow fun i => h _ i rfl
  · exact absurd rfl (h _ _ rfl)
  · exact absurd rfl (h _ _ rfl)
  · rfl

/-- Settles O12: OUTB is the device's reaction in the logged state, where the port and the byte stand as they did before
the write was logged. -/
theorem outbRunsTheDeviceRow : Obligations.OutbRunsTheDeviceRow := by
  unfold Obligations.OutbRunsTheDeviceRow
  intro s p b
  have hspace : portSpace (logIo ⟨.w, p, b⟩ s) p = portSpace s p := rfl
  refine ⟨fun sp i hp hd => ?_, fun h => ?_⟩
  · exact (deviceByte_row (s := logIo ⟨.w, p, b⟩ s) (hspace.trans hp) hd).symm
  · exact congrArg (finish .none) (deviceByte_noRow (s := logIo ⟨.w, p, b⟩ s) h)

end Sys2Proof.Machine
end

section
/-! The modifier update (R74, R100), and the steps whose word comes from outside the stream or may not stand in it
(R66, R68). -/

namespace Sys2Proof.Machine

variable {s t : State} {cfg : Config} {b : Byte} {i : Instr} {rest : List Byte}

/-! ### Modifiers -/

/-- The class of a key code, where the four codes are distinct (R74). -/
theorem modclass_eq (hd : cfg.modifiersDistinct = true) (k : KeyCode) :
    (modclass cfg k = .lshift ↔ k = cfg.scLshift) ∧ (modclass cfg k = .rshift ↔ k = cfg.scRshift) ∧
    (modclass cfg k = .ctrl ↔ k = cfg.scCtrl) ∧ (modclass cfg k = .alt ↔ k = cfg.scAlt) ∧
    (modclass cfg k = .none ↔ k ≠ cfg.scLshift ∧ k ≠ cfg.scRshift ∧ k ≠ cfg.scCtrl ∧ k ≠ cfg.scAlt) := by
  simp only [Config.modifiersDistinct, decide_eq_true_eq, List.nodup_cons, List.mem_cons, List.not_mem_nil, not_or,
    or_false, not_false_eq_true, List.nodup_nil, and_true] at hd
  unfold modclass
  split_ifs with h1 h2 h3 h4 <;> simp_all

/-- Settles O29: the update writes the flag that the byte's class names. -/
theorem modifierUpdate : Obligations.ModifierUpdate := by
  unfold Obligations.ModifierUpdate
  intro cfg m b hd
  obtain ⟨hl, hr, hc, ha, hn⟩ := modclass_eq hd (keyCode b)
  refine ⟨modclass_eq hd, fun h => ?_, fun h => ?_, fun h => ?_, fun h => ?_, fun h1 h2 h3 h4 => ?_⟩
  · rw [modupdate, hl.2 h]; rfl
  · rw [modupdate, hr.2 h]; rfl
  · rw [modupdate, hc.2 h]; rfl
  · rw [modupdate, ha.2 h]; rfl
  · rw [modupdate, hn.2 ⟨h1, h2, h3, h4⟩]

/-! ### Words from outside the stream -/

theorem step_of_inner (h : turn s = .inner i t) : step s = exec i t := by simp only [step, h]

/-- A machine that runs takes the word handed in before anything else (R66). -/
theorem turn_work {w : WorkItem} {ws : List WorkItem} (hf : s.fault = none) (hr : s.refusal = none)
    (hw : s.work = w :: ws) : turn s = workTurn w ws s := by
  simp only [turn, hf, hr, hw]

/-- The whole of a word handed in: it is performed, or refused to its context. -/
theorem workTurn_whole {w : WorkItem} (ws : List WorkItem) (hd : decodeIn s.cfg w.space w.bytes = .ok (i, [])) :
    workTurn w ws s =
      if mayPerform s.ctx i then .inner i (s.setWork ws) else .settled (refuse .wrongContext s) := by
  simp only [workTurn, hd, List.isEmpty_nil, if_true]

/-- Settles O52: the word's turn comes before the schedule, and its context decides between the two clauses. -/
theorem stepRunsTheWorkItem : Obligations.StepRunsTheWorkItem := by
  unfold Obligations.StepRunsTheWorkItem
  intro s w ws i hf hr hw hd
  have ht := (turn_work hf hr hw).trans (workTurn_whole ws hd)
  refine ⟨fun hfg hisr => ?_, fun h => ?_⟩
  · have hm : mayPerform s.ctx i = true := by
      cases hc : s.ctx with
      | fg => exact hfg hc
      | isr => exact hisr hc
    rw [if_pos hm] at ht
    exact step_of_inner ht
  · have hm : mayPerform s.ctx i = false := by
      rcases h with ⟨hc, hi⟩ | ⟨hc, hi⟩ <;> (rw [hc]; exact hi)
    rw [hm, if_neg Bool.false_ne_true] at ht
    exact step_of_settled ht

/-! ### What a stream may not hold -/

/-- An awake foreground at bytes that are no operation. -/
theorem foregroundTurn_undecoded {e : DecodeError} (hh : t.halted = false) (hs : t.stream = b :: rest)
    (hd : decode (b :: rest) = .error e) : foregroundTurn t = .settled (refuse (decodeReason e) t) := by
  unfold foregroundTurn
  rw [hh, if_neg Bool.false_ne_true, hs]
  simp only [hd]

/-- The six operations that are only called are not for the stream (R66). -/
theorem called_not_inStream (h : i = .termAddline ∨ i = .picEoi ∨ i = .kbdIsr ∨ (∃ p, i = .inb p) ∨ (∃ e, i = .qPut e) ∨
    ∃ sc p ls rs c a, i = .kbdDecode sc p ls rs c a) : i.contexts.inStream = false := by
  rcases h with rfl | rfl | rfl | ⟨p, rfl⟩ | ⟨e, rfl⟩ | ⟨sc, p, ls, rs, c, a, rfl⟩ <;> rfl

/-- Settles O53: the foreground's turn at an unknown code, and at an operation that is only called. -/
theorem illegalStreamOperationsRefused : Obligations.IllegalStreamOperationsRefused := by
  unfold Obligations.IllegalStreamOperationsRefused
  intro s t h
  obtain ⟨ht, hawake, hstream, -⟩ := h.turn
  refine ⟨fun code rest hs hcode => ?_, fun i rest hd hi => ?_⟩
  · have hd := decode_unknownOperation (rest := rest) (opcodeOf_unknown code hcode)
    exact step_of_settled (ht.trans (foregroundTurn_undecoded hawake (hstream.trans hs) hd))
  · have hf := foregroundTurn_stream hawake (hstream.symm ▸ hd)
    rw [called_not_inStream hi, if_neg Bool.false_ne_true] at hf
    exact step_of_settled (ht.trans hf)

end Sys2Proof.Machine
end

section
/-! The boot order from reset (R72, R102, R139, R140), nothing falling into it. -/

namespace Sys2Proof.Machine

variable {s t : State} {a : Address} {cfg : Config}

/-! ### Each operation of the boot, undisturbed -/

theorem exec_qInit (hb : s.queueBuilt = false) (hu : s.sched = []) :
    exec .qInit s = .next ((emptyQueue s).setResult .none) := execQInit_undisturbed hb hu

theorem exec_termInit (hc : s.cfg.wf = true) (hu : s.sched = []) :
    exec .termInit s = .next ((painted s (homed s)).setResult .none) := by
  obtain ⟨u, h, rfl, -, -⟩ := (construct_ends between_undisturbed (s := s) ⟨rfl, hc, hu⟩).completes
  exact congrArg (finish .none) h

theorem exec_idtBuild (hi : s.intFlag = false) : exec (.idtBuild a) s = .next ((buildTable a s).setResult .none) :=
  if_neg (by rw [hi]; exact Bool.false_ne_true)

theorem exec_idtLoad (hi : s.intFlag = false) : exec .idtLoad s = .next ((loadTable s).setResult .none) :=
  if_neg (by rw [hi]; exact Bool.false_ne_true)

theorem exec_picInit (hc : s.cfg.wf = true) (hi : s.intFlag = false) (hu : s.sched = []) :
    exec .picInit s = .next ((onChips s (written (initBytes s.cfg))
      (initialised s.picM s.cfg.icw2M s.cfg.icw3M s.cfg.icw4)
      (initialised s.picS s.cfg.icw2S s.cfg.icw3S s.cfg.icw4)).setResult .none) :=
  (if_neg (by rw [hi]; exact Bool.false_ne_true)).trans (congrArg (finish .none) (portWrites_init hc hi hu))

theorem exec_picSetmask (hc : s.cfg.wf = true) (hu : s.sched = []) (hm : s.picM.configured = true)
    (hs : s.picS.configured = true) (h1 : s.picM.step = 0) (h2 : s.picS.step = 0) :
    exec .picSetmask s = .next ((onChips s (written (maskBytes s.cfg)) { s.picM with imr := some s.cfg.maskM }
      { s.picS with imr := some s.cfg.maskS }).setResult .none) :=
  congrArg (finish .none) (portWrites_mask hc hu hm hs h1 h2)

theorem exec_intEnable (hd : setupDone s = true) :
    exec .intEnable s = .next ((s.setIntFlag true).setResult .none) := if_pos hd

/-! ### The invariant along a run -/

/-- A run of operations of the stream keeps what holds at every boundary. -/
theorem execAll_keeps (is : List Instr) (hs : ∀ i ∈ is, i.contexts.inStream = true) (h : Held False s)
    (hc : CursorInGrid s) (e : execAll is s = .next t) : Keeps False s t := by
  induction is generalizing s with
  | nil => exact Host.Outcome.next.inj e ▸ .refl h hc
  | cons i is ih =>
    obtain ⟨u, hu, e⟩ := andThen_eq_next.1 e
    have k1 := exec_keeps (hs i List.mem_cons_self) h hc False.elim hu
    exact k1.trans (ih (fun j hj => hs j (List.mem_cons_of_mem i hj)) k1.held k1.cursor e)

/-! ### The table -/

/-- IDT.BUILD writes no byte outside the table (R94). -/
theorem read_buildTable_outside {k : Nat} (hc : s.cfg.wf = true) (hk : ¬ inTable s.cfg k) :
    Memory.read s.cfg (buildTable a s).mem k = Memory.read s.cfg s.mem k := by
  have hv := (Config.kbdVector_eq hc).2.1
  unfold inTable at hk
  rw [read_buildTable_other (by unfold descAddress; omega)]
  exact Memory.read_writeBytes_other (by rw [List.length_replicate]; unfold descAddress; omega)

/-- The table and the screen do not overlap (R7): IDT.BUILD leaves every cell as it is. -/
theorem vram_buildTable {off : Nat} (hc : s.cfg.wf = true) (ho : off < 2000) :
    vram (buildTable a s) off = vram s off := by
  have hw := Config.windows_apart hc
  have h0 := read_buildTable_outside (a := a) (k := cellAddress s.cfg off) hc (by unfold inTable cellAddress; omega)
  have h1 := read_buildTable_outside (a := a) (k := cellAddress s.cfg off + 1) hc (by unfold inTable cellAddress; omega)
  have hcfg : (buildTable a s).cfg = s.cfg := rfl
  simp only [vram, hcfg, h0, h1]

theorem mirrored_buildTable (hc : s.cfg.wf = true) (hm : Mirrored s) : Mirrored (buildTable a s) := fun tm ht off =>
  (vram_buildTable hc off.isLt).trans (hm tm ht off)

/-- Delivery reads the handler's descriptor at the live entry (R94, R123). -/
theorem idtEntry_buildTable (hw : Memory.wf s.cfg s.mem = true) :
    idtEntry (buildTable a s) s.cfg.kbdVector.toNat = some (mkdesc s.cfg a) :=
  idtEntry_of_stored fun _ hi => read_buildTable_live hw hi

/-! ### The boot -/

theorem execAll_append (is js : List Instr) : execAll (is ++ js) s = andThen (execAll is s) (execAll js) := by
  induction is generalizing s with
  | nil => rfl
  | cons i is ih =>
    rw [List.cons_append, execAll, execAll, andThen_assoc]
    exact congrArg (andThen _) (funext fun u => ih)

/-- What INT.INSTALL and INT.ENABLE find in the boot order: a display that is up, an empty ring, interrupts off, no line
pending, and the loop as the rest of the stream. -/
structure DisplayUp (s : State) : Prop extends Inv s where
  undisturbed : s.sched = []
  masked : s.intFlag = false
  noEvents : s.rd = 0 ∧ s.wr = 0 ∧ ∀ i, slot s i = none
  built : s.term.isSome
  noRequest : s.picM.irr = 0
  looping : s.stream = [] ∧ s.mainLoop = true

/-- The state IDT.BUILD and IDT.LOAD leave. -/
def tableReady (a : Address) (s : State) : State := (loadTable ((buildTable a s).setResult .none)).setResult .none

/-- The state INT.INSTALL leaves: the table built and loaded, both chips configured and masked. -/
def installed (a : Address) (s : State) : State :=
  (onChips (tableReady a s) (written (initBytes s.cfg) ++ written (maskBytes s.cfg))
    { initialised s.picM s.cfg.icw2M s.cfg.icw3M s.cfg.icw4 with imr := some s.cfg.maskM }
    { initialised s.picS s.cfg.icw2S s.cfg.icw3S s.cfg.icw4 with imr := some s.cfg.maskS }).setResult .none

/-- Two sequences of port writes, one after the other. -/
theorem onChips_onChips (l l' : List IoEntry) (m q m' q' : Pic) (r : Result) :
    onChips ((onChips s l m q).setResult r) l' m' q' = (onChips s (l ++ l') m' q').setResult r := by
  simp only [onChips, State.setResult_iotrace, State.setPicS_iotrace, State.setPicM_iotrace, State.setIotrace_iotrace,
    List.append_assoc]
  rfl

theorem execAll_intInstall (hc : s.cfg.wf = true) (hi : s.intFlag = false) (hu : s.sched = []) :
    execAll (intInstall a) s = .next (installed a s) := by
  rw [intInstall, execAll, exec_idtBuild hi, andThen_next, execAll,
    exec_idtLoad (s := (buildTable a s).setResult .none) hi, andThen_next]
  change execAll [.picInit, .picSetmask] (tableReady a s) = _
  rw [execAll, exec_picInit (s := tableReady a s) hc hi hu, andThen_next, execAll,
    exec_picSetmask (s := (onChips (tableReady a s) _ (initialised _ _ _ _) (initialised _ _ _ _)).setResult .none)
      hc hu rfl rfl rfl rfl, onChips_onChips]
  rfl

/-- The state INT.INSTALL and INT.ENABLE leave. -/
def enabled (a : Address) (s : State) : State := ((installed a s).setIntFlag true).setResult .none

/-- INT.INSTALL and INT.ENABLE leave the screen, the queue and the stream alone: memory is as IDT.BUILD leaves it. -/
theorem enabled_frame (a : Address) (s : State) : (enabled a s).cfg = s.cfg ∧ (enabled a s).mem = (buildTable a s).mem ∧
    (enabled a s).term = s.term ∧ (enabled a s).ring = s.ring ∧ (enabled a s).rd = s.rd ∧ (enabled a s).wr = s.wr ∧
    (enabled a s).stream = s.stream ∧ (enabled a s).mainLoop = s.mainLoop ∧ (enabled a s).picM.irr = s.picM.irr := by
  simp [enabled, installed, onChips, tableReady, loadTable, buildTable, storeDescriptor, zeroTable, initialised]

/-- What they write for delivery to read (R95 to R97, R104). -/
theorem enabled_delivery (a : Address) (s : State) : (enabled a s).intFlag = true ∧
    (enabled a s).idtr = some ⟨s.cfg.idtBase, s.cfg.idtLimit⟩ ∧ (enabled a s).picM.base = some s.cfg.icw2M ∧
    (enabled a s).picM.imr = some s.cfg.maskM := by
  simp [enabled, installed, onChips, tableReady, loadTable, buildTable, storeDescriptor, zeroTable, initialised]

theorem DisplayUp.execAll (h : DisplayUp s) : execAll (intInstall a ++ [.intEnable]) s = .next (enabled a s) := by
  rw [execAll_append, execAll_intInstall h.config h.masked h.undisturbed, andThen_next, Machine.execAll,
    exec_intEnable rfl]
  rfl

theorem DisplayUp.keeps (h : DisplayUp s) : Keeps False s (enabled a s) :=
  execAll_keeps (intInstall a ++ [.intEnable]) (by simp [intInstall, Instr.contexts, ctxFg])
    ⟨h.toSound, False.elim⟩ h.cursor h.execAll

/-- With the display up and a silent timer, INT.INSTALL and INT.ENABLE make a booted console. -/
theorem DisplayUp.booted (h : DisplayUp s) (ht : s.cfg.envTimerAsserts = false) :
    Booted (enabled s.cfg.handlerAddr s) := by
  have hk := h.keeps (a := s.cfg.handlerAddr)
  obtain ⟨hcfg, hmem, hterm, hring, hrd, hwr, hstream, hloop, hirr⟩ := enabled_frame s.cfg.handlerAddr s
  obtain ⟨hint, hidtr, hbase, himr⟩ := enabled_delivery s.cfg.handlerAddr s
  have hlive := idtEntry_congr (s := buildTable s.cfg.handlerAddr s) (v := s.cfg.kbdVector.toNat) hcfg hmem
  generalize enabled s.cfg.handlerAddr s = t at *
  refine ⟨⟨hk.held.toSound, ?queue, hint, ?built, ?timerSilent, ?loaded, ?live, ?routed, ?onlyKeyboard, ?latch, ?looping⟩,
    hk.cursor⟩
  case queue => exact (queueSound_empty h.noEvents.1 h.noEvents.2.1 h.noEvents.2.2).congr hring hrd hwr
  case built => rw [hterm]; exact h.built
  case timerSilent => rw [hcfg]; exact ht
  case loaded => rw [hcfg]; exact hidtr
  case live => rw [hcfg]; exact hlive.trans (idtEntry_buildTable h.memory)
  case routed => rw [hcfg]; exact ⟨hbase, himr⟩
  case onlyKeyboard => rw [hirr, h.noRequest]; exact fun l hl => nomatch BitVec.getLsbD_zero.symm.trans hl
  case latch => rw [hirr, h.noRequest]; exact fun hl => nomatch BitVec.getLsbD_zero.symm.trans hl
  case looping => rw [hstream, hloop]; exact h.looping

theorem mirrored_enabled (hc : s.cfg.wf = true) (hm : Mirrored s) : Mirrored (enabled a s) := by
  obtain ⟨hcfg, hmem, hterm, -⟩ := enabled_frame a s
  exact (mirrored_congr (s := buildTable a s) hcfg hmem hterm).2 (mirrored_buildTable hc hm)

/-- The machine after reset with the given parameters, MAIN.LOOP to come after its stream. -/
def powered (cfg : Config) : State := { State.reset with cfg := cfg, mainLoop := true }

/-- The state Q.INIT and TERM.INIT leave after reset. -/
def displayed (cfg : Config) : State :=
  let s := (emptyQueue (powered cfg)).setResult .none
  (painted s (homed s)).setResult .none

theorem powered_inv (hc : cfg.wf = true) : Inv (powered cfg) where
  toSound := { sound_reset with config := hc, memory := rfl, table := fun _ h => (nomatch h) }
  cursor _ h := nomatch h

theorem execAll_displayed (hc : cfg.wf = true) :
    execAll [.qInit, .termInit] (powered cfg) = .next (displayed cfg) := by
  rw [execAll, exec_qInit rfl rfl, andThen_next, execAll,
    exec_termInit (s := (emptyQueue (powered cfg)).setResult .none) hc rfl]
  rfl

/-- What Q.INIT and TERM.INIT leave of reset: an empty ring, and nothing set up yet. -/
theorem displayed_fields (cfg : Config) : (displayed cfg).sched = [] ∧ (displayed cfg).intFlag = false ∧
    (displayed cfg).rd = 0 ∧ (displayed cfg).wr = 0 ∧ (displayed cfg).ring = Vector.replicate 1024 none ∧
    (displayed cfg).picM.irr = 0 ∧ (displayed cfg).stream = [] ∧ (displayed cfg).mainLoop = true := by
  simp [displayed, painted, emptyQueue, powered, State.reset, Pic.reset]

/-- TERM.INIT has drawn a blank grid (R81). -/
theorem displayed_term : (displayed cfg).term = some (blankTerminal cfg) :=
  congrArg some (homed_spec ((emptyQueue (powered cfg)).setResult .none)).1

theorem displayed_up (hc : cfg.wf = true) : DisplayUp (displayed cfg) := by
  have hp := powered_inv hc
  have hk := execAll_keeps [.qInit, .termInit] (by decide) ⟨hp.toSound, False.elim⟩ hp.cursor (execAll_displayed hc)
  obtain ⟨hsched, hint, hrd, hwr, hring, hirr, hstream, hloop⟩ := displayed_fields cfg
  have hslots : ∀ i, slot (displayed cfg) i = none := fun i => by
    simp only [slot, hring, Vector.getElem_replicate]
  exact ⟨hk.held.inv hk.cursor, hsched, hint, ⟨hrd, hwr, hslots⟩, by rw [displayed_term]; rfl, hirr, hstream, hloop⟩

theorem displayed_mirrored : Mirrored (displayed cfg) :=
  (mirrored_congr rfl rfl rfl).2
    (mirrored_painted.2 ((homed_spec ((emptyQueue (powered cfg)).setResult .none)).2.2 rfl).2)

theorem execAll_boot (hc : cfg.wf = true) :
    execAll (boot cfg.handlerAddr) (powered cfg) = .next (enabled cfg.handlerAddr (displayed cfg)) := by
  rw [boot, List.append_assoc, execAll_append, execAll_displayed hc, andThen_next, (displayed_up hc).execAll]

/-- Settles O58: Q.INIT and TERM.INIT put the display up, and INT.INSTALL and INT.ENABLE make a booted console of it,
whose table does not overlap the screen that TERM.INIT has drawn. -/
theorem bootReachesTheLoop : Obligations.BootReachesTheLoop := by
  unfold Obligations.BootReachesTheLoop
  intro cfg hc ht
  have hcfg : (displayed cfg).cfg = cfg := rfl
  have hb := (displayed_up hc).booted (hcfg ▸ ht)
  obtain ⟨-, -, hterm, -⟩ := enabled_frame cfg.handlerAddr (displayed cfg)
  exact ⟨enabled cfg.handlerAddr (displayed cfg), execAll_boot hc, hb, mirrored_enabled hc displayed_mirrored,
    hterm.trans displayed_term⟩

end Sys2Proof.Machine
end

section
/-! Port I/O (R75, R76): OUTB at each port of the map and elsewhere, INB, and the line an end-of-interrupt clears. -/

namespace Sys2Proof.Machine

variable {s t : State} {p : Port} {b : Byte} {c : Chip} {q : Pic}

/-! ### OUTB, from what the device behind the port makes of the logged state -/

/-- The port write answers a state, and OUTB returns nothing from there. -/
theorem exec_outb_next (h : portWrite p b s = .next t) : exec (.outb p b) s = .next (t.setResult .none) :=
  congrArg (finish .none) h

/-- The write stays logged when the device refuses it. -/
theorem exec_outb_refused (h : portWrite p b s = refuse .portProtocol (logIo ⟨.w, p, b⟩ s)) :
    exec (.outb p b) s = refuse .portProtocol (logIo ⟨.w, p, b⟩ s) :=
  congrArg (finish .none) h

/-- A device that only writes a chip's registers. -/
theorem exec_outb_chip (h : portWrite p b s = .next (setPic c q (logIo ⟨.w, p, b⟩ s))) :
    exec (.outb p b) s = .next (setPic c q ((logIo ⟨.w, p, b⟩ s).setResult .none)) :=
  (exec_outb_next h).trans (congrArg _ (setPic_setResult q .none))

/-! ### The display controller's ports -/

/-- A byte at CRTC_CMD that selects nothing. -/
theorem portWrite_noSelect (h1 : b ≠ s.cfg.cursorSelHi) (h2 : b ≠ s.cfg.cursorSelLo) :
    portWrite s.cfg.crtcCmd b s = refuse .portProtocol (logIo ⟨.w, s.cfg.crtcCmd, b⟩ s) :=
  (if_pos rfl).trans (if_neg (not_or.2 ⟨h1, h2⟩))

/-- A byte at CRTC_DATA with neither half of the cursor selected. -/
theorem portWrite_unselected (hc : s.cfg.wf = true) (h1 : s.crtc.index ≠ some s.cfg.cursorSelHi)
    (h2 : s.crtc.index ≠ some s.cfg.cursorSelLo) :
    portWrite s.cfg.crtcData b s = refuse .portProtocol (logIo ⟨.w, s.cfg.crtcData, b⟩ s) := by
  obtain ⟨hne, -⟩ := Config.ports_ne hc
  exact (if_neg hne.symm).trans ((if_pos rfl).trans ((if_neg h1).trans (if_neg h2)))

/-- Settles O8: register by register, the two ports at the bytes they take and at those they refuse. -/
theorem outbDrivesCursorPorts : Obligations.OutbDrivesCursorPorts := by
  unfold Obligations.OutbDrivesCursorPorts
  intro s b hc
  refine ⟨?select, ?other, ?high, ?low, ?unselected⟩
  case select => exact fun hb => exec_outb_next (portWrite_select hb)
  case other => exact fun h1 h2 => exec_outb_refused (portWrite_noSelect h1 h2)
  case high => exact fun hi => exec_outb_next (portWrite_high hc hi)
  case low => exact fun hi => exec_outb_next (portWrite_low hc hi)
  case unselected => exact fun h1 h2 => exec_outb_refused (portWrite_unselected hc h1 h2)

/-! ### A controller chip's ports -/

/-- Settles O9: the command port's reaction to each byte, in the logged state, where the chip is as it was. -/
theorem outbDrivesControllerCommand : Obligations.OutbDrivesControllerCommand := by
  unfold Obligations.OutbDrivesControllerCommand
  intro s c b hc logged refused
  have hpic : pic logged c = pic s c := pic_logIo ⟨.w, picCommandPort s.cfg c, b⟩ c
  have hport : portWrite (picCommandPort s.cfg c) b s = picCommandByte c b logged := portWrite_command hc
  rw [← hpic]
  refine ⟨?start, ?startRefused, ?acknowledge, ?acknowledgeRefused, ?other⟩
  case start =>
    rintro rfl hi
    exact exec_outb_chip (hport.trans ((picCommandByte_icw1 (s := logged)).trans (picStart_off hi)))
  case startRefused =>
    rintro rfl hi
    exact exec_outb_refused (hport.trans ((picCommandByte_icw1 (s := logged)).trans (picStart_on hi)))
  case acknowledge =>
    rintro rfl hp
    exact exec_outb_chip (hport.trans ((picCommandByte_eoi (s := logged) hc).trans (picAcknowledge_on hp)))
  case acknowledgeRefused =>
    rintro rfl hp
    exact exec_outb_refused (hport.trans ((picCommandByte_eoi (s := logged) hc).trans (picAcknowledge_off hp)))
  case other => exact fun h1 h2 => exec_outb_refused (hport.trans (picCommandByte_other h1 h2))

/-- Settles O10: the data port's reaction at each STEP, in the logged state, where the chip is as it was. -/
theorem outbDrivesControllerData : Obligations.OutbDrivesControllerData := by
  unfold Obligations.OutbDrivesControllerData
  intro s c b hc logged
  have hpic : pic logged c = pic s c := pic_logIo ⟨.w, picDataPort s.cfg c, b⟩ c
  have hport : portWrite (picDataPort s.cfg c) b s = picDataByte c b logged := portWrite_data hc
  rw [← hpic]
  refine ⟨?base, ?wiring, ?mode, ?mask, ?maskRefused⟩
  case base => exact fun h => exec_outb_chip (hport.trans (picDataByte_base h))
  case wiring => exact fun h => exec_outb_chip (hport.trans (picDataByte_wiring h))
  case mode => exact fun h => exec_outb_chip (hport.trans (picDataByte_mode h))
  case mask => exact fun h hp => exec_outb_chip (hport.trans ((picDataByte_mask h).trans (picMask_on hp)))
  case maskRefused => exact fun h hp => exec_outb_refused (hport.trans ((picDataByte_mask h).trans (picMask_off hp)))

/-! ### Any other port -/

/-- The six ports at which a device takes a byte are in the map, and the keyboard's port is none of them (R45). -/
theorem portSpace_elsewhere (hc : s.cfg.wf = true) (h : legalPort s.cfg p = false ∨ p = s.cfg.kbdDataPort) :
    portSpace s p = none := by
  have hp : p ≠ s.cfg.crtcCmd ∧ p ≠ s.cfg.crtcData ∧ p ≠ s.cfg.picMCmd ∧ p ≠ s.cfg.picSCmd ∧ p ≠ s.cfg.picMData ∧
      p ≠ s.cfg.picSData := by
    rcases h with h | rfl
    · simp only [legalPort, Config.ports, decide_eq_false_iff_not, List.mem_cons, not_or] at h
      tauto
    · have := Config.ports_ne hc
      tauto
  obtain ⟨h1, h2, h3, h4, h5, h6⟩ := hp
  simp only [portSpace, h1, h2, h3, h4, h5, h6, if_false]

/-- Settles O11: no device takes a byte there, so no row of the table stands there either. -/
theorem outbElsewhereRefused : Obligations.OutbElsewhereRefused := by
  unfold Obligations.OutbElsewhereRefused
  intro s p b hc h
  have hnone : portSpace (logIo ⟨.w, p, b⟩ s) p = none := portSpace_elsewhere (s := logIo ⟨.w, p, b⟩ s) hc h
  exact exec_outb_refused (deviceByte_noRow fun sp i hsp => nomatch hnone.symm.trans hsp)

/-! ### End of interrupt -/

/-- The lowest set bit is the one an end-of-interrupt clears. -/
theorem acknowledge_of_lowest {x : BitVec 8} {l : Line} (hl : x.getLsbD l.val = true)
    (hlow : ∀ j : Line, j < l → x.getLsbD j.val = false) : acknowledge x = clearBit x l := by
  have hbit : lowestBit x = some l := find_lines.2 ⟨hl, hlow⟩
  rw [acknowledge, hbit]

/-- Settles O15: the lowest set bit is cleared, by `getLsbD_clearBit` bit for bit. -/
theorem eoiClearsTheLowestLine : Obligations.EoiClearsTheLowestLine := by
  unfold Obligations.EoiClearsTheLowestLine
  refine ⟨acknowledge_zero, fun x l hl hlow k => ?_⟩
  rw [acknowledge_of_lowest hl hlow, getLsbD_clearBit, decide_not]

/-! ### INB -/

theorem exec_inb : exec (.inb p) s = andThen (portRead p s) fun x => finish (.byte x.1) (.next x.2) := rfl

/-- A port read anywhere but at the keyboard's port. -/
theorem portRead_elsewhere (h : p ≠ s.cfg.kbdDataPort) : portRead p s = refuse .portProtocol s := if_neg h

/-- Settles O16: the keyboard's port full and empty, and any other port. -/
theorem inbTakesTheLatchedByte : Obligations.InbTakesTheLatchedByte := by
  unfold Obligations.InbTakesTheLatchedByte
  intro s p b
  refine ⟨?full, ?empty, ?elsewhere⟩
  case full =>
    intro h
    rw [exec_inb, portRead_full h]
    rfl
  case empty =>
    intro h
    rw [exec_inb, portRead_empty h]
    rfl
  case elsewhere =>
    intro h
    rw [exec_inb, portRead_elsewhere h]
    rfl

end Sys2Proof.Machine
end

section
/-! The Screen driver (R77, R78, R79): PUTGLYPH inside and outside the window, SETCURSOR undisturbed. -/

namespace Sys2Proof.Machine

variable {s : State} {ch : Byte} {fg bg : Colour} {cell : GlyphCell} {x y off : Nat}

/-! ### The bytes of a stored cell -/

/-- The character byte stands at the cell's lower address (R39, R40, R42). -/
theorem byteAt_storeCell_char (hw : Memory.wf s.cfg s.mem = true) :
    byteAt (storeCell off cell s) (cellAddress s.cfg off) = some (cell.extractLsb' 0 8) :=
  Memory.read_writeBytes (bs := putWord16 cell) (i := 0) hw (by simp)

/-- The attribute byte stands after it. -/
theorem byteAt_storeCell_attr (hw : Memory.wf s.cfg s.mem = true) :
    byteAt (storeCell off cell s) (cellAddress s.cfg off + 1) = some (cell.extractLsb' 8 8) :=
  Memory.read_writeBytes (bs := putWord16 cell) (i := 1) hw (by simp)

/-! ### PUTGLYPH -/

/-- PUTGLYPH.CFB packs its cell and calls PUTGLYPH.CELL (R77). -/
theorem exec_putglyphCfb :
    exec (.putglyphCfb ch fg bg x y) s = exec (.putglyphCell (mkcell ch fg bg) x y) s := rfl

/-- An offset in the window stores and returns the cell (R78). -/
theorem exec_putglyphCell_inside (h : cellOffset x y < 2000) :
    exec (.putglyphCell cell x y) s = .next ((storeCell (cellOffset x y) cell s).setResult (.cell cell)) :=
  congrArg (finish (.cell cell)) (if_pos h)

/-- An offset past the window faults before anything is stored (R78, R111). -/
theorem exec_putglyphCell_outside (h : 2000 ≤ cellOffset x y) :
    exec (.putglyphCell cell x y) s = raise (.outOfWindow (cellOffset x y)) s :=
  congrArg (finish (.cell cell)) (if_neg (Nat.not_lt.2 h))

/-- Settles O17: the operation is `storeCell`, read back byte by byte. -/
theorem putglyphStoresOneCell : Obligations.PutglyphStoresOneCell := by
  unfold Obligations.PutglyphStoresOneCell
  intro s ch fg bg cell x y hw hin
  refine ⟨⟨(storeCell (cellOffset x y) cell s).setResult (.cell cell), ?runs, ?frame, ?shows, ?char, ?attr, ?others⟩,
    exec_putglyphCfb⟩
  case runs => exact exec_putglyphCell_inside hin
  case frame => exact congrArg (State.setResult · (.cell cell)) storeCell_eq
  case shows => exact vram_storeCell_same hw
  case char => exact byteAt_storeCell_char hw
  case attr => exact byteAt_storeCell_attr hw
  case others =>
    intro a hlo hhi
    exact byteAt_storeCell_other (by simp only [cellAddress, cellOffset]; omega)

/-- Settles O18: a row of 25 or more has every offset past the window, and PUTGLYPH.CFB faults as PUTGLYPH.CELL does. -/
theorem putglyphOutsideFaults : Obligations.PutglyphOutsideFaults := by
  unfold Obligations.PutglyphOutsideFaults
  intro s ch fg bg cell x y h
  have hout : 2000 ≤ cellOffset x y := by unfold cellOffset; omega
  exact ⟨exec_putglyphCell_outside hout, exec_putglyphCfb.trans (exec_putglyphCell_outside hout)⟩

/-! ### SETCURSOR -/

/-- With nothing falling between its four port writes SETCURSOR leaves `cursorSet` (R62, R79). -/
theorem setCursor_undisturbed (hc : s.cfg.wf = true) (hu : Undisturbed s) :
    setCursor x y s = .next (cursorSet x y s) := by
  obtain ⟨u, hrun, rfl, -⟩ := (setCursor_ends between_undisturbed (s := s) ⟨rfl, hc, hu⟩ x y).completes
  exact hrun

/-- Settles O19, by `setCursor_undisturbed`: the registers and the log are those of `cursorSet`. -/
theorem setcursorSendsTheOffset : Obligations.SetcursorSendsTheOffset := by
  unfold Obligations.SetcursorSendsTheOffset
  intro s x y hc hu
  exact congrArg (finish .none) (setCursor_undisturbed hc hu)

end Sys2Proof.Machine
end

section
/-! The Terminal (R80 to R85): TERM.INIT, TERM.ADDLINE and TERM.WRITE with nothing falling into them, how far characters move
the cursor, and the refusals before TERM.INIT. -/

namespace Sys2Proof.Machine

variable {s : State} {t : Terminal} {cfg : Config} {bl : GlyphCell} {ch : Byte} {text rest : List Byte}

/-! ### Before TERM.INIT -/

/-- What asks for the Terminal before it is built is refused (R80 e, R112). -/
theorem withTerminal_of_none {f : Terminal → Out State} (h : s.term = none) :
    withTerminal s f = refuse .terminalNotConstructed s := by
  rw [withTerminal, h]

/-- Settles O25: all three operations ask for the Terminal first, TERM.WRITE before it looks at its text. -/
theorem terminalMustBeConstructed : Obligations.TerminalMustBeConstructed := by
  unfold Obligations.TerminalMustBeConstructed
  intro s ch text h
  have hrefused (f : Terminal → Out State) : finish .none (withTerminal s f) = refuse .terminalNotConstructed s :=
    congrArg (finish .none) (withTerminal_of_none h)
  exact ⟨hrefused _, hrefused _, hrefused _⟩

/-! ### TERM.INIT -/

/-- Every cell of the screen is blank after TERM.INIT (R81). -/
theorem vram_homed (hw : Memory.wf s.cfg s.mem = true) {off : Nat} (ho : off < 2000) :
    vram (painted s (homed s)) off = some (blank s.cfg) := by
  obtain ⟨hgrid, -, hshown⟩ := homed_spec s
  refine ((hshown hw).2 off ho).trans (congrArg some ?_)
  simp only [hgrid, blankTerminal, Vector.getElem_replicate]

/-- Settles O20: undisturbed TERM.INIT paints `homed`, a blank grid shown cell for cell. -/
theorem termInitBlanksTheScreen : Obligations.TermInitBlanksTheScreen := by
  unfold Obligations.TermInitBlanksTheScreen
  intro s hc hw hu
  obtain ⟨hgrid, houtside, -⟩ := homed_spec s
  refine ⟨(painted s (homed s)).setResult .none, exec_termInit hc hu, ?state, ?shows, houtside⟩
  case state =>
    rw [painted, hgrid]
    rfl
  case shows => exact fun off ho => vram_homed hw ho

/-! ### TERM.ADDLINE -/

/-- With nothing falling into it TERM.ADDLINE leaves `lineDrawn` (R84). -/
theorem exec_termAddline (hc : s.cfg.wf = true) (hu : Undisturbed s) (ht : s.term = some t) :
    exec .termAddline s = .next ((painted s (lineDrawn s.cfg (t, s.mem))).setResult .none) := by
  have hp : painted s (t, s.mem) = s := painted_self ht
  obtain ⟨u, hrun, rfl, -⟩ :=
    (addLine_ends between_undisturbed (x := s) (p := (t, s.mem)) (u := s) ⟨hp.symm, hc, hu⟩).completes
  exact congrArg (finish .none) hrun

/-- Above the last row the cursor goes down a row. -/
theorem lineAdded_above (h : t.row.val + 1 < 25) :
    lineAdded bl t = { t with row := ⟨t.row.val + 1, h⟩, col := 0 } := dif_pos h

/-- On the last row the grid scrolls. -/
theorem lineAdded_last (h : t.row = 24) :
    lineAdded bl t = { t with shadow := scrolledGrid bl t.shadow, col := 0 } :=
  dif_neg (by rw [h]; decide)

/-- Above the last row TERM.ADDLINE stores nothing. -/
theorem lineDrawn_above {m : List Host.Cell} (h : t.row.val + 1 < 25) :
    lineDrawn s.cfg (t, m) = ({ t with row := ⟨t.row.val + 1, h⟩, col := 0 }, m) := by
  have hmem : (lineDrawn s.cfg (t, m)).2 = m := by
    have hrow : t.row ≠ 24 := fun h24 => by rw [h24] at h; exact absurd h (by decide)
    rw [lineDrawn, if_pos hrow]
  have hterm := (lineDrawn_spec (x := s) (t, m)).2.1
  exact Prod.ext (hterm.trans (lineAdded_above h)) hmem

/-- A scroll moves every row up by one. -/
theorem scrolledGrid_above {g : Vector GlyphCell 2000} {r c : Nat} (hr : r < 24) (hc : c < 80) :
    (scrolledGrid bl g)[r * 80 + c]'(by omega) = g[(r + 1) * 80 + c]'(by omega) := by
  simp only [scrolledGrid, Vector.getElem_ofFn]
  rw [dif_pos (by omega)]
  congr 1
  omega

/-- A scroll blanks the last row. -/
theorem scrolledGrid_last {g : Vector GlyphCell 2000} {c : Nat} (hc : c < 80) :
    (scrolledGrid bl g)[24 * 80 + c]'(by omega) = bl := by
  simp only [scrolledGrid, Vector.getElem_ofFn]
  exact dif_neg (by omega)

/-- Settles O22: undisturbed TERM.ADDLINE paints `lineDrawn`, whose grid on the last row is `scrolledGrid`. -/
theorem termAddlineMovesOrScrolls : Obligations.TermAddlineMovesOrScrolls := by
  unfold Obligations.TermAddlineMovesOrScrolls
  intro s t hc hu ht
  have hrun := exec_termAddline hc hu ht
  obtain ⟨hdrawn, hterm, hshown⟩ := lineDrawn_spec (x := s) (t, s.mem)
  refine ⟨fun h => ?above, fun h24 => ⟨_, scrolledGrid (mkcell s.cfg.space t.fgc t.bgc) t.shadow, hrun, ?state, ?rows, ?last,
    ?mirrored, hdrawn.outside⟩⟩
  case above =>
    rw [hrun, lineDrawn_above h]
    rfl
  case state =>
    rw [painted, hterm, lineAdded_last h24]
    rfl
  case rows => exact fun r hr c hc => scrolledGrid_above hr hc
  case last => exact fun c hc => scrolledGrid_last hc
  case mirrored => exact fun hw => mirrored_setResult.2 (mirrored_painted.2 (hshown h24 hw))

/-! ### TERM.WRITE -/

/-- With nothing falling into it TERM.PUTCHAR leaves `typed` (R83). -/
theorem exec_termPutchar (hc : s.cfg.wf = true) (hu : Undisturbed s) (ht : s.term = some t) (hcol : t.col < 80) :
    exec (.termPutchar ch) s = .next ((typed ch s).setResult .none) :=
  congrArg (finish .none) (putChar_undisturbed ch hc hu ht hcol)

/-- With nothing falling into it TERM.WRITE leaves `typedAll` (R82). -/
theorem exec_termWrite (hc : s.cfg.wf = true) (hu : Undisturbed s) (ht : s.term = some t) (hcol : t.col < 80) :
    exec (.termWrite text) s = .next ((typedAll text s).setResult .none) := by
  obtain ⟨u, hrun, rfl, -⟩ := (writeText_ends between_undisturbed text s s t ht hcol ⟨rfl, hc, hu⟩).completes
  have hasked : withTerminal s (fun _ => writeText text s) = .next (typedAll text s) := (withTerminal_of_some ht).trans hrun
  exact congrArg (finish .none) hasked

/-- TERM.PUTCHAR schedules nothing. -/
theorem typed_undisturbed (hu : Undisturbed s) (ht : s.term = some t) (hcol : t.col < 80) : Undisturbed (typed ch s) := by
  rw [typed_eq ch ht hcol]
  exact hu

/-- A non-empty text is its first character and then the others (R82, R85 e). -/
theorem exec_termWrite_cons (hc : s.cfg.wf = true) (hu : Undisturbed s) (ht : s.term = some t) (hcol : t.col < 80) :
    exec (.termWrite (ch :: rest)) s = andThen (exec (.termPutchar ch) s) (exec (.termWrite rest)) := by
  have hcfg : (typed ch s).cfg.wf = true := by rw [typed_cfg]; exact hc
  have hrest : exec (.termWrite rest) ((typed ch s).setResult .none) =
      .next ((typedAll rest ((typed ch s).setResult .none)).setResult .none) :=
    exec_termWrite hcfg (typed_undisturbed hu ht hcol) (typed_term ch ht hcol) (charPut_col_lt s.cfg ch t)
  rw [exec_termWrite hc hu ht hcol, exec_termPutchar hc hu ht hcol, andThen_next, hrest, typedAll_setResult]
  rfl

/-- Settles O23: undisturbed TERM.WRITE ends in `typedAll`, which `typedAll_spec` describes. -/
theorem termWriteIsCharByChar : Obligations.TermWriteIsCharByChar := by
  unfold Obligations.TermWriteIsCharByChar
  intro s t text hc hu ht hcol
  have hspec := typedAll_spec text s t ht hcol
  obtain ⟨m, c, l, hlength, hshape⟩ := hspec.shape
  refine ⟨?cons, (typedAll text s).setResult .none, exec_termWrite hc hu ht hcol, ?state, ⟨l, ?trace, hlength⟩, ?empty,
    hspec.cursor, fun hw hm => mirrored_setResult.2 (hspec.shows hw hm), ?outside⟩
  case cons =>
    rintro ch rest rfl
    exact exec_termWrite_cons hc hu ht hcol
  case state => rw [hshape]; rfl
  case trace => rw [hshape]; rfl
  case empty => exact fun h => congrArg (State.setResult · .none) (hspec.empty h)
  case outside =>
    intro a ha
    simp only [byteAt, State.setResult_cfg, State.setResult_mem, typedAll_cfg]
    exact hspec.outside a ha

/-! ### How far characters move the cursor -/

/-- A character in the last cell of the screen scrolls and returns to the start of the last row (R85 d). -/
theorem charPut_last_cell (hn : ch ≠ cfg.newline) (hcell : t.row.val * 80 + t.col = 1999) (hcol : t.col < 80) :
    (charPut cfg ch t).row = 24 ∧ (charPut cfg ch t).col = 0 := by
  have hrow : t.row = 24 := Fin.ext (show t.row.val = 24 by omega)
  obtain ⟨hzero, -, hstays⟩ := (charPut_position hn).2 (show t.col = 79 by omega)
  exact ⟨(hstays (by rw [hrow]; rfl)).trans hrow, hzero⟩

/-- The characters that fill the screen from the top left leave the cursor at the start of the last row (R85 d). -/
theorem charPut_fills_screen (hn : ∀ ch ∈ text, ch ≠ cfg.newline) (hrow : t.row = 0) (hcol : t.col = 0)
    (hl : text.length = 2000) :
    (text.foldl (fun t ch => charPut cfg ch t) t).row = 24 ∧ (text.foldl (fun t ch => charPut cfg ch t) t).col = 0 := by
  rcases List.eq_nil_or_concat' text with rfl | ⟨front, last, rfl⟩
  · exact absurd hl (by decide)
  · have hfront : front.length = 1999 := by simpa using hl
    have hnf : ∀ ch ∈ front, ch ≠ cfg.newline := fun ch hch => hn ch (List.mem_append_left _ hch)
    have hzero : t.row.val = 0 := by rw [hrow]; rfl
    have hcells := charPut_positions front t hnf (by omega) (by omega)
    rw [List.foldl_append]
    exact charPut_last_cell (hn last (by simp)) (by omega) (foldl_charPut_col_lt cfg front t (by omega))

/-- Settles O24: `charPut_positions` counts the cells, and a column below 80 makes row and column of the count. -/
theorem charactersWrapByColumn : Obligations.CharactersWrapByColumn := by
  unfold Obligations.CharactersWrapByColumn
  intro cfg t text hn
  refine ⟨fun hcol hl h => ?_, fun hrow hcol => ⟨fun hl => ?_, charPut_fills_screen hn hrow hcol⟩⟩
  · have hcells := charPut_positions text t hn (by omega) (by omega)
    have hlt := foldl_charPut_col_lt cfg text t (by omega)
    exact ⟨by omega, Fin.ext (by simp only; omega)⟩
  · have hzero : t.row.val = 0 := by rw [hrow]; rfl
    have hcells := charPut_positions text t hn (by omega) (by omega)
    omega

end Sys2Proof.Machine
end

section
/-! The keyboard decoder (R59, R86, R87). -/

namespace Sys2Proof.Machine

/-- The decoder's event: SCTAB by the code of the byte, whichever its release bit is, and the flags as given (R86 a, b). -/
theorem decodeKey_eq (cfg : Config) (sc : Byte) (pressed ls rs ctrl alt : Bool) :
    decodeKey cfg sc pressed ls rs ctrl alt =
      ⟨cfg.scTab[sc.toNat % 128]'(Nat.mod_lt _ (by decide)), pressed, ls, rs, ctrl, alt⟩ := by
  simp only [decodeKey, scanTable, keyCode_toNat]

/-- KBD.DECODE answers the decoder's event and writes only the result (R86). -/
theorem exec_kbdDecode (sc : Byte) (pressed ls rs ctrl alt : Bool) (s : State) :
    exec (.kbdDecode sc pressed ls rs ctrl alt) s =
      .next (s.setResult (.event (decodeKey s.cfg sc pressed ls rs ctrl alt))) :=
  finish_next _ s

/-- Settles O28: the result is `decodeKey`'s event, and its key code is the byte modulo 128. -/
theorem kbdDecodeLooksUp : Obligations.KbdDecodeLooksUp := by
  unfold Obligations.KbdDecodeLooksUp
  intro s sc pressed ls rs ctrl alt
  rw [exec_kbdDecode, decodeKey_eq]
  rfl

end Sys2Proof.Machine
end

section
/-! The input queue (R88 to R93). -/

namespace Sys2Proof.Machine

variable {s t : State} {e : KeyEvent} {es xs : List KeyEvent} {c : Nat}

/-! ### What the four operations answer -/

/-- Q.PUT completes in every state (R89). -/
theorem exec_qPut : exec (.qPut e) s = .next ((ringPut e s).setResult .none) := finish_next _ _

/-- Q.READ of a slot that holds an event (R90). -/
theorem exec_qRead (hu : Undisturbed s) (he : slot s s.rd = some e) :
    exec .qRead s = .next ((s.setRd (advance s.rd)).setResult (.event e)) := by
  have hr : queueRead s = .next (e, s.setRd (advance s.rd)) := by
    rw [queueRead, show readSlot s = some e from he, boundary_undisturbed hu]
    rfl
  rw [exec, execQRead, hr, andThen_next, finish_next]

/-- Q.READ of a slot that holds no value (R90). -/
theorem exec_qRead_unwritten (he : slot s s.rd = none) : exec .qRead s = raise (.unwrittenSlot s.rd.val) s := by
  rw [exec, execQRead, queueRead, show readSlot s = none from he, andThen_raise]

/-- Q.ISEMPTY (R91). -/
theorem exec_qIsempty (hu : Undisturbed s) :
    exec .qIsempty s = .next (s.setResult (.bool (decide (s.rd = s.wr)))) := by
  rw [exec, execQIsempty, queueIsEmpty, boundary_undisturbed hu, andThen_next, andThen_next, finish_next]

/-- What a Q.INIT that completed did: it was the first, and its writes, with what fell between them, led to u (R88). -/
theorem exec_qInit_eq_next : exec .qInit s = .next t ↔
    s.queueBuilt = false ∧ ∃ u, initQueue s = .next u ∧ t = u.setResult .none := by
  rw [exec, execQInit]
  cases s.queueBuilt <;> simp [finish_eq_next]

/-- Settles O34: `exec_qPut` names the state, `slot_ringPut` its slots. -/
theorem qPutStoresAndAdvances : Obligations.QPutStoresAndAdvances := by
  unfold Obligations.QPutStoresAndAdvances
  intro s e
  exact ⟨_, exec_qPut, rfl, Fin.val_add s.wr 1, slot_ringPut e s⟩

/-- Settles O35: a boundary at which nothing is scheduled changes nothing. -/
theorem qReadAndIsempty : Obligations.QReadAndIsempty := by
  unfold Obligations.QReadAndIsempty
  intro s e hu
  exact ⟨exec_qRead hu, exec_qRead_unwritten, exec_qIsempty hu⟩

/-- Settles O33: the laws of Q.INIT's writes, undisturbed (`exec_qInit`), with interrupts masked (`initQueue_masked`) and
under any schedule (`initQueue_kept`). -/
theorem qInitEmptiesOnce : Obligations.QInitEmptiesOnce := by
  unfold Obligations.QInitEmptiesOnce
  intro s
  refine ⟨exec_qInit, fun hb hi => ?masked, fun hc t ht => ?kept, fun hb => ?second⟩
  case masked =>
    obtain ⟨u, hu, -, hrd, hwr, hslots⟩ := initQueue_masked hi
    exact ⟨_, exec_qInit_eq_next.2 ⟨hb, u, hu, rfl⟩, hrd, hwr, hslots⟩
  case kept =>
    obtain ⟨-, u, hu, rfl⟩ := exec_qInit_eq_next.1 ht
    exact (initQueue_kept hc hu).setResult .none
  case second =>
    rw [exec, execQInit, if_pos hb]
    rfl

/-! ### The history of the ring -/

theorem QueueHistory.setResult (h : QueueHistory es c s) (r : Result) : QueueHistory es c (s.setResult r) :=
  ⟨h.wr, h.rd, h.slots⟩

/-- Q.INIT starts a history with no event put and none read (R88). -/
theorem queueHistory_emptyQueue (s : State) : QueueHistory [] 0 (emptyQueue s) where
  wr := rfl
  rd := rfl
  slots i := Vector.getElem_replicate i.isLt

/-- Q.PUT adds its event to the history (R89). -/
theorem QueueHistory.put (h : QueueHistory es c s) (e : KeyEvent) : QueueHistory (es ++ [e]) c (ringPut e s) where
  wr := by
    have hwr : (ringPut e s).wr.val = (s.wr.val + 1) % 1024 := Fin.val_add s.wr 1
    rw [hwr, h.wr, List.length_append, List.length_singleton]
    omega
  rd := h.rd
  slots i := by
    have hi : i = s.wr ↔ i.val = es.length % 1024 := by rw [Fin.ext_iff, h.wr]
    rw [latest_append i.isLt, ← h.slots i]
    simp only [← hi]
    exact slot_ringPut e s i

/-- The advance of RD counts one event more as read (R90). -/
theorem QueueHistory.read (h : QueueHistory es c s) : QueueHistory es (c + 1) (s.setRd (advance s.rd)) where
  wr := h.wr
  rd := by
    have hrd : (s.setRd (advance s.rd)).rd.val = (s.rd.val + 1) % 1024 := Fin.val_add s.rd 1
    rw [hrd, h.rd]
    omega
  slots := h.slots

/-- The queue reports the unread events modulo 1024 (R92). -/
theorem QueueHistory.reported (h : QueueHistory es c s) (hc : c ≤ es.length) : reported s = (es.length - c) % 1024 := by
  rw [Machine.reported, Fin.val_sub, h.rd, h.wr]
  omega

/-- The slot at RD, while an event is unread: event number c or the latest that overwrote it (R92, R93). -/
theorem QueueHistory.slot_rd (h : QueueHistory es c s) (hc : c < es.length) : ∃ e j, slot s s.rd = some e ∧
    es[c + 1024 * j]? = some e ∧ c + 1024 * j < es.length ∧ es.length ≤ c + 1024 * (j + 1) := by
  obtain ⟨e, j, hl, hj⟩ := latest_unread hc
  refine ⟨e, j, ?_, hj⟩
  rw [← hl, ← h.rd]
  exact h.slots s.rd

/-- Settles O36: each operation's step in the history, and `QueueHistory.slot_rd` for the event a read returns. -/
theorem queueKeepsItsHistory : Obligations.QueueKeepsItsHistory := by
  unfold Obligations.QueueKeepsItsHistory
  intro es c s h hu
  refine ⟨fun hb => ⟨_, exec_qInit hb hu, (queueHistory_emptyQueue s).setResult .none⟩, h.reported,
    fun e => ⟨_, exec_qPut, (h.put e).setResult .none⟩, fun hc => ?_⟩
  obtain ⟨e, j, hs, hj, hlt, hle⟩ := h.slot_rd hc
  refine ⟨_, e, exec_qRead hu hs, rfl, h.read.setResult _, fun hl => ?_, j, hj, hlt, hle⟩
  obtain rfl : j = 0 := by omega
  exact hj

/-! ### The queue is first in, first out -/

/-- The slot k places past RD, around the ring (R73). -/
def ahead (s : State) (k : Nat) : Fin 1024 := Fin.ofNat 1024 (s.rd.val + k)

/-- The events es stand in their order in the slots from RD on, and WR is behind the last of them. -/
structure Unread (es : List KeyEvent) (s : State) : Prop where
  wr : s.wr = ahead s es.length
  slots : ∀ k e, es[k]? = some e → slot s (ahead s k) = some e

theorem ahead_zero (s : State) : ahead s 0 = s.rd := Fin.ofNat_val_eq_self s.rd

/-- Q.PUT never writes RD (R89). -/
theorem ahead_ringPut (e : KeyEvent) (s : State) (k : Nat) : ahead (ringPut e s) k = ahead s k := rfl

/-- One place past a slot. -/
theorem advance_ahead (s : State) (k : Nat) : advance (ahead s k) = ahead s (k + 1) :=
  Fin.ext (by simp only [advance, ahead, Fin.val_add, Fin.val_ofNat]; omega)

/-- The slots ahead of an advanced RD. -/
theorem ahead_setRd (s : State) (k : Nat) : ahead (s.setRd (advance s.rd)) k = ahead s (k + 1) :=
  Fin.ext (by simp only [advance, ahead, State.setRd_rd, Fin.val_add, Fin.val_ofNat]; omega)

/-- Within one round of the ring, slots at different places are different. -/
theorem ahead_inj {j k : Nat} (hj : j < 1024) (hk : k < 1024) (h : ahead s j = ahead s k) : j = k := by
  have hv := congrArg Fin.val h
  simp only [ahead, Fin.val_ofNat] at hv
  omega

/-- With equal indices no event is unread (R91). -/
theorem unread_nil : Unread [] s ↔ s.rd = s.wr :=
  ⟨fun h => (h.wr.trans (ahead_zero s)).symm, fun h => ⟨h.symm.trans (ahead_zero s).symm, by simp⟩⟩

theorem Unread.setResult (h : Unread es s) (r : Result) : Unread es (s.setResult r) := ⟨h.wr, h.slots⟩

/-- Q.PUT stores behind the unread events and, short of a full ring, over none of them (R89, R92). -/
theorem Unread.put (h : Unread es s) (hl : es.length < 1024) (e : KeyEvent) : Unread (es ++ [e]) (ringPut e s) where
  wr := by
    rw [List.length_append, List.length_singleton]
    exact (congrArg advance h.wr).trans (advance_ahead s es.length)
  slots k x hk := by
    rw [ahead_ringPut, slot_ringPut, h.wr]
    obtain hlt | rfl | hgt := Nat.lt_trichotomy k es.length
    · rw [if_neg fun hs => hlt.ne (ahead_inj (hlt.trans hl) hl hs)]
      exact h.slots k x (by rwa [List.getElem?_append_left hlt] at hk)
    · rw [if_pos rfl]
      simpa using hk
    · rw [List.getElem?_eq_none (by simpa using hgt)] at hk
      cases hk

/-- The advance of RD takes the first unread event away (R90). -/
theorem Unread.read (h : Unread (e :: es) s) : Unread es (s.setRd (advance s.rd)) where
  wr := by rw [ahead_setRd]; exact h.wr
  slots k x hk := by rw [ahead_setRd]; exact h.slots (k + 1) x hk

/-- The slot at RD holds the first unread event. -/
theorem Unread.slot_rd (h : Unread (e :: es) s) : slot s s.rd = some e := by
  rw [← ahead_zero s]
  exact h.slots 0 e rfl

/-- Puts that fit the ring leave their events unread, behind those that were (R93). -/
theorem putAll_unread (es : List KeyEvent) (hu : Undisturbed s) (h : Unread xs s) (hl : xs.length + es.length ≤ 1024) :
    ∃ t, putAll es s = .next t ∧ Unread (xs ++ es) t ∧ Undisturbed t := by
  induction es generalizing xs s with
  | nil => exact ⟨s, rfl, by rwa [List.append_nil], hu⟩
  | cons e es ih =>
    rw [List.length_cons] at hl
    have hput := (h.put (by omega) e).setResult .none
    have hlen : (xs ++ [e]).length + es.length ≤ 1024 := by
      rw [List.length_append, List.length_singleton]
      omega
    obtain ⟨t, ht, hall, hut⟩ := ih (s := (ringPut e s).setResult .none) hu hput hlen
    refine ⟨t, ?_, by rwa [List.append_assoc] at hall, hut⟩
    rw [putAll, exec_qPut, andThen_next, ht]

/-- As many reads as there are unread events return them in their order and leave none (R93). -/
theorem readAll_unread (es : List KeyEvent) (hu : Undisturbed s) (h : Unread es s) :
    ∃ t, readAll es.length s = .next (es.map Result.event, t) ∧ Unread [] t := by
  induction es generalizing s with
  | nil => exact ⟨s, rfl, h⟩
  | cons e es ih =>
    obtain ⟨t, ht, hnil⟩ := ih (s := (s.setRd (advance s.rd)).setResult (.event e)) hu (h.read.setResult _)
    refine ⟨t, ?_, hnil⟩
    rw [List.length_cons, readAll, exec_qRead hu h.slot_rd, andThen_next, ht, andThen_next, State.setResult_result,
      List.map_cons]

/-- Settles O37: the puts leave the events unread in their order (`putAll_unread`), the reads take them from the front
(`readAll_unread`). -/
theorem queueIsFifo : Obligations.QueueIsFifo := by
  unfold Obligations.QueueIsFifo
  intro s es hu hempty hl
  obtain ⟨t, ht, hall, hut⟩ := putAll_unread es hu (unread_nil.2 hempty) (by simpa using hl)
  obtain ⟨u, hread, hnil⟩ := readAll_unread es hut hall
  exact ⟨t, u, ht, hread, unread_nil.1 hnil⟩

end Sys2Proof.Machine
end

section
/-! A pressed key on its way from the keyboard to the screen (R99, R102, R108, R114, R121): the three steps of an idle booted
console, each from the state the one before it left. -/

namespace Sys2Proof.Machine

variable {s t u : State} {tm : Terminal} {e : KeyEvent} {b : Byte} {k : KeyCode}

/-! ### One turn of the loop, with an event to read and nothing falling into it -/

theorem queueIsEmpty_undisturbed (hu : Undisturbed s) : queueIsEmpty s = .next (decide (s.rd = s.wr), s) := by
  rw [queueIsEmpty, boundary_undisturbed hu, andThen_next]

theorem queueRead_undisturbed (hu : Undisturbed s) (he : slot s s.rd = some e) :
    queueRead s = .next (e, s.setRd (advance s.rd)) := by
  rw [queueRead, show readSlot s = some e from he]
  simp only [boundary_undisturbed hu, andThen_next]

/-- Undisturbed, a loop that finds the queue not empty reads its event and looks at it (R108). -/
theorem mainTurn_undisturbed (hu : Undisturbed s) (hne : s.rd ≠ s.wr) (he : slot s s.rd = some e) :
    mainTurn s = forwardEvent e (s.setRd (advance s.rd)) := by
  have hread : boundary (s.setRd (advance s.rd)) = .next (s.setRd (advance s.rd)) := boundary_undisturbed hu
  rw [mainTurn, queueIsEmpty_undisturbed hu, andThen_next, boundary_undisturbed hu, andThen_next, decide_eq_false hne,
    if_neg Bool.false_ne_true, queueRead_undisturbed hu he, andThen_next, hread, andThen_next]

/-- A press with a character is forwarded (R108). -/
theorem forwardEvent_press (hp : e.pressed = true) (hch : e.ch ≠ 0) : forwardEvent e s = putChar e.ch s := by
  rw [forwardEvent, hp, Bool.true_and, if_pos (bne_iff_ne.2 hch)]

/-- MAIN.STEP on a press with a character that has been queued (R83, R108). -/
theorem exec_mainStep_press (hc : s.cfg.wf = true) (hu : Undisturbed s) (ht : s.term = some tm) (hcol : tm.col < 80)
    (hne : s.rd ≠ s.wr) (he : slot s s.rd = some e) (hp : e.pressed = true) (hch : e.ch ≠ 0) :
    exec .mainStep s = .next ((typed e.ch (s.setRd (advance s.rd))).setResult .none) := by
  have hput : putChar e.ch (s.setRd (advance s.rd)) = .next (typed e.ch (s.setRd (advance s.rd))) :=
    putChar_undisturbed e.ch hc hu ht hcol
  have hturn : mainTurn s = .next (typed e.ch (s.setRd (advance s.rd))) := by
    rw [mainTurn_undisturbed hu hne he, forwardEvent_press hp hch, hput]
  exact congrArg (finish .none) hturn

/-- TERM.PUTCHAR leaves the cursor registers at the Terminal's position (R35 c, R83). -/
theorem cursorSynced_typed (ch : Byte) (ht : s.term = some tm) (hcol : tm.col < 80) : CursorSynced (typed ch s) :=
  (typedAll_spec [ch] s tm ht hcol).cursor (List.cons_ne_nil ch [])

/-! ### The event of a key-down byte -/

theorem byteEvent_ch (r : Bool) (k : KeyCode) (s : State) : (byteEvent (scancodeByte r k) s).ch = scanTable s.cfg k := by
  simp only [byteEvent, decodeKey, keyCode_scancodeByte]

theorem byteEvent_pressed (k : KeyCode) (s : State) : (byteEvent (scancodeByte false k) s).pressed = true :=
  isPressed_scancodeByte false k

/-! ### The three steps -/

/-- Whatever a booted console's step was, it is still booted, and shows its grid if it did. -/
theorem Booted.step_next (h : Booted s) (e : Machine.step s = .next t) : StaysBooted s t := by
  have hs := h.step
  rwa [e] at hs

/-- With nothing scheduled the environment presents the byte that waits: the latch is full and its line is asserted
(R114, R121). -/
theorem step_presents {rest : List Byte} (h : Booted s) (hs : s.sched = []) (hk : s.keys = b :: rest)
    (hf : kbdFull s = false) : step s = .next (latchKey b (s.setKeys rest)) := by
  have hp : presentKey s = latchKey b (s.setKeys rest) := by
    simp only [presentKey, hk, hf, Bool.false_eq_true, if_false]
  rw [step_of_settled (h.toSound.turn.trans (scheduledTurn_key hs hk hf)), hp]

/-- A latched byte's request is pending (R114). -/
theorem irr_latchKey (b : Byte) (s : State) : (latchKey b s).picM.irr.getLsbD s.cfg.kbdLine.val = true := by
  have hirr : (latchKey b s).picM.irr = setBit s.picM.irr s.cfg.kbdLine := rfl
  rw [hirr, getLsbD_setBit, decide_eq_true rfl, Bool.or_true]

/-- With nothing scheduled and no byte waiting, a line that can be delivered is taken (R121). -/
theorem step_delivers {l : Line} (h : Booted s) (hs : s.sched = []) (hk : s.keys = [])
    (hd : deliverable s = some l) : step s = takeInterrupt l [] s := by
  refine step_of_settled (h.toSound.turn.trans ?_)
  simp [scheduledTurn, hs, unscheduledTurn, hk, hd]

/-- A booted console with an empty latch has nothing to deliver (R76, R114). -/
theorem Running.deliverable_none (h : Running s) (hf : kbdFull s = false) : Machine.deliverable s = none := by
  by_contra hd
  obtain ⟨l, hl⟩ := Option.ne_none_iff_exists'.1 hd
  obtain ⟨-, b, hb⟩ := h.deliverable hl
  simp [kbdFull, hb] at hf

/-- With nothing else to happen an awake booted console runs the loop (R14, R109). -/
theorem step_loops (h : Booted s) (hs : s.sched = []) (hk : s.keys = []) (hf : kbdFull s = false)
    (hh : s.halted = false) : step s = andThen (exec .mainStep s) fun u => .next (retire [] u) := by
  have hq : Quiet s := ⟨hs, .inl hk, h.toRunning.deliverable_none hf⟩
  exact step_of_stream (h.toSound.turn.trans ((hq.turn foregroundTurn).trans
    (foregroundTurn_loop hh h.looping.1 h.looping.2)))

/-- A run of three steps that all answer. -/
theorem run_three {v : State} (h1 : step s = .next t) (h2 : step t = .next u) (h3 : step u = .next v) :
    Host.Core.run Sys2Proof.core 3 s = .next v := by
  have hcore : Sys2Proof.core.step = step := rfl
  simp only [Host.Core.run, hcore, h1, h2, h3]

/-- The interrupt of a byte that has just been latched: the byte's event is the one unread (R99). -/
structure KeyQueued (b : Byte) (s t : State) : Prop where
  booted : Booted t
  kept : ForegroundKept s t
  unread : t.rd ≠ t.wr ∧ advance t.rd = t.wr
  event : slot t t.rd = some (byteEvent b s)
  idle : t.sched = [] ∧ t.keys = [] ∧ kbdFull t = false ∧ t.halted = false
  mods : t.mods = modupdate s.cfg s.mods b

/-- The latched byte is served with the queue empty before it. -/
theorem step_serves (h : Booted s) (hb : s.kbd = .full b) (hi : s.picM.irr.getLsbD s.cfg.kbdLine.val = true)
    (hq : s.rd = s.wr) (hs : s.sched = []) (hk : s.keys = []) : ∃ t, step s = .next t ∧ KeyQueued b s t := by
  obtain ⟨t, ht⟩ := h.served hi hb
  have hrd : t.rd = s.wr := ht.kept.rd.trans hq
  refine ⟨t, (step_delivers h hs hk (h.toRunning.pending hi)).trans ht.taken, ht.booted, ht.kept, ?unread, ?event,
    ⟨ht.sched.trans hs, ht.keys.trans hk, ht.latch, ht.halted⟩, ht.mods⟩
  case unread =>
    rw [hrd, ht.wr]
    exact ⟨by omega, rfl⟩
  case event => rw [ht.ring, if_pos hrd, byteEvent]

/-- TERM.PUTCHAR leaves the queue, the modifiers and HALTED alone (R83). -/
theorem typed_rest (ch : Byte) (ht : s.term = some tm) (hcol : tm.col < 80) : (typed ch s).rd = s.rd ∧
    (typed ch s).wr = s.wr ∧ (typed ch s).halted = s.halted ∧ (typed ch s).mods = s.mods := by
  rw [typed_eq ch ht hcol]
  exact ⟨rfl, rfl, rfl, rfl⟩

/-- The loop's step has forwarded the one unread event: the character is on the screen and nothing is left to read. -/
structure KeyShown (ch : Byte) (tm : Terminal) (t u : State) : Prop where
  term : u.term = some (charPut t.cfg ch tm)
  cursor : CursorSynced u
  empty : u.rd = u.wr
  awake : u.halted = false
  mods : u.mods = t.mods

/-- The loop forwards the queued press: TERM.PUTCHAR, and the operation done (R108). -/
theorem step_forwards (h : KeyQueued (scancodeByte false k) s t) (ht : t.term = some tm)
    (hch : scanTable s.cfg k ≠ 0) : ∃ u, step t = .next u ∧ KeyShown (scanTable s.cfg k) tm t u := by
  obtain ⟨hs, hk, hf, hh⟩ := h.idle
  have hcol : tm.col < 80 := h.booted.cursor tm ht
  have hexec := exec_mainStep_press h.booted.config hs ht hcol h.unread.1 h.event (byteEvent_pressed k s)
    (by rwa [byteEvent_ch])
  rw [byteEvent_ch] at hexec
  have hstep := step_loops h.booted hs hk hf hh
  rw [hexec, andThen_next] at hstep
  have hterm := typed_term (s := t.setRd (advance t.rd)) (scanTable s.cfg k) ht hcol
  have hcursor := cursorSynced_typed (s := t.setRd (advance t.rd)) (scanTable s.cfg k) ht hcol
  obtain ⟨hrd, hwr, hhalted, hmods⟩ := typed_rest (s := t.setRd (advance t.rd)) (scanTable s.cfg k) ht hcol
  generalize typed (scanTable s.cfg k) (t.setRd (advance t.rd)) = v at *
  exact ⟨_, hstep,
    { term := hterm
      cursor := hcursor
      empty := hrd.trans (h.unread.2.trans hwr.symm)
      awake := hhalted.trans hh
      mods := hmods }⟩

/-- Settles O60: `step_presents`, `step_serves` and `step_forwards` are the three steps; each leaves the console booted and
keeps grid and screen the same, by `Booted.step`. -/
theorem pressedKeyReachesTheScreen : Obligations.PressedKeyReachesTheScreen := by
  unfold Obligations.PressedKeyReachesTheScreen
  intro s tm k h ht hq hf hs hk hch
  have hpresent := step_presents h hs hk hf
  have hlatched := h.step_next hpresent
  obtain ⟨t, hserve, hqueued⟩ := step_serves hlatched.booted rfl (irr_latchKey _ (s.setKeys [])) hq hs rfl
  obtain ⟨u, hforward, hshown⟩ := step_forwards hqueued (hqueued.kept.term.trans ht) hch
  have hstays := (hlatched.trans (hlatched.booted.step_next hserve)).trans (hqueued.booted.step_next hforward)
  have hcfg : t.cfg = s.cfg := hqueued.kept.cfg
  exact ⟨u, run_three hpresent hserve hforward, hcfg ▸ hshown.term, hshown.cursor, hstays.mirrored, hshown.empty,
    hshown.awake, hshown.mods.trans hqueued.mods⟩

end Sys2Proof.Machine
end

section
/-! The interrupt subsystem (R94 to R99), the processor operations (R104 to R106) and the modifier flags over a run of
scancode bytes (R101). -/

namespace Sys2Proof.Machine

variable {s : State} {cfg : Config} {a : Address} {b : Byte} {bs : List Byte} {d : Descriptor} {i v : Nat}

/-! ### Left shift held down -/

/-- Bytes of other keys commute with any value of the left-shift flag (R100). -/
theorem foldl_modupdate_not_lshift (h : ∀ b ∈ bs, keyCode b ≠ cfg.scLshift) (m : Mods) (held : Bool) :
    bs.foldl (modupdate cfg) { m with lshift := held } = { bs.foldl (modupdate cfg) m with lshift := held } := by
  induction bs generalizing m with
  | nil => rfl
  | cons b bs ih =>
    rw [List.foldl_cons, modupdate_not_lshift (h b List.mem_cons_self) held,
      ih fun c hc => h c (List.mem_cons_of_mem b hc)]
    rfl

/-- Settles O30: the key-down byte sets the flag, which the other keys' bytes carry along, and the key-up byte clears it. -/
theorem leftShiftDownThenUp : Obligations.LeftShiftDownThenUp := by
  unfold Obligations.LeftShiftDownThenUp
  intro cfg m bs _ hbs run
  have hheld : run m (scancodeByte false cfg.scLshift :: bs) = { run m bs with lshift := true } := by
    simp only [run, List.foldl_cons, modupdate_lshift]
    exact foldl_modupdate_not_lshift hbs m true
  refine ⟨by rw [hheld], ?_⟩
  have hup : run m (scancodeByte false cfg.scLshift :: bs ++ [scancodeByte true cfg.scLshift]) =
      modupdate cfg (run m (scancodeByte false cfg.scLshift :: bs)) (scancodeByte true cfg.scLshift) :=
    List.foldl_concat ..
  rw [hup, hheld, modupdate_lshift]
  rfl

/-! ### IDT.BUILD -/

/-- A slice of a slice, wherever the outer one starts. -/
theorem extractLsb'_extractLsb'_add {w start len start' len' : Nat} (x : BitVec w) (h : start' + len' ≤ len) :
    (x.extractLsb' start len).extractLsb' start' len' = x.extractLsb' (start + start') len' := by
  apply BitVec.eq_of_getLsbD_eq
  intro j hj
  simp only [BitVec.getLsbD_extractLsb', hj, decide_true, Bool.true_and, Nat.add_assoc]
  rw [decide_eq_true (by omega), Bool.true_and]

/-- Byte i of a descriptor in memory is its bits from 8*i on (R42, D36). -/
theorem descBytes_getElem (d : Descriptor) (hi : i < 8) : (descBytes d)[i]'hi = d.extractLsb' (8 * i) 8 := by
  interval_cases i <;> exact extractLsb'_extractLsb'_add d (by decide)

/-- An entry of the table other than the live one is 0 after IDT.BUILD (R94). -/
theorem idtEntry_buildTable_other (hw : Memory.wf s.cfg s.mem = true) (hv : v < s.cfg.idtEntries)
    (hne : v ≠ s.cfg.kbdVector.toNat) : idtEntry (buildTable a s) v = some 0 := by
  have hmem : idtEntry (buildTable a s) v = idtEntry (s.setMem (buildTable a s).mem) v := idtEntry_congr rfl rfl
  refine hmem.trans (idtEntry_of_stored fun i hi => ?_)
  have hzero : ∀ i, (hi : i < 8) → (descBytes 0)[i]'hi = 0 := by decide
  rw [hzero i hi, read_buildTable_other (by unfold descAddress; omega)]
  exact read_zeros hw (by unfold descAddress; omega) (by unfold descAddress; omega)

/-- Settles O38: IDT.BUILD is `buildTable`, read back inside the live entry, in the other entries and outside the table. -/
theorem idtBuildMakesOneEntryLive : Obligations.IdtBuildMakesOneEntryLive := by
  unfold Obligations.IdtBuildMakesOneEntryLive
  intro s a hc hw hi
  have hentry : ∀ v, idtEntry ((buildTable a s).setResult .none) v = idtEntry (buildTable a s) v := fun v =>
    idtEntry_congr rfl rfl
  refine ⟨(buildTable a s).setResult .none, exec_idtBuild hi, rfl, (hentry _).trans (idtEntry_buildTable hw), ?bytes,
    fun v hv hne => (hentry v).trans (idtEntry_buildTable_other hw hv hne), fun x => read_buildTable_outside hc⟩
  case bytes =>
    intro i hi
    rw [← descBytes_getElem _ hi]
    exact read_buildTable_live hw hi

/-! ### The controllers -/

/-- Both chips and the log are all that a sequence of port writes to the controllers changes. -/
theorem onChips_eq (s : State) (l : List IoEntry) (m q : Pic) :
    onChips s l m q = { s with iotrace := s.iotrace ++ l, picM := m, picS := q } := rfl

/-- The two end-of-interrupt bytes change the chips' service bits and the log (R98). -/
theorem bothAcknowledged_eq (s : State) : bothAcknowledged s = { s with
    picM := { s.picM with insvc := acknowledge s.picM.insvc }
    picS := { s.picS with insvc := acknowledge s.picS.insvc }
    iotrace := s.iotrace ++ [⟨.w, s.cfg.picMCmd, s.cfg.eoiByte⟩, ⟨.w, s.cfg.picSCmd, s.cfg.eoiByte⟩] } := rfl

/-- Settles O40: `exec_picInit` names both chips and the eight entries. -/
theorem picInitConfiguresBothChips : Obligations.PicInitConfiguresBothChips := by
  unfold Obligations.PicInitConfiguresBothChips
  intro s hc hi hu
  rw [exec_picInit hc hi hu, onChips_eq]
  rfl

/-- PIC.EOI to two configured chips (R98). -/
theorem exec_picEoi (hc : s.cfg.wf = true) (hm : s.picM.configured = true) (hs : s.picS.configured = true) :
    exec .picEoi s = .next ((bothAcknowledged s).setResult .none) :=
  congrArg (finish .none) (acknowledgeBoth_next hc hm hs)

/-- Settles O41: `exec_picSetmask` and `exec_picEoi`. -/
theorem picMaskAndAcknowledge : Obligations.PicMaskAndAcknowledge := by
  unfold Obligations.PicMaskAndAcknowledge
  intro s hc hm hs
  constructor
  · intro hu h1 h2
    rw [exec_picSetmask hc hu hm hs h1 h2, onChips_eq]
    rfl
  · rw [exec_picEoi hc hm hs, bothAcknowledged_eq]
    rfl

/-- A mask byte for a master that is not configured is logged and refused, and PIC.SETMASK with it (R75, R97). -/
theorem exec_picSetmask_refused (hc : s.cfg.wf = true) (h0 : s.picM.step = 0) (hm : s.picM.configured = false) :
    exec .picSetmask s = refuse .portProtocol (logIo ⟨.w, s.cfg.picMData, s.cfg.maskM⟩ s) := by
  have hw : portWrite s.cfg.picMData s.cfg.maskM s = refuse .portProtocol (logIo ⟨.w, s.cfg.picMData, s.cfg.maskM⟩ s) :=
    (portWrite_data (c := .master) hc).trans
      ((picDataByte_mask (c := .master) (s := logIo ⟨.w, s.cfg.picMData, s.cfg.maskM⟩ s) h0).trans (picMask_off hm))
  rw [exec, execPicSetmask, maskBytes, portWrites, hw, thenStep, andThen_refuse, finish_refuse]

/-! ### The handler body -/

/-- The handler's port read, with nothing of the environment's behind it (R76). -/
theorem byteTaken_nil (b : Byte) (s : State) : byteTaken b [] s =
    { s with kbd := .read b, iotrace := s.iotrace ++ [⟨.r, s.cfg.kbdDataPort, b⟩] } := rfl

/-- Q.PUT writes the slot at WR, and WR (R89). -/
theorem ringPut_eq (e : KeyEvent) (s : State) :
    ringPut e s = { s with ring := s.ring.set s.wr.val (some e) s.wr.isLt, wr := s.wr + 1 } := rfl

/-- KBD.ISR with a byte latched and both chips configured (R99). -/
theorem exec_kbdIsr_full (hc : s.cfg.wf = true) (hk : s.kbd = .full b) (hm : s.picM.configured = true)
    (hs : s.picS.configured = true) : exec .kbdIsr s = .next ((handlerResult b [] s).setResult .none) :=
  congrArg (finish .none) (handler_full hc hk hm hs)

/-- KBD.ISR with none latched (R76, R99). -/
theorem exec_kbdIsr_empty (h : kbdFull s = false) : exec .kbdIsr s = raise .kbdLatchEmpty s := by
  rw [exec, execKbdIsr, handler, portRead_empty h, andThen_raise, finish_raise]

/-- Settles O31: `handlerResult` with nothing of the environment's inside it, its event as `handleByte_eq` writes it. -/
theorem kbdIsrServesOneByte : Obligations.KbdIsrServesOneByte := by
  unfold Obligations.KbdIsrServesOneByte
  intro s b hc
  refine ⟨fun hk hm hs => ?full, exec_kbdIsr_empty⟩
  case full =>
    rw [exec_kbdIsr_full hc hk hm hs, handlerResult, handleByte_eq, byteTaken_nil]
    simp only [ringPut_eq, bothAcknowledged_eq, State.setMods, State.setResult, List.append_assoc, List.cons_append,
      List.nil_append]

/-! ### The processor -/

/-- R104's condition, part by part. -/
theorem setupDone_iff : setupDone s = true ↔ s.idtr ≠ none ∧ s.picM.configured = true ∧ s.picS.configured = true ∧
    s.picM.imr ≠ none ∧ s.picS.imr ≠ none := by
  simp only [setupDone, Bool.and_eq_true, Option.isSome_iff_ne_none, and_assoc]

/-- What INT.ENABLE finds missing (R104). -/
theorem setupDone_eq_false_iff : setupDone s = false ↔ s.idtr = none ∨ s.picM.configured = false ∨
    s.picS.configured = false ∨ s.picM.imr = none ∨ s.picS.imr = none := by
  simp only [setupDone, Bool.and_eq_false_iff, Option.isSome_eq_false_iff, Option.isNone_iff_eq_none, or_assoc]

/-- Settles O39: each operation writes its one register, and the limit is that of the whole table. -/
theorem processorOperations : Obligations.ProcessorOperations := by
  unfold Obligations.ProcessorOperations
  intro s
  refine ⟨fun hc hi => ⟨s.cfg.idtLimit, Config.idtLimit_toNat hc, exec_idtLoad hi⟩, fun h1 h2 h3 h4 h5 => ?enable,
    rfl, rfl⟩
  case enable => exact exec_intEnable (setupDone_iff.2 ⟨h1, h2, h3, h4, h5⟩)

/-- INT.ENABLE before set-up (R104). -/
theorem exec_intEnable_refused (h : setupDone s = false) : exec .intEnable s = refuse .enableBeforeSetup s := by
  rw [exec, execIntEnable, h, if_neg Bool.false_ne_true]

/-- Settles O42: each operation's test fails, and the master refuses the mask byte it has logged. -/
theorem setupOrderIsEnforced : Obligations.SetupOrderIsEnforced := by
  unfold Obligations.SetupOrderIsEnforced
  intro s a
  exact ⟨fun hi => ⟨if_pos hi, if_pos hi, if_pos hi⟩, fun h => exec_intEnable_refused (setupDone_eq_false_iff.2 h),
    exec_picSetmask_refused⟩

end Sys2Proof.Machine
end

section
/-! The foreground's loop and its halt (R106 to R109). -/

namespace Sys2Proof.Machine

variable {s t u : State} {e : KeyEvent}

/-! ### One turn of the loop -/

/-- A release, and an event without a character, are dropped (R108). -/
theorem forwardEvent_drop (h : e.pressed = false ∨ e.ch = 0) : forwardEvent e s = .next s := by
  rcases h with h | h <;> simp [forwardEvent, h]

/-- MAIN.STEP on an empty queue (R108). -/
theorem exec_mainStep_empty (hu : Undisturbed s) (he : s.rd = s.wr) :
    exec .mainStep s = .next ((haltForeground s).setResult .none) := by
  rw [exec, execMainStep, mainTurn, queueIsEmpty_undisturbed hu, andThen_next, boundary_undisturbed hu, andThen_next,
    decide_eq_true he, if_pos rfl, finish_next]

/-- MAIN.STEP on a queue that is not empty takes its event (R90, R108). -/
theorem exec_mainStep_event (hu : Undisturbed s) (hne : s.rd ≠ s.wr) (he : slot s s.rd = some e) :
    exec .mainStep s = finish .none (forwardEvent e (s.setRd (advance s.rd))) :=
  congrArg (finish .none) (mainTurn_undisturbed hu hne he)

/-- Settles O43: an empty queue by `exec_mainStep_empty`; otherwise the event is taken, and its kind decides what
`forwardEvent` does with it. -/
theorem mainStepHaltsOrForwards : Obligations.MainStepHaltsOrForwards := by
  unfold Obligations.MainStepHaltsOrForwards
  intro s e hu
  refine ⟨exec_mainStep_empty hu, fun hne he hdrop => ?dropped, fun hne he hp hch => ?forwarded⟩
  case dropped =>
    rw [exec_mainStep_event hu hne he, forwardEvent_drop hdrop, finish_next]
    rfl
  case forwarded =>
    rw [exec_mainStep_event hu hne he, forwardEvent_press hp hch]
    rfl

/-! ### A halted foreground -/

/-- The turn of a halted foreground (R106, R107). -/
theorem step_of_halted (hh : u.halted = true) (ht : turn s = foregroundTurn u) :
    step s = if u.intFlag then .next u else .fault (.stuckHalt u) := by
  refine step_of_settled (ht.trans ((foregroundTurn_halted hh).trans ?_))
  cases u.intFlag <;> rfl

/-- With interrupts masked there is nothing to deliver (R121). -/
theorem deliverable_masked (h : s.intFlag = false) : deliverable s = none := by
  simp [deliverable, h]

theorem deliver_of_deliverable {l : Line} {within : List EnvAct} (h : deliverable s = some l) :
    deliver within s = takeInterrupt l within s := by
  simp only [deliver, h]

/-- While the foreground is halted a step is the environment's, or a delivery (R106, R121). -/
theorem step_next_of_halted (ht : turn s = scheduledTurn foregroundTurn s) (hh : s.halted = true)
    (e : step s = .next t) : OnlyEnvironment s t ∨ ∃ within acts, deliver within (s.setSched acts) = .next t := by
  have own : ∀ acts, turn s = foregroundTurn (s.setSched acts) → OnlyEnvironment s t := fun acts h => by
    rw [step_of_halted (u := s.setSched acts) hh h] at e
    split at e
    · cases e
      exact onlyEnvironment_setSched acts
    · cases e
  rcases scheduledTurn_cases foregroundTurn s with ⟨acts, -, hs⟩ | ⟨ev, acts, -, hs⟩ | ⟨within, acts, -, hs⟩ | ⟨-, hs⟩ |
    ⟨l, -, hd, hs⟩ | ⟨-, hs⟩
  · exact .inl (own acts (ht.trans hs))
  · rw [step_of_settled (ht.trans hs)] at e
    cases e
    exact .inl (onlyEnvironment_envAct ev acts)
  · exact .inr ⟨within, acts, (step_of_settled (ht.trans hs)).symm.trans e⟩
  · rw [step_of_settled (ht.trans hs)] at e
    cases e
    exact .inl (onlyEnvironment_envAct .key s.sched)
  · rw [step_of_settled (ht.trans hs), ← deliver_of_deliverable hd] at e
    exact .inr ⟨[], s.sched, e⟩
  · exact .inl (own s.sched (ht.trans hs))

/-- Whatever happens while the foreground is halted, its own state is as it was (R48, R106). -/
theorem step_kept_of_halted (hc : s.cfg.wf = true) (ht : turn s = scheduledTurn foregroundTurn s)
    (hh : s.halted = true) (e : step s = .next t) : ForegroundKept s t := by
  obtain henv | ⟨within, acts, hd⟩ := step_next_of_halted ht hh e
  · exact henv.kept
  · exact setSched_kept.trans (deliver_kept (s := s.setSched acts) hc hd)

/-- A foreground halted with interrupts masked sees nothing but the environment (R107). -/
theorem step_of_stuck (hi : s.intFlag = false) (ht : turn s = scheduledTurn foregroundTurn s)
    (hh : s.halted = true) (e : step s = .next t) : OnlyEnvironment s t := by
  obtain henv | ⟨within, acts, hd⟩ := step_next_of_halted ht hh e
  · exact henv
  · rw [deliver_masked (s := s.setSched acts) hi] at hd
    cases hd
    exact onlyEnvironment_setSched acts

/-- Settles O45: the foreground's turn by `step_of_halted`, every step by `step_kept_of_halted` with interrupts on and by
`step_of_stuck` with them masked. -/
theorem haltedAndMaskedIsStuck : Obligations.HaltedAndMaskedIsStuck := by
  unfold Obligations.HaltedAndMaskedIsStuck
  intro s hf hr hw hc hh
  have ht := turn_scheduled hf hr hw hc
  have hgo : ∀ acts, s.sched = .go :: acts → step s =
      if s.intFlag then .next (s.setSched acts) else .fault (.stuckHalt (s.setSched acts)) :=
    fun acts hs => step_of_halted (u := s.setSched acts) hh (ht.trans (scheduledTurn_go hs))
  have hidle : Quiet s → step s = if s.intFlag then .next s else .fault (.stuckHalt s) :=
    fun hq => step_of_halted hh (ht.trans (hq.turn _))
  refine ⟨fun hi => ?enabled, fun hi => ?masked⟩
  case enabled =>
    simp only [hi, if_true] at hgo hidle
    exact ⟨hgo, fun hs hk hd => hidle ⟨hs, hk, hd⟩, fun hwf t => step_kept_of_halted hwf ht hh⟩
  case masked =>
    simp only [hi, Bool.false_eq_true, if_false] at hgo hidle
    refine ⟨fun h => Bool.false_ne_true (hi.symm.trans h.canWake), hgo,
      fun hs hk => hidle ⟨hs, hk, deliverable_masked hi⟩, fun t e => ?step⟩
    case step =>
      have henv := step_of_stuck hi ht hh e
      obtain ⟨-, -, -, hctx, hif, hhalt, -⟩ := henv.handler
      exact ⟨hhalt.trans hh, hif.trans hi, hctx.trans hc, henv.kept⟩

end Sys2Proof.Machine
end

section
/-! The environment's two actions and a scancode byte that arrives (R114 to R116). -/

namespace Sys2Proof.Machine

variable {s : State} {b b' : Byte} {rest : List Byte}

/-! ### TICK -/

/-- A bit that is set stays set once. -/
theorem setBit_setBit (x : BitVec 8) (l : Line) : setBit (setBit x l) l = setBit x l := by
  rw [setBit, setBit, BitVec.or_assoc, BitVec.or_self]

/-- A line that is asserted again stays pending once (R116). -/
theorem assertLine_assertLine (l : Line) (s : State) : assertLine l (assertLine l s) = assertLine l s :=
  congrArg (fun irr => s.setPicM { s.picM with irr }) (setBit_setBit s.picM.irr l)

/-- TICK where the environment may act on the timer's line, and where it may not (R115). -/
theorem envAct_tick_on (h : s.cfg.envTimerAsserts = true) : envAct .tick s = assertLine s.cfg.timerLine s := if_pos h

theorem envAct_tick_off (h : s.cfg.envTimerAsserts = false) : envAct .tick s = s := if_neg (ne_true_of_eq_false h)

/-- A second TICK is absorbed (R115, R116). -/
theorem envAct_tick_tick (s : State) : envAct .tick (envAct .tick s) = envAct .tick s := by
  cases h : s.cfg.envTimerAsserts with
  | true =>
    have hcfg : (assertLine s.cfg.timerLine s).cfg = s.cfg := rfl
    rw [envAct_tick_on h, envAct_tick_on (s := assertLine s.cfg.timerLine s) h, hcfg, assertLine_assertLine]
  | false => rw [envAct_tick_off h, envAct_tick_off h]

/-! ### KEY -/

/-- KEY with a byte waiting and the latch empty (R114). -/
theorem presentKey_latches (hk : s.keys = b :: rest) (hf : kbdFull s = false) :
    presentKey s = latchKey b (s.setKeys rest) := by
  simp only [presentKey, hk, hf, Bool.false_eq_true, if_false]

/-- KEY with no byte waiting, or the latch full (R114). -/
theorem presentKey_idle (h : s.keys = [] ∨ kbdFull s = true) : presentKey s = s := by
  unfold presentKey
  split
  · rfl
  · rename_i hk
    rw [if_pos (h.resolve_left (by rw [hk]; exact List.cons_ne_nil _ _))]

/-- Settles O50: `assertLine` where TICK is enabled, and KEY by `presentKey_latches` and `presentKey_idle`. -/
theorem tickAssertsTheTimerLine : Obligations.TickAssertsTheTimerLine := by
  unfold Obligations.TickAssertsTheTimerLine
  intro s
  exact ⟨envAct_tick_on, envAct_tick_off, envAct_tick_tick s, fun _ _ => presentKey_latches, presentKey_idle⟩

/-! ### A scancode byte -/

/-- The byte that arrives with nothing waiting and the latch empty is latched (R114). -/
theorem keyArrives_alone (hk : s.keys = []) (hf : kbdFull s = false) : keyArrives b s = latchKey b s := by
  rw [keyArrives, presentKey_latches (s := s.setKeys (s.keys ++ [b])) (by rw [hk]; rfl) hf, State.setKeys_setKeys, ← hk,
    State.setKeys_self]

/-- The byte that arrives with the latch full waits behind those that wait (R114). -/
theorem keyArrives_full (hf : kbdFull s = true) : keyArrives b s = s.setKeys (s.keys ++ [b]) :=
  presentKey_idle (s := s.setKeys (s.keys ++ [b])) (.inr hf)

/-- With bytes waiting and the latch empty the oldest is latched, and the one that arrives waits last (R114). -/
theorem keyArrives_behind (hk : s.keys = b' :: rest) (hf : kbdFull s = false) :
    keyArrives b s = latchKey b' (s.setKeys (rest ++ [b])) := by
  rw [keyArrives, presentKey_latches (s := s.setKeys (s.keys ++ [b])) (rest := rest ++ [b]) (by rw [hk]; rfl) hf,
    State.setKeys_setKeys]

/-- Both scancode rows are the arrival of their byte (R58, R72). -/
theorem exec_scancode (rel : Bool) (k : KeyCode) (s : State) :
    exec (if rel then .scRelease k else .scPress k) s = .next ((keyArrives (scancodeByte rel k) s).setResult .none) := by
  cases rel <;> rfl

/-- Settles O32: the row is the byte's arrival, which is one of three. -/
theorem scancodesArriveOrWait : Obligations.ScancodesArriveOrWait := by
  unfold Obligations.ScancodesArriveOrWait
  intro s k rel
  simp only [exec_scancode]
  refine ⟨fun hk hf => ?alone, fun hf => ?full, fun b' rest hk hf => ?behind⟩
  case alone => rw [keyArrives_alone hk hf]; rfl
  case full => rw [keyArrives_full hf]; rfl
  case behind => rw [keyArrives_behind hk hf]; rfl

end Sys2Proof.Machine
end

section
/-! Which line is delivered, and what taking it ends in (R117 to R127). -/

namespace Sys2Proof.Machine

variable {s : State} {l : Line} {b base : Byte} {within : List EnvAct} {v : Nat} {t : TableRegister} {d : Descriptor}

/-! ### The line that can be delivered -/

/-- Where the foreground can be interrupted, the lowest line that requests is delivered (R120, R121). -/
theorem deliverable_iff : deliverable s = some l ↔ s.intFlag = true ∧ s.ctx = .fg ∧ s.fault = none ∧
    requests s.picM l = true ∧ ∀ k < l, requests s.picM k = false := by
  have hopen : (s.intFlag && decide (s.ctx = .fg) && s.fault.isNone) = true ↔
      s.intFlag = true ∧ s.ctx = .fg ∧ s.fault = none := by
    simp only [Bool.and_eq_true, decide_eq_true_eq, Option.isNone_iff_eq_none, and_assoc]
  unfold deliverable
  split
  case isTrue h =>
    obtain ⟨hi, hc, hf⟩ := hopen.1 h
    simp only [find_lines, hi, hc, hf, true_and]
  case isFalse h =>
    exact ⟨fun hn => (Option.some_ne_none l hn.symm).elim, fun ⟨hi, hc, hf, _⟩ => (h (hopen.2 ⟨hi, hc, hf⟩)).elim⟩

/-- With none nothing happens (R121). -/
theorem deliver_of_none (h : deliverable s = none) : deliver within s = .next s := by
  simp only [deliver, h]

/-- With nothing scheduled and no byte to present, a line that can be delivered is (R121). -/
theorem scheduledTurn_ready {f : State → Turn} (hs : s.sched = []) (hk : s.keys = [] ∨ kbdFull s = true)
    (hd : deliverable s = some l) : scheduledTurn f s = .settled (takeInterrupt l [] s) := by
  have hnone : (!s.keys.isEmpty && !kbdFull s) = false := by rcases hk with h | h <;> simp [h]
  simp only [scheduledTurn, hs, unscheduledTurn, hnone, Bool.false_eq_true, if_false, hd]

/-- Settles O46: `deliverable_iff`, whose requests are the ready lines, and the turn a schedule with or without a delivery
gives. -/
theorem deliverableIsTheLowestReadyLine : Obligations.DeliverableIsTheLowestReadyLine := by
  unfold Obligations.DeliverableIsTheLowestReadyLine
  intro s l within ready
  have hready : ∀ k, ready k ↔ requests s.picM k = true := fun k => requests_iff.symm
  refine ⟨?lowest, deliver_of_deliverable, deliver_of_none, fun hf hr hw hc => ?step⟩
  case lowest => simp only [hready, Bool.not_eq_true, deliverable_iff]
  case step =>
    have ht := turn_scheduled hf hr hw hc
    exact ⟨fun acts hs => step_of_settled (ht.trans (scheduledTurn_deliver hs)),
      fun hs hk hd => step_of_settled (ht.trans (scheduledTurn_ready hs hk hd))⟩

/-! ### The vector lookup -/

/-- The vector of a line, once the chip has its base (R119). -/
theorem vectorOf_base (h : s.picM.base = some base) : vectorOf s l = base.toNat + l.val := by
  rw [vectorOf, h, Option.getD_some]

theorem vectorInTable_of_le (ht : s.idtr = some t) (hlim : 8 * v + 7 ≤ t.limit.toNat) (hv : v < s.cfg.idtEntries) :
    vectorInTable s v = true := by
  simp only [vectorInTable, ht, hlim, hv, decide_true, Bool.and_self]

theorem vectorInTable_beyond (h : s.idtr = none ∨ ∃ t, s.idtr = some t ∧ t.limit.toNat < 8 * v + 7) :
    vectorInTable s v = false := by
  rcases h with h | ⟨t, h, hlim⟩
  · simp only [vectorInTable, h]
  · simp only [vectorInTable, h, decide_eq_false (Nat.not_le_of_lt hlim), Bool.false_and]

/-- Beyond the table (R123). -/
theorem throughVector_beyond (h : vectorInTable s v = false) :
    throughVector v within s = raise (.vectorOutOfTable v) s := by
  rw [throughVector, h, if_neg Bool.false_ne_true]

/-- Through an empty descriptor (R123). -/
theorem throughVector_empty (h : vectorInTable s v = true) (hd : idtEntry s v = some 0) :
    throughVector v within s = raise (.vectorNotPresent v) s := by
  simp only [throughVector, h, hd, if_true]

/-- Through a descriptor that is not the handler's (R123). -/
theorem throughVector_foreign (h : vectorInTable s v = true) (hd : idtEntry s v = some d) (h0 : d ≠ 0)
    (hf : d ≠ mkdesc s.cfg s.cfg.handlerAddr) : throughVector v within s = refuse .foreignDescriptor s := by
  simp only [throughVector, h, hd, if_true, if_neg h0, if_pos hf]

/-- Settles O48: the lookup's three stops, at the state that has taken the request. -/
theorem deliveryStopsAreAsWritten : Obligations.DeliveryStopsAreAsWritten := by
  unfold Obligations.DeliveryStopsAreAsWritten
  intro s l base within hb v taken
  have htake : takeInterrupt l within s = throughVector v within taken := by
    rw [takeInterrupt, vectorOf_base hb]
    rfl
  rw [htake]
  refine ⟨fun h => throughVector_beyond (vectorInTable_beyond h), fun t ht hlim hv => ?inside⟩
  case inside =>
    have hin : vectorInTable taken v = true := vectorInTable_of_le ht hlim hv
    exact ⟨fun hd => throughVector_empty hin hd, fun d hd => throughVector_foreign hin hd⟩

/-! ### The interrupt that is served -/

/-- As far as the environment's actions look, the state in which they fall inside the handler: the request taken, the byte
read (R122, R126). -/
def byteRead (l : Line) (b : Byte) (s : State) : State :=
  (s.setKbd (.read b)).setPicM { s.picM with irr := clearBit s.picM.irr l }

/-- Inside the handler the environment leaves of the latch, the waiting bytes and the request bits what it leaves of
`byteRead`'s (R126). -/
theorem byteTaken_sameInputs :
    SameInputs (envActs within (byteRead l b s)) (byteTaken b within (entered l s)) :=
  SameInputs.envActs within ⟨rfl, rfl, rfl, rfl⟩

/-- The port accesses of one interrupt: the keyboard's byte, then both end-of-interrupt bytes (R28, R99). -/
theorem interruptResult_iotrace : (interruptResult l b within s).iotrace = s.iotrace ++
    [⟨.r, s.cfg.kbdDataPort, b⟩, ⟨.w, s.cfg.picMCmd, s.cfg.eoiByte⟩, ⟨.w, s.cfg.picSCmd, s.cfg.eoiByte⟩] := by
  obtain ⟨-, -, -, -, -, -, -, -, -, hread⟩ := byteTaken_fields b within (entered l s)
  have hcfg : (byteTaken b within (entered l s)).cfg = s.cfg := (entered_kept.trans byteTaken_kept).cfg
  simp only [interruptResult, handlerResult, leaveIsr, State.setIntFlag_iotrace, State.setCtx_iotrace, bothAcknowledged,
    State.setIotrace_iotrace]
  have hlog : (handleByte b (byteTaken b within (entered l s))).iotrace = s.iotrace ++ [⟨.r, s.cfg.kbdDataPort, b⟩] :=
    hread
  have hports : (handleByte b (byteTaken b within (entered l s))).cfg = s.cfg := hcfg
  rw [hlog, hports, List.append_assoc, List.singleton_append]

/-- The handler's event, with the key code and the release bit as slices of the byte (R58, R99). -/
theorem byteEvent_eq (b : Byte) (s : State) : byteEvent b s =
    let m := modupdate s.cfg s.mods b
    ⟨scanTable s.cfg (b.extractLsb' 0 7), !b.getLsbD 7, m.lshift, m.rshift, m.ctrl, m.alt⟩ := by
  simp only [byteEvent, decodeKey, keyCode_scancodeByte]
  rfl

/-- KEY inside the handler: the latch is empty, so the next byte that waits is latched (R114, R126). -/
theorem envActs_key_byteRead {b' : Byte} {rest : List Byte} (hk : s.keys = b' :: rest) :
    envActs [.key] (byteRead l b s) = latchKey b' ((byteRead l b s).setKeys rest) :=
  presentKey_latches (s := byteRead l b s) hk rfl

/-- The state one interrupt leaves, whole: the byte queued, the line acknowledged, the foreground awake (R99, R122, R125). -/
theorem interruptResult_eq (l : Line) (b : Byte) (within : List EnvAct) (s : State) :
    interruptResult l b within s =
      let after := envActs within (byteRead l b s)
      { s with
        kbd := after.kbd
        keys := after.keys
        mods := modupdate s.cfg s.mods b
        ring := s.ring.set s.wr.val (some (byteEvent b s)) s.wr.isLt
        wr := s.wr + 1
        picM := { s.picM with irr := after.picM.irr, insvc := acknowledge (setBit s.picM.insvc l) }
        picS := { s.picS with insvc := acknowledge s.picS.insvc }
        iotrace := s.iotrace ++ [⟨.r, s.cfg.kbdDataPort, b⟩, ⟨.w, s.cfg.picMCmd, s.cfg.eoiByte⟩,
          ⟨.w, s.cfg.picSCmd, s.cfg.eoiByte⟩]
        intFlag := true
        halted := false
        ctx := .fg } := by
  have hs := interruptResult_served l b within s
  have hk := interruptResult_kept (l := l) (b := b) (within := within) (s := s)
  have hlog := interruptResult_iotrace (l := l) (b := b) (within := within) (s := s)
  obtain ⟨-, hkbd, hkeys, hirr⟩ := byteTaken_sameInputs (l := l) (b := b) (within := within) (s := s)
  have hpicM := hs.picM
  rw [hirr] at hpicM
  generalize interruptResult l b within s = t at *
  cases t
  rw [State.mk.injEq]
  exact ⟨hk.cfg, hk.mem, hk.crtc, hk.term, hs.mods, hs.ring, hk.rd, hs.wr, hk.queueBuilt, hk.idtr, hpicM, hs.picS,
    hs.kbd.trans hkbd, hs.intFlag, hs.halted, hs.ctx, hk.fault, hk.refusal, hlog, hk.fgpos, hk.stream, hk.mainLoop,
    hk.work, hs.sched, hs.keys.trans hkeys, hk.result⟩

/-- Settles O47: it is served (`takeInterrupt_run`), and `interruptResult_eq` is the state it leaves, with the environment's
actions inside the handler as they fall on `byteRead`. -/
theorem interruptIsServed : Obligations.InterruptIsServed := by
  unfold Obligations.InterruptIsServed
  intro s l b base t within hc hk hm hs hb ht hlim hv hd m e taken after
  rw [← vectorOf_base (s := s) (l := l) hb] at hlim hv hd
  have hserved : takeInterrupt l within s = .next (interruptResult l b within s) :=
    takeInterrupt_run hc (vectorInTable_of_le ht hlim hv) hd hk hm hs
  refine ⟨_, hserved.trans (congrArg Host.Outcome.next ?whole), rfl, ?alone, ?key⟩
  case whole => rw [interruptResult_eq, byteEvent_eq]; rfl
  case alone =>
    rintro rfl
    exact ⟨rfl, rfl, rfl⟩
  case key =>
    rintro b' rest rfl hkeys
    have hafter := envActs_key_byteRead (l := l) (b := b) hkeys
    exact ⟨congrArg State.kbd hafter, congrArg State.keys hafter, congrArg (·.picM.irr) hafter⟩

end Sys2Proof.Machine
end

section
/-! The lost wakeup (R91, R109, R146). -/

namespace Sys2Proof.Machine

variable {s t u v : State} {acts : List Act}

/-- A boundary whose schedule goes on at once is passed. -/
theorem boundary_go (h : s.sched = .go :: acts) : boundary s = .next (s.setSched acts) := by
  rw [boundary, h, runActs]

/-- A boundary at which one interrupt is scheduled, the last that is (R48, R121). -/
theorem boundary_deliver {within : List EnvAct} (h : s.sched = [.deliver within])
    (hd : deliver within (s.setSched []) = .next t) : boundary s = .next (t.setSched []) := by
  rw [boundary, h, runActs, hd, andThen_next, runActs]

/-- MAIN.STEP that has found the queue empty halts, whatever its two boundaries have let in since RD was read (R108). -/
theorem exec_mainStep_halts (h1 : boundary s = .next u) (h2 : boundary u = .next v) (he : s.rd = u.wr) :
    exec .mainStep s = .next ((haltForeground v).setResult .none) := by
  rw [exec, execMainStep, mainTurn, queueIsEmpty, h1, andThen_next, andThen_next, h2, andThen_next, decide_eq_true he,
    if_pos rfl, finish_next]

/-- The turn that halts on an unread event, with nothing of the environment's left, is the hang (R109, R146). -/
theorem lostWakeup_of_unread (hne : t.rd ≠ t.wr) (hk : t.keys = []) (hf : kbdFull t = false) :
    LostWakeup (retire [] ((haltForeground (t.setSched [])).setResult .none)) := by
  unfold kbdFull at hf
  simp [LostWakeup, retire, haltForeground, kbdFull, hne, hk, hf]

/-- Settles O44: RD and WR are equal at the test, and the delivery on the boundary between the test and the halt
(`Booted.served`) moves WR on. -/
theorem lostWakeupHappens : Obligations.LostWakeupHappens := by
  unfold Obligations.LostWakeupHappens
  intro s b h hq hh hb hirr hkeys hs
  have hx : Booted (s.setSched []) := ⟨h.toRunning.setSched [], h.cursor⟩
  obtain ⟨t, ht⟩ := hx.served hirr hb
  have hdeliver : deliver [] (s.setSched []) = .next t :=
    (deliver_of_deliverable (hx.toRunning.pending hirr)).trans ht.taken
  have hexec : exec .mainStep (s.setSched [.go, .deliver []]) =
      .next ((haltForeground (t.setSched [])).setResult .none) :=
    exec_mainStep_halts (boundary_go rfl) (boundary_deliver (s := s.setSched [.deliver []]) rfl hdeliver) hq
  have hturn : turn s = .stream .mainStep [] (s.setSched [.go, .deliver []]) :=
    (h.toSound.turn.trans (scheduledTurn_go hs)).trans
      (foregroundTurn_loop (t := s.setSched [.go, .deliver []]) hh h.looping.1 h.looping.2)
  have hunread : t.rd ≠ t.wr := by
    have hrd : t.rd = s.wr := ht.kept.rd.trans hq
    have hwr : t.wr = s.wr + 1 := ht.wr
    rw [hrd, hwr]
    omega
  have hkeys' : t.keys = [] := ht.keys.trans hkeys
  refine ⟨_, ?stepped, lostWakeup_of_unread hunread hkeys' ht.latch⟩
  rw [step_of_stream hturn, hexec, andThen_next]

end Sys2Proof.Machine
end
